-- ==== Sys2Proof/Word.lean ====
section
/-! DEFINITION. The word of the machine: 16 bits, the only unit the DCPU-16 reads, writes or addresses
(spec/00_scope.md R5, R7; spec/20_memory.md R61). -/

namespace Sys2Proof

/-- A word, an unsigned number in 0..65535 read as bits 15..0 (R7). It is also the type of an address. -/
abbrev Word := BitVec 16

/-- A 32-bit device identifier (spec/47_hardware_instructions.md R293). -/
abbrev Ident := BitVec 32

end Sys2Proof
end

