-- ==== Sys2Proof/Config.lean ====
section
/-! DEFINITION. What an implementation of the DCPU-16 fixes: the sizes of spec/00_scope.md R5, the open parameters
of R6, and the free values of the units outside the block. -/

namespace Sys2Proof

/-- An opcode by its number in the default table: field `o` of the basic format (spec/30_encoding.md R100) or field `s`
of the special one (R102). It names a row of the table, whatever number `OPMAP` gives that row. -/
inductive Opcode where
  | basic (o : BitVec 5)
  | special (s : BitVec 5)
  deriving DecidableEq, Repr

end Sys2Proof

namespace Sys2Proof.Config

/-- `MEMSIZE`, words of memory (R5). -/
def memSize : Nat := 65536

/-- `IQ_MAX`, capacity of the interrupt queue (R5). -/
def iqMax : Nat := 256

/-- `DEV_MAX`, capacity of the device registry (R5). -/
def devMax : Nat := 65536

/-- `SHIFT_AMOUNT_FN`: how a shift uses its 16-bit count (R6, spec/43_bitwise_shift.md R216, which names these two). -/
inductive ShiftAmount where
  | identity
  | mod32
  deriving DecidableEq, Repr

/-- `DVI_ROUND`: rounding of signed quotients (R6, spec/42_set_arithmetic.md R186). The spec names only the default;
rounding toward minus infinity is the other quotient of R7 (log 5, DESIGN CHOICE). -/
inductive DviRound where
  | towardZero
  | towardMinusInf
  deriving DecidableEq, Repr

/-- `EX_DEST_ORDER`: which write of EX stands when an instruction's destination is EX and it also sets EX
(R6, spec/42_set_arithmetic.md R191). -/
inductive ExDestOrder where
  | flagLast
  | resultLast
  deriving DecidableEq, Repr

/-- `OPMAP`, `OP_BRK` and `OP_HCF`: which number each opcode has (R6, decisions D1 to D3). Written as the numbers that
are exchanged, one pair after another, against the default table of spec/30_encoding.md R100 and R102, so that two opcodes
never share a number and the numbers that no mnemonic takes are the unassigned ones; empty lists are the default table.
What the lists mean is `OpMap.rowO`, `OpMap.numberO` and their like in
Sys2Proof/Decode.lean (log 2). -/
structure OpMap where
  /-- Exchanges of basic numbers. -/
  basic   : List (BitVec 5 × BitVec 5)
  /-- Exchanges of special numbers. -/
  special : List (BitVec 5 × BitVec 5)
  deriving DecidableEq, Repr

/-- The default table (spec/30_encoding.md R100, R102). -/
def defaultOpMap : OpMap := { basic := [], special := [] }

/-- The parameters of R6 that one choice fixes for the life of a machine. They stand in the state (log 4), so that a
statement about every state covers every choice; no step changes them. -/
structure Params where
  /-- `OPMAP`, `OP_BRK`, `OP_HCF` (D1 to D3). -/
  opMap         : OpMap
  /-- `COST`: the base costs that differ from the default table of spec/70_reset_and_hazards.md R368 (D14; log 3). -/
  costs         : List (Opcode × Nat)
  shiftAmount   : ShiftAmount
  dviRound      : DviRound
  exDestOrder   : ExDestOrder
  /-- `FETCH_VIA_HOOKS`: whether instruction and next-word fetches see the read hooks (spec/20_memory.md R64). -/
  fetchViaHooks : Bool
  deriving DecidableEq, Repr

/-- The default of every parameter (R6). -/
def defaultParams : Params :=
  { opMap := defaultOpMap, costs := []
    shiftAmount := .identity, dviRound := .towardZero, exDestOrder := .flagLast, fetchViaHooks := true }

/-- FREE VALUE (log 9): what the read callback numbered `callback` answers at this offset within its range, on the
`tick`-th call of any callback; `none` is the undefined value that lets the read go on (spec/20_memory.md R64). -/
opaque readHookReply (callback : Nat) (offset : Nat) (tick : Nat) : Option Int

/-- FREE VALUE (log 9): whether the write callback numbered `callback` signals that it handled the write
(spec/20_memory.md R65). -/
opaque writeHookHandled (callback : Nat) (offset : Nat) (value : Word) (tick : Nat) : Bool

end Sys2Proof.Config
end

