-- ==== Sys2Proof/Syntax.lean ====
section
/-! DEFINITION. The syntax of the DCPU-16: operand forms (spec/30_encoding.md R95), one constructor of `Instr` for each
row of spec/opcode_table.json, and the operand forms that the word encoder takes (R111). -/

namespace Sys2Proof

/-- The general registers, in the order of their numbers 0..7 (spec/10_state.md R20). -/
inductive GReg where
  | a | b | c | x | y | z | i | j
  deriving DecidableEq, Repr

/-- The registers that the access surface names (spec/60_exceptions.md R329). Operand codes reach all of them but IA
(spec/10_state.md R24). -/
inductive RegName where
  | gen (r : GReg)
  | sp
  | pc
  | ex
  | ia
  deriving DecidableEq, Repr

/-- An operand as it is encoded, with the next word it consumes, if any (R95). Code 0x18 is `pop` in position `a` and
`push` in position `b`; `short k` is code 0x20 + k and exists in position `a` only. -/
inductive Operand where
  | reg (r : GReg)
  | regInd (r : GReg)
  | regOff (r : GReg) (n : Word)
  | pop
  | push
  | peek
  | pick (n : Word)
  | sp
  | pc
  | ex
  | memAt (n : Word)
  | lit (n : Word)
  | short (k : BitVec 5)
  deriving DecidableEq, Repr

/-- The position an operand stands in; it decides what code 0x18 means (spec/40_operand_resolution.md R135, R136). -/
inductive Pos where
  | a
  | b
  deriving DecidableEq, Repr

/-- One constructor for each row of spec/opcode_table.json. Basic instructions take `b` (destination, left operand) and
then `a` (source, right operand); special instructions take `a`. The rows without a mnemonic are the halting special
opcode 0 (R104) and the unassigned opcodes (R101, R103). -/
inductive Instr where
  /-- SET b, a (`o` = 0x01, R180). -/
  | set (b a : Operand)
  /-- ADD b, a (`o` = 0x02, R181). -/
  | add (b a : Operand)
  /-- SUB b, a (`o` = 0x03, R182). -/
  | sub (b a : Operand)
  /-- MUL b, a (`o` = 0x04, R183). -/
  | mul (b a : Operand)
  /-- MLI b, a (`o` = 0x05, R184). -/
  | mli (b a : Operand)
  /-- DIV b, a (`o` = 0x06, R185). -/
  | div (b a : Operand)
  /-- DVI b, a (`o` = 0x07, R186). -/
  | dvi (b a : Operand)
  /-- MOD b, a (`o` = 0x08, R187). -/
  | mod (b a : Operand)
  /-- MDI b, a (`o` = 0x09, R188). -/
  | mdi (b a : Operand)
  /-- AND b, a (`o` = 0x0A, R210). -/
  | and (b a : Operand)
  /-- BOR b, a (`o` = 0x0B, R211). -/
  | bor (b a : Operand)
  /-- XOR b, a (`o` = 0x0C, R212). -/
  | xor (b a : Operand)
  /-- SHR b, a (`o` = 0x0D, R213). -/
  | shr (b a : Operand)
  /-- ASR b, a (`o` = 0x0E, R214). -/
  | asr (b a : Operand)
  /-- SHL b, a (`o` = 0x0F, R215). -/
  | shl (b a : Operand)
  /-- IFB b, a (`o` = 0x10, R232). -/
  | ifb (b a : Operand)
  /-- IFC b, a (`o` = 0x11, R233). -/
  | ifc (b a : Operand)
  /-- IFE b, a (`o` = 0x12, R234). -/
  | ife (b a : Operand)
  /-- IFN b, a (`o` = 0x13, R235). -/
  | ifn (b a : Operand)
  /-- IFG b, a (`o` = 0x14, R236). -/
  | ifg (b a : Operand)
  /-- IFA b, a (`o` = 0x15, R237). -/
  | ifa (b a : Operand)
  /-- IFL b, a (`o` = 0x16, R238). -/
  | ifl (b a : Operand)
  /-- IFU b, a (`o` = 0x17, R239). -/
  | ifu (b a : Operand)
  /-- ADX b, a (`o` = 0x1A, R189). -/
  | adx (b a : Operand)
  /-- SBX b, a (`o` = 0x1B, R190). -/
  | sbx (b a : Operand)
  /-- STI b, a (`o` = 0x1E, R250). -/
  | sti (b a : Operand)
  /-- STD b, a (`o` = 0x1F, R251). -/
  | std (b a : Operand)
  /-- Unassigned basic opcode 0x18 (R101). -/
  | unassignedBasic18 (b a : Operand)
  /-- Unassigned basic opcode 0x19 (R101). -/
  | unassignedBasic19 (b a : Operand)
  /-- Unassigned basic opcode 0x1C (R101). -/
  | unassignedBasic1C (b a : Operand)
  /-- Unassigned basic opcode 0x1D (R101). -/
  | unassignedBasic1D (b a : Operand)
  /-- HALT0 a (`s` = 0x00, R255). -/
  | halt0 (a : Operand)
  /-- JSR a (`s` = 0x01, R252). -/
  | jsr (a : Operand)
  /-- BRK a (`s` = 0x02, R253). -/
  | brk (a : Operand)
  /-- HCF a (`s` = 0x07, R254). -/
  | hcf (a : Operand)
  /-- INT a (`s` = 0x08, R270). -/
  | int (a : Operand)
  /-- IAG a (`s` = 0x09, R271). -/
  | iag (a : Operand)
  /-- IAS a (`s` = 0x0A, R272). -/
  | ias (a : Operand)
  /-- RFI a (`s` = 0x0B, R273). -/
  | rfi (a : Operand)
  /-- IAQ a (`s` = 0x0C, R274). -/
  | iaq (a : Operand)
  /-- HWN a (`s` = 0x10, R290). -/
  | hwn (a : Operand)
  /-- HWQ a (`s` = 0x11, R291). -/
  | hwq (a : Operand)
  /-- HWI a (`s` = 0x12, R292). -/
  | hwi (a : Operand)
  /-- Unassigned special opcode 0x03 (R103). -/
  | unassignedSpecial03 (a : Operand)
  /-- Unassigned special opcode 0x04 (R103). -/
  | unassignedSpecial04 (a : Operand)
  /-- Unassigned special opcode 0x05 (R103). -/
  | unassignedSpecial05 (a : Operand)
  /-- Unassigned special opcode 0x06 (R103). -/
  | unassignedSpecial06 (a : Operand)
  /-- Unassigned special opcode 0x0D (R103). -/
  | unassignedSpecial0D (a : Operand)
  /-- Unassigned special opcode 0x0E (R103). -/
  | unassignedSpecial0E (a : Operand)
  /-- Unassigned special opcode 0x0F (R103). -/
  | unassignedSpecial0F (a : Operand)
  /-- Unassigned special opcode 0x13 (R103). -/
  | unassignedSpecial13 (a : Operand)
  /-- Unassigned special opcode 0x14 (R103). -/
  | unassignedSpecial14 (a : Operand)
  /-- Unassigned special opcode 0x15 (R103). -/
  | unassignedSpecial15 (a : Operand)
  /-- Unassigned special opcode 0x16 (R103). -/
  | unassignedSpecial16 (a : Operand)
  /-- Unassigned special opcode 0x17 (R103). -/
  | unassignedSpecial17 (a : Operand)
  /-- Unassigned special opcode 0x18 (R103). -/
  | unassignedSpecial18 (a : Operand)
  /-- Unassigned special opcode 0x19 (R103). -/
  | unassignedSpecial19 (a : Operand)
  /-- Unassigned special opcode 0x1A (R103). -/
  | unassignedSpecial1A (a : Operand)
  /-- Unassigned special opcode 0x1B (R103). -/
  | unassignedSpecial1B (a : Operand)
  /-- Unassigned special opcode 0x1C (R103). -/
  | unassignedSpecial1C (a : Operand)
  /-- Unassigned special opcode 0x1D (R103). -/
  | unassignedSpecial1D (a : Operand)
  /-- Unassigned special opcode 0x1E (R103). -/
  | unassignedSpecial1E (a : Operand)
  /-- Unassigned special opcode 0x1F (R103). -/
  | unassignedSpecial1F (a : Operand)
  deriving DecidableEq, Repr

/-- The fields of an instruction word with their next words: the basic format (R91) or the special one (R92). -/
inductive Shape where
  | basic (o : BitVec 5) (b a : Operand)
  | special (s : BitVec 5) (a : Operand)
  deriving DecidableEq, Repr

/-- An operand form as the word encoder is given it (R111). Numbers are integers, so that one outside 0..0xFFFF can be
refused (R117); a label stands for its address. The last four forms have no code. -/
inductive AsmArg where
  | reg (r : GReg)
  | regInd (r : GReg)
  | regOff (r : GReg) (n : Int)
  | pop
  | push
  | peek
  | spInd
  | spOff (n : Int)
  | sp
  | pc
  | ex
  | ind (n : Int)
  | num (n : Int)
  | char (code : Word)
  | label (addr : Word)
  | labelInd (addr : Word)
  | labelReg (r : GReg) (addr : Word)
  | labelSp (addr : Word)
  | pcInd
  | exInd
  | pcOff (n : Int)
  | exOff (n : Int)
  deriving DecidableEq, Repr

/-- The encoder's errors that belong to bit-packing (R117). -/
inductive AsmError where
  | outOfRange
  | noCode
  | operandCount
  | unknownMnemonic
  deriving DecidableEq, Repr

/-- Why a list of words is not the words of an instruction: it is empty, or an operand's next word is missing. No word
is rejected for its bits: every one of the 65536 words is assigned or unassigned, basic or special (R116);
`zeroOpcode` names the one number that the basic table lacks and that selects the special format, so no word meets it. -/
inductive DecodeError where
  | noWord
  | missingNextWordA
  | missingNextWordB
  | zeroOpcode
  deriving DecidableEq, Repr

end Sys2Proof
end

