-- ==== Sys2Proof/WellFormed.lean ====
section
/-! DEFINITION. Which instructions an encoding exists for: the checks on operands that the types leave open
(spec/30_encoding.md R91, R95; spec/40_operand_resolution.md R135, R136, R144). -/

namespace Sys2Proof

/-- The operands of an instruction: `a`, and `b` where the format has one (R91, R92). -/
def Instr.operands : Instr → Operand × Option Operand
  | .set b a => (a, some b)
  | .add b a => (a, some b)
  | .sub b a => (a, some b)
  | .mul b a => (a, some b)
  | .mli b a => (a, some b)
  | .div b a => (a, some b)
  | .dvi b a => (a, some b)
  | .mod b a => (a, some b)
  | .mdi b a => (a, some b)
  | .and b a => (a, some b)
  | .bor b a => (a, some b)
  | .xor b a => (a, some b)
  | .shr b a => (a, some b)
  | .asr b a => (a, some b)
  | .shl b a => (a, some b)
  | .ifb b a => (a, some b)
  | .ifc b a => (a, some b)
  | .ife b a => (a, some b)
  | .ifn b a => (a, some b)
  | .ifg b a => (a, some b)
  | .ifa b a => (a, some b)
  | .ifl b a => (a, some b)
  | .ifu b a => (a, some b)
  | .adx b a => (a, some b)
  | .sbx b a => (a, some b)
  | .sti b a => (a, some b)
  | .std b a => (a, some b)
  | .unassignedBasic18 b a => (a, some b)
  | .unassignedBasic19 b a => (a, some b)
  | .unassignedBasic1C b a => (a, some b)
  | .unassignedBasic1D b a => (a, some b)
  | .halt0 a => (a, none)
  | .jsr a => (a, none)
  | .brk a => (a, none)
  | .hcf a => (a, none)
  | .int a => (a, none)
  | .iag a => (a, none)
  | .ias a => (a, none)
  | .rfi a => (a, none)
  | .iaq a => (a, none)
  | .hwn a => (a, none)
  | .hwq a => (a, none)
  | .hwi a => (a, none)
  | .unassignedSpecial03 a => (a, none)
  | .unassignedSpecial04 a => (a, none)
  | .unassignedSpecial05 a => (a, none)
  | .unassignedSpecial06 a => (a, none)
  | .unassignedSpecial0D a => (a, none)
  | .unassignedSpecial0E a => (a, none)
  | .unassignedSpecial0F a => (a, none)
  | .unassignedSpecial13 a => (a, none)
  | .unassignedSpecial14 a => (a, none)
  | .unassignedSpecial15 a => (a, none)
  | .unassignedSpecial16 a => (a, none)
  | .unassignedSpecial17 a => (a, none)
  | .unassignedSpecial18 a => (a, none)
  | .unassignedSpecial19 a => (a, none)
  | .unassignedSpecial1A a => (a, none)
  | .unassignedSpecial1B a => (a, none)
  | .unassignedSpecial1C a => (a, none)
  | .unassignedSpecial1D a => (a, none)
  | .unassignedSpecial1E a => (a, none)
  | .unassignedSpecial1F a => (a, none)

/-- Code 0x18 in position `a` is POP, so PUSH is no operand there (R135). -/
def Operand.okA : Operand → Bool
  | .push => false
  | _ => true

/-- Code 0x18 in position `b` is PUSH, and the 5-bit field has no short literal (R136, R144). -/
def Operand.okB : Operand → Bool
  | .pop => false
  | .short _ => false
  | _ => true

/-- An instruction is well formed when each operand exists in its position. -/
def Instr.wellFormed (i : Instr) : Bool :=
  i.operands.1.okA && (match i.operands.2 with | some b => b.okB | none => true)

end Sys2Proof
end

