-- ==== Sys2Proof/Decode.lean ====
section
/-! DEFINITION. The decoder, total on any list of words, and the encoder that is its inverse
(spec/30_encoding.md R90 to R119). `decode`, `encode` and `assemble` use the default table of R100 and R102;
`decodeFor`, `encodeFor` and `assembleFor` use the table of a machine's parameters `OPMAP`, `OP_BRK` and `OP_HCF`
(spec/00_scope.md R6; log 2). -/

namespace Sys2Proof

/-- Field `o` (or the zero field of the special format), bits 4:0 (R91, R92). -/
def fieldO (w : Word) : BitVec 5 := w.extractLsb' 0 5

/-- Field `b`, or the special opcode `s`, bits 9:5 (R91, R92). -/
def fieldB (w : Word) : BitVec 5 := w.extractLsb' 5 5

/-- Field `a`, bits 15:10 (R91, R92). -/
def fieldA (w : Word) : BitVec 6 := w.extractLsb' 10 6

/-- The instruction word of the basic format from its fields, `a` at bit 10, `b` at bit 5 (R91, R113). -/
def basicWord (a : BitVec 6) (b o : BitVec 5) : Word :=
  BitVec.ofNat 16 (a.toNat * 1024 + b.toNat * 32 + o.toNat)

/-- The instruction word of the special format from its fields (R92, R114). -/
def specialWord (a : BitVec 6) (s : BitVec 5) : Word := BitVec.ofNat 16 (a.toNat * 1024 + s.toNat * 32)

/-- The `b` code as an operand code: 5 bits, zero-extended into the 6-bit table (R91; spec/90_conflicts.md C9). -/
def codeOfB (b : BitVec 5) : BitVec 6 := b.setWidth 6

/-- `NW`: the operand codes that consume a next word, 0x10..0x17, 0x1A, 0x1E, 0x1F (R94). -/
def consumesNext (code : BitVec 6) : Bool :=
  (0x10 ≤ code.toNat && code.toNat ≤ 0x17) || code.toNat = 0x1A || code.toNat = 0x1E || code.toNat = 0x1F

/-- General register of a number (spec/10_state.md R20). -/
def GReg.ofNum (n : BitVec 3) : GReg :=
  match n.toNat with
  | 0 => .a
  | 1 => .b
  | 2 => .c
  | 3 => .x
  | 4 => .y
  | 5 => .z
  | 6 => .i
  | _ => .j

/-- Number of a general register (spec/10_state.md R20). -/
def GReg.num : GReg → BitVec 3
  | .a => 0
  | .b => 1
  | .c => 2
  | .x => 3
  | .y => 4
  | .z => 5
  | .i => 6
  | .j => 7

/-- The operand of a code in a position, `n` being its next word where it consumes one (R95). Bits 5:3 of the code
select the group, bits 2:0 the register or the member of the last group. -/
def operandOf (p : Pos) (code : BitVec 6) (n : Word) : Operand :=
  match (code.extractLsb' 3 3).toNat with
  | 0 => .reg (.ofNum (code.extractLsb' 0 3))
  | 1 => .regInd (.ofNum (code.extractLsb' 0 3))
  | 2 => .regOff (.ofNum (code.extractLsb' 0 3)) n
  | 3 =>
    match (code.extractLsb' 0 3).toNat with
    | 0 => (match p with | .a => .pop | .b => .push)
    | 1 => .peek
    | 2 => .pick n
    | 3 => .sp
    | 4 => .pc
    | 5 => .ex
    | 6 => .memAt n
    | _ => .lit n
  | _ => .short (code.extractLsb' 0 5)

/-- The basic instruction of an opcode (R100, R101); opcode 0 selects the special format and gives none. -/
def basicInstr (o : BitVec 5) (b a : Operand) : Option Instr :=
  match o.toNat with
  | 0x01 => some (.set b a)
  | 0x02 => some (.add b a)
  | 0x03 => some (.sub b a)
  | 0x04 => some (.mul b a)
  | 0x05 => some (.mli b a)
  | 0x06 => some (.div b a)
  | 0x07 => some (.dvi b a)
  | 0x08 => some (.mod b a)
  | 0x09 => some (.mdi b a)
  | 0x0A => some (.and b a)
  | 0x0B => some (.bor b a)
  | 0x0C => some (.xor b a)
  | 0x0D => some (.shr b a)
  | 0x0E => some (.asr b a)
  | 0x0F => some (.shl b a)
  | 0x10 => some (.ifb b a)
  | 0x11 => some (.ifc b a)
  | 0x12 => some (.ife b a)
  | 0x13 => some (.ifn b a)
  | 0x14 => some (.ifg b a)
  | 0x15 => some (.ifa b a)
  | 0x16 => some (.ifl b a)
  | 0x17 => some (.ifu b a)
  | 0x18 => some (.unassignedBasic18 b a)
  | 0x19 => some (.unassignedBasic19 b a)
  | 0x1A => some (.adx b a)
  | 0x1B => some (.sbx b a)
  | 0x1C => some (.unassignedBasic1C b a)
  | 0x1D => some (.unassignedBasic1D b a)
  | 0x1E => some (.sti b a)
  | 0x1F => some (.std b a)
  | _ => none

/-- The special instruction of an opcode (R102 to R104): all 32 numbers have a row. -/
def specialInstr (s : BitVec 5) (a : Operand) : Instr :=
  match s.toNat with
  | 0x00 => .halt0 a
  | 0x01 => .jsr a
  | 0x02 => .brk a
  | 0x03 => .unassignedSpecial03 a
  | 0x04 => .unassignedSpecial04 a
  | 0x05 => .unassignedSpecial05 a
  | 0x06 => .unassignedSpecial06 a
  | 0x07 => .hcf a
  | 0x08 => .int a
  | 0x09 => .iag a
  | 0x0A => .ias a
  | 0x0B => .rfi a
  | 0x0C => .iaq a
  | 0x0D => .unassignedSpecial0D a
  | 0x0E => .unassignedSpecial0E a
  | 0x0F => .unassignedSpecial0F a
  | 0x10 => .hwn a
  | 0x11 => .hwq a
  | 0x12 => .hwi a
  | 0x13 => .unassignedSpecial13 a
  | 0x14 => .unassignedSpecial14 a
  | 0x15 => .unassignedSpecial15 a
  | 0x16 => .unassignedSpecial16 a
  | 0x17 => .unassignedSpecial17 a
  | 0x18 => .unassignedSpecial18 a
  | 0x19 => .unassignedSpecial19 a
  | 0x1A => .unassignedSpecial1A a
  | 0x1B => .unassignedSpecial1B a
  | 0x1C => .unassignedSpecial1C a
  | 0x1D => .unassignedSpecial1D a
  | 0x1E => .unassignedSpecial1E a
  | _ => .unassignedSpecial1F a

/-- The next word of an operand code: the head of the words where the code consumes one, else none is taken (R119). -/
def takeNext (code : BitVec 6) (e : DecodeError) (ws : List Word) : Except DecodeError (Word × List Word) :=
  if consumesNext code then
    match ws with
    | [] => .error e
    | n :: rest => .ok (n, rest)
  else .ok (0, ws)

/-- Decodes the instruction at the head of a list of words and returns it with the words after it: the instruction
word, then the next word of `a`, then the next word of `b` (R91 to R93, R119). -/
def decode : List Word → Except DecodeError (Instr × List Word)
  | [] => .error .noWord
  | w :: ws =>
    match takeNext (fieldA w) .missingNextWordA ws with
    | .error e => .error e
    | .ok (na, ws) =>
      if fieldO w = 0 then
        .ok (specialInstr (fieldB w) (operandOf .a (fieldA w) na), ws)
      else
        match takeNext (codeOfB (fieldB w)) .missingNextWordB ws with
        | .error e => .error e
        | .ok (nb, ws) =>
          match basicInstr (fieldO w) (operandOf .b (codeOfB (fieldB w)) nb) (operandOf .a (fieldA w) na) with
          | some i => .ok (i, ws)
          | none => .error .zeroOpcode

/-- How many words follow the instruction word, from the word alone (R94). -/
def extraWords (w : Word) : Nat :=
  (if consumesNext (fieldA w) then 1 else 0) +
    (if fieldO w ≠ 0 && consumesNext (codeOfB (fieldB w)) then 1 else 0)

/-! ### The encoder -/

/-- The code of an operand (R95, R111); PUSH and POP share 0x18. -/
def Operand.code : Operand → BitVec 6
  | .reg r => (0 : BitVec 3) ++ r.num
  | .regInd r => (1 : BitVec 3) ++ r.num
  | .regOff r _ => (2 : BitVec 3) ++ r.num
  | .pop => 0x18
  | .push => 0x18
  | .peek => 0x19
  | .pick _ => 0x1A
  | .sp => 0x1B
  | .pc => 0x1C
  | .ex => 0x1D
  | .memAt _ => 0x1E
  | .lit _ => 0x1F
  | .short k => (1 : BitVec 1) ++ k

/-- The next word of an operand, none or one (R95, R111). -/
def Operand.next : Operand → List Word
  | .regOff _ n => [n]
  | .pick n => [n]
  | .memAt n => [n]
  | .lit n => [n]
  | _ => []

/-- The opcode number and the operands of an instruction (R100 to R104). -/
def Instr.shape : Instr → Shape
  | .set b a => .basic 0x01 b a
  | .add b a => .basic 0x02 b a
  | .sub b a => .basic 0x03 b a
  | .mul b a => .basic 0x04 b a
  | .mli b a => .basic 0x05 b a
  | .div b a => .basic 0x06 b a
  | .dvi b a => .basic 0x07 b a
  | .mod b a => .basic 0x08 b a
  | .mdi b a => .basic 0x09 b a
  | .and b a => .basic 0x0A b a
  | .bor b a => .basic 0x0B b a
  | .xor b a => .basic 0x0C b a
  | .shr b a => .basic 0x0D b a
  | .asr b a => .basic 0x0E b a
  | .shl b a => .basic 0x0F b a
  | .ifb b a => .basic 0x10 b a
  | .ifc b a => .basic 0x11 b a
  | .ife b a => .basic 0x12 b a
  | .ifn b a => .basic 0x13 b a
  | .ifg b a => .basic 0x14 b a
  | .ifa b a => .basic 0x15 b a
  | .ifl b a => .basic 0x16 b a
  | .ifu b a => .basic 0x17 b a
  | .unassignedBasic18 b a => .basic 0x18 b a
  | .unassignedBasic19 b a => .basic 0x19 b a
  | .adx b a => .basic 0x1A b a
  | .sbx b a => .basic 0x1B b a
  | .unassignedBasic1C b a => .basic 0x1C b a
  | .unassignedBasic1D b a => .basic 0x1D b a
  | .sti b a => .basic 0x1E b a
  | .std b a => .basic 0x1F b a
  | .halt0 a => .special 0x00 a
  | .jsr a => .special 0x01 a
  | .brk a => .special 0x02 a
  | .unassignedSpecial03 a => .special 0x03 a
  | .unassignedSpecial04 a => .special 0x04 a
  | .unassignedSpecial05 a => .special 0x05 a
  | .unassignedSpecial06 a => .special 0x06 a
  | .hcf a => .special 0x07 a
  | .int a => .special 0x08 a
  | .iag a => .special 0x09 a
  | .ias a => .special 0x0A a
  | .rfi a => .special 0x0B a
  | .iaq a => .special 0x0C a
  | .unassignedSpecial0D a => .special 0x0D a
  | .unassignedSpecial0E a => .special 0x0E a
  | .unassignedSpecial0F a => .special 0x0F a
  | .hwn a => .special 0x10 a
  | .hwq a => .special 0x11 a
  | .hwi a => .special 0x12 a
  | .unassignedSpecial13 a => .special 0x13 a
  | .unassignedSpecial14 a => .special 0x14 a
  | .unassignedSpecial15 a => .special 0x15 a
  | .unassignedSpecial16 a => .special 0x16 a
  | .unassignedSpecial17 a => .special 0x17 a
  | .unassignedSpecial18 a => .special 0x18 a
  | .unassignedSpecial19 a => .special 0x19 a
  | .unassignedSpecial1A a => .special 0x1A a
  | .unassignedSpecial1B a => .special 0x1B a
  | .unassignedSpecial1C a => .special 0x1C a
  | .unassignedSpecial1D a => .special 0x1D a
  | .unassignedSpecial1E a => .special 0x1E a
  | .unassignedSpecial1F a => .special 0x1F a

/-- The words of a shape: the instruction word, the next word of `a`, the next word of `b` (R93, R113, R114). -/
def Shape.words : Shape → List Word
  | .basic o b a => basicWord a.code (b.code.setWidth 5) o :: (a.next ++ b.next)
  | .special s a => specialWord a.code s :: a.next

/-- The encoder: the words of an instruction (R110). -/
def encode (i : Instr) : List Word := i.shape.words

/-! ### Operand forms of the encoder (R111 to R117) -/

/-- A number that a word must hold (R112, R117). -/
def asmWord (n : Int) : Except AsmError Word :=
  if 0 ≤ n && n ≤ 0xFFFF then .ok (BitVec.ofInt 16 n) else .error .outOfRange

/-- Packing of a bare numeric literal: short when it is the `a` operand and its value is -1..30, -1 being written
0xFFFF; a next word otherwise (R112, decision D24). -/
def packLiteral (p : Pos) (v : Word) : Operand :=
  match p with
  | .b => .lit v
  | .a => if v = 0xFFFF then .short 0 else if v.toNat ≤ 30 then .short (BitVec.ofNat 5 (v.toNat + 1)) else .lit v

/-- The operand that an operand form is packed as (R111). Either keyword of code 0x18 takes the meaning of its position. -/
def asmOperand (p : Pos) : AsmArg → Except AsmError Operand
  | .reg r => .ok (.reg r)
  | .regInd r => .ok (.regInd r)
  | .regOff r n => (asmWord n).map (.regOff r)
  | .pop => .ok (match p with | .a => .pop | .b => .push)
  | .push => .ok (match p with | .a => .pop | .b => .push)
  | .peek => .ok .peek
  | .spInd => .ok .peek
  | .spOff n => (asmWord n).map .pick
  | .sp => .ok .sp
  | .pc => .ok .pc
  | .ex => .ok .ex
  | .ind n => (asmWord n).map .memAt
  | .num n => (asmWord n).map (packLiteral p)
  | .char c => .ok (.lit c)
  | .label addr => .ok (.lit addr)
  | .labelInd addr => .ok (.memAt addr)
  | .labelReg r addr => .ok (.regOff r addr)
  | .labelSp addr => .ok (.pick addr)
  | .pcInd => .error .noCode
  | .exInd => .error .noCode
  | .pcOff _ => .error .noCode
  | .exOff _ => .error .noCode

/-- `OP first, second`: the first argument is `b`, the second `a` (R113). -/
def asmBasic (o : BitVec 5) : List AsmArg → Except AsmError Shape
  | [first, second] =>
    match asmOperand .b first, asmOperand .a second with
    | .ok b, .ok a => .ok (.basic o b a)
    | .error e, _ => .error e
    | _, .error e => .error e
  | _ => .error .operandCount

/-- `OP arg` (R114). -/
def asmSpecial (s : BitVec 5) : List AsmArg → Except AsmError Shape
  | [arg] => (asmOperand .a arg).map (.special s)
  | _ => .error .operandCount

/-- An operandless special instruction is packed with `a` code 0x00 (R115, decision D24). -/
def asmBare (s : BitVec 5) : List AsmArg → Except AsmError Shape
  | [] => .ok (.special s (.reg .a))
  | _ => .error .operandCount

/-- The word encoder of an instruction line: its mnemonic and its operand forms in the order of the text
(R100, R102, R113 to R115, R117). -/
def asmShape (mnemonic : String) (args : List AsmArg) : Except AsmError Shape :=
  match mnemonic with
  | "SET" => asmBasic 0x01 args
  | "ADD" => asmBasic 0x02 args
  | "SUB" => asmBasic 0x03 args
  | "MUL" => asmBasic 0x04 args
  | "MLI" => asmBasic 0x05 args
  | "DIV" => asmBasic 0x06 args
  | "DVI" => asmBasic 0x07 args
  | "MOD" => asmBasic 0x08 args
  | "MDI" => asmBasic 0x09 args
  | "AND" => asmBasic 0x0A args
  | "BOR" => asmBasic 0x0B args
  | "XOR" => asmBasic 0x0C args
  | "SHR" => asmBasic 0x0D args
  | "ASR" => asmBasic 0x0E args
  | "SHL" => asmBasic 0x0F args
  | "IFB" => asmBasic 0x10 args
  | "IFC" => asmBasic 0x11 args
  | "IFE" => asmBasic 0x12 args
  | "IFN" => asmBasic 0x13 args
  | "IFG" => asmBasic 0x14 args
  | "IFA" => asmBasic 0x15 args
  | "IFL" => asmBasic 0x16 args
  | "IFU" => asmBasic 0x17 args
  | "ADX" => asmBasic 0x1A args
  | "SBX" => asmBasic 0x1B args
  | "STI" => asmBasic 0x1E args
  | "STD" => asmBasic 0x1F args
  | "JSR" => asmSpecial 0x01 args
  | "BRK" => asmBare 0x02 args
  | "HCF" => asmSpecial 0x07 args
  | "INT" => asmSpecial 0x08 args
  | "IAG" => asmSpecial 0x09 args
  | "IAS" => asmSpecial 0x0A args
  | "RFI" => asmSpecial 0x0B args
  | "IAQ" => asmSpecial 0x0C args
  | "HWN" => asmSpecial 0x10 args
  | "HWQ" => asmSpecial 0x11 args
  | "HWI" => asmSpecial 0x12 args
  | _ => .error .unknownMnemonic

/-- The words an instruction line is packed into; none when it has an error (R113, R114, R117). -/
def assemble (mnemonic : String) (args : List AsmArg) : Except AsmError (List Word) :=
  (asmShape mnemonic args).map Shape.words

/-! ### The opcode numbers of a machine: `OPMAP`, `OP_BRK`, `OP_HCF` (spec/00_scope.md R6; log 2) -/

/-- One exchange of two opcode numbers. Numbers below `fixed` are stated by the source and stay where they are. -/
def exchange (fixed : Nat) (p : BitVec 5 × BitVec 5) (n : BitVec 5) : BitVec 5 :=
  if p.1.toNat < fixed || p.2.toNat < fixed then n
  else if n = p.1 then p.2
  else if n = p.2 then p.1
  else n

/-- The row of the default table that a number stands for. -/
def rowOf (fixed : Nat) (ps : List (BitVec 5 × BitVec 5)) (n : BitVec 5) : BitVec 5 :=
  ps.foldl (fun n p => exchange fixed p n) n

/-- The number of a row of the default table. -/
def numberOf (fixed : Nat) (ps : List (BitVec 5 × BitVec 5)) (n : BitVec 5) : BitVec 5 :=
  ps.foldr (exchange fixed) n

/-- The basic row of a number: 0 selects the special format (R92) and 1 is SET (R100), in every table. -/
def Config.OpMap.rowO (m : Config.OpMap) (n : BitVec 5) : BitVec 5 := rowOf 2 m.basic n

/-- The number of a basic row. -/
def Config.OpMap.numberO (m : Config.OpMap) (o : BitVec 5) : BitVec 5 := numberOf 2 m.basic o

/-- The special row of a number: 0 halts (R104), in every table. -/
def Config.OpMap.rowS (m : Config.OpMap) (n : BitVec 5) : BitVec 5 := rowOf 1 m.special n

/-- The number of a special row. -/
def Config.OpMap.numberS (m : Config.OpMap) (s : BitVec 5) : BitVec 5 := numberOf 1 m.special s

/-- `OP_BRK`, the number of BRK (R102, decision D2). -/
def Config.OpMap.opBrk (m : Config.OpMap) : BitVec 5 := m.numberS 0x02

/-- `OP_HCF`, the number of HCF (R102, decision D3). -/
def Config.OpMap.opHcf (m : Config.OpMap) : BitVec 5 := m.numberS 0x07

/-- The default table with another `OP_BRK` and another `OP_HCF`, two different numbers but 0 (spec/90_conflicts.md C2). -/
def Config.OpMap.withHalts (brk hcf : BitVec 5) : Config.OpMap :=
  { Config.defaultOpMap with special := [(if brk = 0x07 then 0x02 else 0x07, hcf), (0x02, brk)] }

/-- The instruction word with the number of its opcode replaced: a basic one by `fo`, a special one by `fs`. -/
def renumber (fo fs : BitVec 5 → BitVec 5) (w : Word) : Word :=
  if fieldO w = 0 then specialWord (fieldA w) (fs (fieldB w)) else basicWord (fieldA w) (fieldB w) (fo (fieldO w))

/-- The instruction word of the default table that means what this word means in the machine's table. -/
def Config.OpMap.toTable (m : Config.OpMap) (w : Word) : Word := renumber m.rowO m.rowS w

/-- The instruction word of the machine's table that means what this word means in the default table. -/
def Config.OpMap.ofTable (m : Config.OpMap) (w : Word) : Word := renumber m.numberO m.numberS w

/-- Changes the first word of an instruction, its instruction word. -/
def onHead (f : Word → Word) : List Word → List Word
  | [] => []
  | w :: ws => f w :: ws

/-- The decoder of a machine (R91 to R93, R100, R102, R119). -/
def decodeFor (m : Config.OpMap) (ws : List Word) : Except DecodeError (Instr × List Word) :=
  decode (onHead m.toTable ws)

/-- The encoder of a machine (R110): it uses the one opcode table that the decoder uses. -/
def encodeFor (m : Config.OpMap) (i : Instr) : List Word := onHead m.ofTable (encode i)

/-- The words an instruction line is packed into for a machine (R110, R113, R114, R117). -/
def assembleFor (m : Config.OpMap) (mnemonic : String) (args : List AsmArg) : Except AsmError (List Word) :=
  (assemble mnemonic args).map (onHead m.ofTable)

/-- The row of the default table that an instruction is (R100 to R104). -/
def Instr.opcode (i : Instr) : Opcode :=
  match i.shape with
  | .basic o _ _ => .basic o
  | .special s _ => .special s

/-! ### The words of a table row -/

/-- The words whose bits are `w`, the first word in bits 15..0, every bit from `nbits` on being 0: as many as the
longest instruction has (R90). -/
def tableWords (nbits w : Nat) : List Word :=
  let v := w % 2 ^ nbits
  [BitVec.ofNat 16 v, BitVec.ofNat 16 (v / 65536), BitVec.ofNat 16 (v / 4294967296)]

/-- The instruction that the decoder reads from an instruction whose bits are `w`. -/
def decodeTableWord (nbits w : Nat) : Option Instr :=
  match decode (tableWords nbits w) with
  | .ok (i, _) => some i
  | .error _ => none

end Sys2Proof
end

