-- ==== Sys2Proof/Machine/State.lean ====
section
/-! DEFINITION. The state of the machine: everything that spec/10_state.md gives it, the parameters of
spec/00_scope.md R6, and four fields of the model's own (`skipping`, `agenda`, `envTick`, `endEvents`; logs 17, 12, 11
and 21).
The reasons a step can stop, and the state after reset. -/

namespace Sys2Proof.Machine

/-- The eight general registers (spec/10_state.md R20). -/
structure Regs where
  a : Word
  b : Word
  c : Word
  x : Word
  y : Word
  z : Word
  i : Word
  j : Word
  deriving DecidableEq, Repr

/-- One word of memory at an address. The spec's smallest unit is the word (spec/20_memory.md R61; log 1). -/
abbrev Cell := Nat × Word

/-- Memory (spec/10_state.md R41): the cells whose word is not zero, addresses strictly rising; every other address
reads as zero, the reset contents. `Memory.wf` says the form. -/
abbrev Memory := List Cell

/-- Run states (spec/10_state.md R40). The two fault states are what the outcomes `Fault.decodeFault` and
`Fault.onFire` leave; no step of the model goes on from one (log 20). -/
inductive RunState where
  | running
  | stopped
  | paused
  | faultDecode
  | faultFire
  deriving DecidableEq, Repr

/-- A device descriptor (spec/47_hardware_instructions.md R293). -/
structure Device where
  ident        : Ident
  manufacturer : Ident
  version      : Word
  /-- Whether the device exposes `onInterrupt`. -/
  hasHandler   : Bool
  deriving DecidableEq, Repr

/-- A memory hook: base address, length, and the number of its callback (spec/20_memory.md R66; log 8). -/
structure Hook where
  base     : Word
  length   : Nat
  callback : Nat
  deriving DecidableEq, Repr

/-- What a device may do to the CPU through its access surface, between steps or inside an HWI handler
(spec/60_exceptions.md R316, R328, R329, R331). Reading a register has no effect and needs no action. -/
inductive DeviceAction where
  | setReg (r : RegName) (v : Word)
  | setMem (addr v : Word)
  | getMem (addr : Word)
  | irq (msg : Word)
  | onGet (h : Hook)
  | onSet (h : Hook)
  | resume
  deriving DecidableEq, Repr

/-- What the host or a device may do between steps (spec/70_reset_and_hazards.md R350 to R354;
spec/60_exceptions.md R329). Registering a device is one of the host's actions between steps and of no instruction, so an
HWI handler has no such action (R325). -/
inductive HostAction where
  | act (d : DeviceAction)
  | addDevice (d : Device)
  | clear
  | load (words : List Word) (origin : Word)
  | start
  | stop
  deriving DecidableEq, Repr

/-- The machine. -/
@[ext]
structure State where
  /-- General registers (R20). -/
  regs       : Regs
  /-- Program counter (R21). -/
  pc         : Word
  /-- Stack pointer (R22). -/
  sp         : Word
  /-- Overflow, carry and remainder bits (R23). -/
  ex         : Word
  /-- Interrupt handler address; zero means none (R24). -/
  ia         : Word
  /-- Queueing flag; false is the delivering state (R25). -/
  queueing   : Bool
  /-- Interrupt queue, its head first (R26). -/
  iq         : List Word
  /-- Cycle counter (R27). -/
  cycle      : Nat
  /-- Run state (R40). -/
  run        : RunState
  /-- Memory (R41). -/
  mem        : Memory
  /-- Device registry; a device's index is its position (R42). -/
  devices    : List Device
  /-- Read hooks in registration order (R43). -/
  readHooks  : List Hook
  /-- Write hooks in registration order (R43). -/
  writeHooks : List Hook
  /-- Parameters of the model (spec/00_scope.md R6; log 4). -/
  params     : Config.Params
  /-- MODEL's own: a failing conditional's `Skip()` is in progress, and the next step goes on with it (log 17). -/
  skipping   : Bool
  /-- MODEL's own: what the host and the devices do before each of the coming steps (log 12). -/
  agenda     : List (List HostAction)
  /-- MODEL's own: how many device callbacks have been called; it feeds the free values (log 11). -/
  envTick    : Nat
  /-- MODEL's own: how many end notifications the host has been sent (log 21). -/
  endEvents  : Nat
  deriving DecidableEq, Repr

/-- The reasons a step stops the machine. -/
inductive Fault where
  /-- Raised by executing an opcode with no table entry, carrying the instruction word: the fatal `DecodeFault`, which
  leaves run state FAULT_DECODE (spec/60_exceptions.md R320). Safe: the spec gives the state after it no meaning. -/
  | decodeFault (word : Word)
  /-- Raised by `Interrupt(msg)` with 256 messages queued: the fatal `OnFire`, which leaves run state FAULT_FIRE
  (spec/60_exceptions.md R321). Safe: the spec gives the state after it no meaning. -/
  | onFire
  deriving DecidableEq, Repr

/-- The reasons the model gives a step no meaning. -/
inductive Refusal where
  /-- Raised by `exec` for an instruction that has no meaning yet. Safe: nothing can be concluded about it. -/
  | notModelled (mnemonic : String)
  /-- Would be raised by a step whose words are no instruction; the decoder is total on words, so none is. Safe. -/
  | undecodable (e : DecodeError)
  /-- Raised by a load that does not fit below 0x10000 (spec/70_reset_and_hazards.md R352). Safe. -/
  | loadDoesNotFit
  /-- Raised by the registration of a hook whose range passes 0xFFFF (spec/20_memory.md R66). Safe. -/
  | hookWraps
  deriving DecidableEq, Repr

/-- The outcomes of a step of this machine. -/
abbrev Outcome := Host.Outcome State Fault Refusal

/-- The machine right after reset (spec/10_state.md R45; spec/70_reset_and_hazards.md R350, R351), with the parameters
of spec/00_scope.md R6 at their defaults. -/
def State.reset : State :=
  { regs := { a := 0, b := 0, c := 0, x := 0, y := 0, z := 0, i := 0, j := 0 }
    pc := 0, sp := 0, ex := 0, ia := 0
    queueing := false, iq := [], cycle := 0, run := .stopped, mem := []
    devices := [], readHooks := [], writeHooks := [], params := Config.defaultParams
    skipping := false, agenda := [], envTick := 0, endEvents := 0 }

end Sys2Proof.Machine
end

