-- ==== Sys2Proof/Machine/Ops.lean ====
section
/-! DEFINITION. The named operations over memory, registers, the stack and the interrupt controller: the primitives of
spec/00_scope.md R8, the memory port of spec/20_memory.md R64 and R65, interrupt entry and return of
spec/60_exceptions.md R313 to R318, and the reset operation of spec/70_reset_and_hazards.md R350. -/

namespace Sys2Proof.Machine

/-! ### Raw memory -/

/-- What an address that no cell lists reads as: zero, the reset contents (spec/10_state.md R41). -/
def Memory.unlisted : Word := 0

/-- The word at an address of the raw array. -/
def Memory.read : Memory → Word → Word
  | [], _ => Memory.unlisted
  | (k, v) :: rest, addr => if k = addr.toNat then v else Memory.read rest addr

/-- Lists a word at a key, keeping the keys rising. -/
def Memory.put : Memory → Nat → Word → Memory
  | [], k, v => [(k, v)]
  | (k', v') :: rest, k, v =>
    if k < k' then (k, v) :: (k', v') :: rest
    else if k = k' then (k, v) :: rest
    else (k', v') :: Memory.put rest k v

/-- Takes a key off the list. -/
def Memory.erase : Memory → Nat → Memory
  | [], _ => []
  | (k', v') :: rest, k => if k = k' then rest else (k', v') :: Memory.erase rest k

/-- Writes one word of the raw array, keeping the canonical form. -/
def Memory.write (m : Memory) (addr v : Word) : Memory :=
  if v = Memory.unlisted then m.erase addr.toNat else m.put addr.toNat v

/-- The canonical form from a key on: keys strictly rising and below 65536, no cell equal to what an unlisted address
reads as. -/
def Memory.wfFrom : Nat → Memory → Bool
  | _, [] => true
  | lo, (k, v) :: rest =>
    decide (lo ≤ k) && decide (k < Config.memSize) && decide (v ≠ Memory.unlisted) && Memory.wfFrom (k + 1) rest

/-- The canonical form of memory. -/
def Memory.wf (m : Memory) : Bool := Memory.wfFrom 0 m

/-- Writes words at an address and the ones after it, modulo 65536. -/
def Memory.writeList : Memory → Word → List Word → Memory
  | m, _, [] => m
  | m, addr, v :: vs => Memory.writeList (m.write addr v) (addr + 1) vs

/-! ### Registers -/

/-- Reads a general register (R20). -/
def Regs.get (g : Regs) : GReg → Word
  | .a => g.a
  | .b => g.b
  | .c => g.c
  | .x => g.x
  | .y => g.y
  | .z => g.z
  | .i => g.i
  | .j => g.j

/-- Writes a general register (R20). -/
def Regs.set (g : Regs) (r : GReg) (v : Word) : Regs :=
  match r with
  | .a => { g with a := v }
  | .b => { g with b := v }
  | .c => { g with c := v }
  | .x => { g with x := v }
  | .y => { g with y := v }
  | .z => { g with z := v }
  | .i => { g with i := v }
  | .j => { g with j := v }

/-- Reads a named register (spec/60_exceptions.md R329). -/
def State.getReg (s : State) : RegName → Word
  | .gen r => s.regs.get r
  | .sp => s.sp
  | .pc => s.pc
  | .ex => s.ex
  | .ia => s.ia

/-- Writes a named register (spec/60_exceptions.md R329). -/
def State.setReg (s : State) (r : RegName) (v : Word) : State :=
  match r with
  | .gen r => { s with regs := s.regs.set r v }
  | .sp => { s with sp := v }
  | .pc => { s with pc := v }
  | .ex => { s with ex := v }
  | .ia => { s with ia := v }

/-- Advances the cycle counter (spec/10_state.md R27). -/
def State.addCycles (s : State) (n : Nat) : State := { s with cycle := s.cycle + n }

/-! ### The memory port -/

/-- Whether a hook's range holds an address (spec/20_memory.md R64, R66). -/
def Hook.covers (h : Hook) (addr : Word) : Bool :=
  decide (h.base.toNat ≤ addr.toNat) && decide (addr.toNat < h.base.toNat + h.length)

/-- The address as the callback receives it: its offset within the range (R64). -/
def Hook.offset (h : Hook) (addr : Word) : Nat := addr.toNat - h.base.toNat

/-- Whether a hook's range ends at or below 0xFFFF; one that wraps is refused (R66). -/
def Hook.fits (h : Hook) : Bool := decide (h.base.toNat + h.length ≤ Config.memSize)

/-- Asks the read hooks in registration order; the first defined value wins and is masked to 16 bits (R64,
decision D21). Also gives the number of the next callback call. -/
def askReadHooks : List Hook → Word → Nat → Option Word × Nat
  | [], _, t => (none, t)
  | h :: hs, addr, t =>
    if h.covers addr then
      match Config.readHookReply h.callback (h.offset addr) t with
      | some r => (some (BitVec.ofInt 16 r), t + 1)
      | none => askReadHooks hs addr (t + 1)
    else askReadHooks hs addr t

/-- Asks the write hooks in registration order until one signals that it handled the write (R65, decision D21). -/
def askWriteHooks : List Hook → Word → Word → Nat → Bool × Nat
  | [], _, _, t => (false, t)
  | h :: hs, addr, v, t =>
    if h.covers addr then
      if Config.writeHookHandled h.callback (h.offset addr) v t then (true, t + 1)
      else askWriteHooks hs addr v (t + 1)
    else askWriteHooks hs addr v t

/-- `MemRead(addr, 1)` (R64): the word, and the state with the callbacks counted. -/
def memRead (addr : Word) (s : State) : Word × State :=
  let r := askReadHooks s.readHooks addr s.envTick
  (r.1.getD (s.mem.read addr), { s with envTick := r.2 })

/-- `MemWrite(addr, 1, v)` (R65): a handled write leaves raw memory alone. -/
def memWrite (addr v : Word) (s : State) : State :=
  let r := askWriteHooks s.writeHooks addr v s.envTick
  if r.1 then { s with envTick := r.2 }
  else { s with mem := s.mem.write addr v, envTick := r.2 }

/-- The read of an instruction word or a next word: through the hooks when `FETCH_VIA_HOOKS` says so (R64). -/
def fetchRead (addr : Word) (s : State) : Word × State :=
  if s.params.fetchViaHooks then memRead addr s else (s.mem.read addr, s)

/-! ### The stack -/

/-- `Push(v)` (spec/40_operand_resolution.md R148). -/
def push (v : Word) (s : State) : State := memWrite (s.sp - 1) v { s with sp := s.sp - 1 }

/-- `Pop()` (spec/40_operand_resolution.md R149). -/
def pop (s : State) : Word × State :=
  let r := memRead s.sp s
  (r.1, { r.2 with sp := s.sp + 1 })

/-! ### The interrupt controller -/

/-- `Trigger(msg)`, interrupt entry (spec/60_exceptions.md R314): with IA = 0 the message is dropped; else PC and then A
are pushed, PC takes IA, A takes the message, and the controller is queueing. -/
def trigger (msg : Word) (s : State) : State :=
  if s.ia = 0 then s
  else
    let t := push s.regs.a (push s.pc s)
    { t with pc := s.ia, regs := t.regs.set .a msg, queueing := true }

/-- `Interrupt(msg)`, trigger or enqueue (R313); the 257th queued message is the fatal `OnFire` (R321). -/
def interrupt (msg : Word) (s : State) : Outcome :=
  if s.queueing then
    if Config.iqMax ≤ s.iq.length then .fault .onFire
    else .next { s with iq := s.iq ++ [msg] }
  else .next (trigger msg s)

/-- Start-of-step delivery of at most one queued message (R315). -/
def deliverQueued (s : State) : State :=
  if s.queueing then s
  else
    match s.iq with
    | [] => s
    | msg :: rest => trigger msg { s with iq := rest }

/-- Return from an interrupt (spec/46_interrupt_instructions.md R273): delivery resumes, A and then PC are popped. -/
def returnFromInterrupt (s : State) : State :=
  let ra := pop { s with queueing := false }
  let rp := pop { ra.2 with regs := ra.2.regs.set .a ra.1 }
  { rp.2 with pc := rp.1 }

/-! ### Reset -/

/-- `clear()` (spec/70_reset_and_hazards.md R350): everything to its reset value; devices and hooks stay (R45), and so
do the parameters and the model's own fields. -/
def State.clear (s : State) : State :=
  { State.reset with
    devices := s.devices, readHooks := s.readHooks, writeHooks := s.writeHooks, params := s.params,
    agenda := s.agenda, envTick := s.envTick, endEvents := s.endEvents }

/-! ### Outcomes -/

/-- Goes on from a next state; a fault or a refusal ends the step. -/
def andThen (o : Outcome) (f : State → Outcome) : Outcome :=
  match o with
  | .next t => f t
  | .fault e => .fault e
  | .refused e => .refused e

end Sys2Proof.Machine
end

