-- ==== Sys2Proof/Machine/Devices.lean ====
section
/-! DEFINITION. The device bus and the agents outside the block, at their interface: the access surface, the HWI
handler, and what the host does between steps (spec/47_hardware_instructions.md; spec/60_exceptions.md R316, R325 to
R331; spec/70_reset_and_hazards.md R350 to R354). What a device does is a free value. -/

namespace Sys2Proof.Machine

/-- What a device reads of the CPU through `get`: the named registers and the memory words
(spec/60_exceptions.md R329). -/
structure CpuView where
  regs : Regs
  pc   : Word
  sp   : Word
  ex   : Word
  ia   : Word
  mem  : Memory
  deriving DecidableEq, Repr

/-- The view of a state. -/
def State.view (s : State) : CpuView :=
  { regs := s.regs, pc := s.pc, sp := s.sp, ex := s.ex, ia := s.ia, mem := s.mem }

end Sys2Proof.Machine

namespace Sys2Proof.Config

/-- FREE VALUE (log 10): what the handler of the device with this index does through its access surface when an HWI
invokes it at this view of the CPU, as the `tick`-th call of any callback (spec/47_hardware_instructions.md R292). -/
opaque deviceActions (index : Nat) (view : Machine.CpuView) (tick : Nat) : List Machine.DeviceAction

/-- FREE VALUE (log 10): whether that handler then asks the CPU to pause (R292). -/
opaque devicePauses (index : Nat) (view : Machine.CpuView) (tick : Nat) : Bool

/-- FREE VALUE (log 10): how many cycles of its own the device adds to that HWI (R292; spec/41_step_cycle.md R166). -/
opaque deviceCycles (index : Nat) (view : Machine.CpuView) (tick : Nat) : Nat

end Sys2Proof.Config

namespace Sys2Proof.Machine

/-- `addDevice`: accepted only while fewer than 65536 devices are registered (spec/60_exceptions.md R325; log 16). -/
def addDevice (d : Device) (s : State) : State :=
  if s.devices.length < Config.devMax then { s with devices := s.devices ++ [d] } else s

/-- The resume callback: a paused CPU runs again (spec/60_exceptions.md R331). -/
def resume (s : State) : State := if s.run = .paused then { s with run := .running } else s

/-- One action of a device (spec/60_exceptions.md R316, R328, R329, R331). A hook that wraps is refused
(spec/20_memory.md R66). -/
def deviceAct (d : DeviceAction) (s : State) : Outcome :=
  match d with
  | .setReg r v => .next (s.setReg r v)
  | .setMem addr v => .next (memWrite addr v s)
  | .getMem addr => .next (memRead addr s).2
  | .irq msg => interrupt msg s
  | .onGet h => if h.fits then .next { s with readHooks := s.readHooks ++ [h] } else .refused .hookWraps
  | .onSet h => if h.fits then .next { s with writeHooks := s.writeHooks ++ [h] } else .refused .hookWraps
  | .resume => .next (resume s)

/-- Device actions one after another. -/
def deviceActs : List DeviceAction → State → Outcome
  | [], s => .next s
  | d :: ds, s => andThen (deviceAct d s) (deviceActs ds)

/-- Ends the call of a device's handler: its own cycles, and the pause if it asks for one (R292). -/
def endHandler (cycles : Nat) (pauses : Bool) (s : State) : State :=
  { s with cycle := s.cycle + cycles, run := if pauses then .paused else s.run }

/-- Invokes a device's handler inside the step of an HWI (R292). -/
def runHandler (index : Nat) (s : State) : Outcome :=
  andThen (deviceActs (Config.deviceActions index s.view s.envTick) { s with envTick := s.envTick + 1 }) fun t =>
    .next (endHandler (Config.deviceCycles index s.view s.envTick) (Config.devicePauses index s.view s.envTick) t)

/-- `load(words, origin)`: writes raw memory; refused when it does not fit (spec/70_reset_and_hazards.md R352; log 14). -/
def hostLoad (words : List Word) (origin : Word) (s : State) : Outcome :=
  if origin.toNat + words.length ≤ Config.memSize then .next { s with mem := s.mem.writeList origin words }
  else .refused .loadDoesNotFit

/-- Start: a stopped CPU runs, from where PC points (spec/70_reset_and_hazards.md R353; log 13). -/
def hostStart (s : State) : State := if s.run = .stopped then { s with run := .running } else s

/-- `stop()`: a running CPU stops, between steps (R353; log 13). -/
def hostStop (s : State) : State := if s.run = .running then { s with run := .stopped } else s

/-- One action of the host or of a device between steps. -/
def hostAct (h : HostAction) (s : State) : Outcome :=
  match h with
  | .act d => deviceAct d s
  | .addDevice d => .next (addDevice d s)
  | .clear => .next s.clear
  | .load words origin => hostLoad words origin s
  | .start => .next (hostStart s)
  | .stop => .next (hostStop s)

/-- Host actions one after another. -/
def hostActs : List HostAction → State → Outcome
  | [], s => .next s
  | h :: hs, s => andThen (hostAct h s) (hostActs hs)

/-- What arrives before the coming step is carried out and taken off the agenda (spec/41_step_cycle.md R169; log 12). -/
def arrivals (s : State) : Outcome :=
  match s.agenda with
  | [] => .next s
  | now :: later => hostActs now { s with agenda := later }

end Sys2Proof.Machine
end

