-- ==== Sys2Proof/Machine/Flags.lean ====
section
/-! DEFINITION. The arithmetic of the machine: each result and each EX value as the rule states it, on exact integers,
narrowed to 16 bits at the end (spec/00_scope.md R7; spec/42_set_arithmetic.md; spec/43_bitwise_shift.md;
spec/44_conditionals.md R232 to R239). `b` is the left operand, `a` the right one (R178). -/

namespace Sys2Proof.Machine

/-- `u16(n)`: n mod 65536 (R7). -/
def u16 (n : Int) : Word := BitVec.ofInt 16 n

/-- `s16(v)`: the two's-complement reading of a word (R7). -/
def s16 (v : Word) : Int := if v.toNat < 32768 then (v.toNat : Int) else (v.toNat : Int) - 65536

/-- The unsigned reading of a word, as an integer. -/
abbrev n16 (v : Word) : Int := (v.toNat : Int)

/-- A result and the EX value that goes with it (R179). -/
structure AluResult where
  value : Word
  ex    : Word
  deriving DecidableEq, Repr

/-- ADD (R181). -/
def addResult (b a : Word) : AluResult :=
  let sum := n16 b + n16 a
  { value := u16 sum, ex := if sum > 0xFFFF then 1 else 0 }

/-- SUB (R182). -/
def subResult (b a : Word) : AluResult :=
  let diff := n16 b - n16 a
  { value := u16 diff, ex := if diff < 0 then 0xFFFF else 0 }

/-- MUL (R183). -/
def mulResult (b a : Word) : AluResult :=
  let p := n16 b * n16 a
  { value := u16 p, ex := u16 (p / 65536) }

/-- MLI (R184): `p >> 16` is the floor of p / 65536. -/
def mliResult (b a : Word) : AluResult :=
  let p := s16 b * s16 a
  { value := u16 p, ex := u16 (p / 65536) }

/-- DIV (R185); the `div` of R7 on non-negative integers. -/
def divResult (b a : Word) : AluResult :=
  if a = 0 then { value := 0, ex := 0 }
  else { value := u16 (n16 b / n16 a), ex := u16 (n16 b * 65536 / n16 a) }

/-- The signed quotient, rounded as `DVI_ROUND` says (R7, R186). -/
def signedQuotient (r : Config.DviRound) (x y : Int) : Int :=
  match r with
  | .towardZero => x.tdiv y
  | .towardMinusInf => x.fdiv y

/-- DVI (R186). -/
def dviResult (r : Config.DviRound) (b a : Word) : AluResult :=
  if a = 0 then { value := 0, ex := 0 }
  else
    { value := u16 (signedQuotient r (s16 b) (s16 a))
      ex := u16 (signedQuotient r (s16 b * 65536) (s16 a)) }

/-- MOD (R187). -/
def modValue (b a : Word) : Word :=
  if a = 0 then 0 else u16 (n16 b % n16 a)

/-- MDI (R188): the remainder of the signed quotient, so that `sb = sa * q + r` (R192). -/
def mdiValue (r : Config.DviRound) (b a : Word) : Word :=
  if a = 0 then 0 else u16 (s16 b - s16 a * signedQuotient r (s16 b) (s16 a))

/-- ADX (R189): EX is the carry-in, an unsigned word. -/
def adxResult (b a ex : Word) : AluResult :=
  let sum := n16 b + n16 a + n16 ex
  { value := u16 sum, ex := if sum > 0xFFFF then 1 else 0 }

/-- SBX (R190): EX is added. -/
def sbxResult (b a ex : Word) : AluResult :=
  let r := n16 b - n16 a + n16 ex
  { value := u16 r, ex := if r < 0 then 0xFFFF else if r > 0xFFFF then 1 else 0 }

/-- `SHIFT_AMOUNT_FN` (R216). -/
def shiftCount (f : Config.ShiftAmount) (a : Word) : Nat :=
  match f with
  | .identity => a.toNat
  | .mod32 => a.toNat % 32

/-- SHR by n (R213): unsigned. -/
def shrResult (b : Word) (n : Nat) : AluResult :=
  { value := BitVec.ofNat 16 (b.toNat >>> n), ex := BitVec.ofNat 16 ((b.toNat * 65536) >>> n) }

/-- ASR by n (R214): `>>` of an integer is the floor of the division by 2^n (R7). -/
def asrResult (b : Word) (n : Nat) : AluResult :=
  { value := u16 (s16 b >>> n), ex := u16 ((s16 b * 65536) >>> n) }

/-- SHL by n (R215). -/
def shlResult (b : Word) (n : Nat) : AluResult :=
  let wide := b.toNat <<< n
  { value := BitVec.ofNat 16 wide, ex := BitVec.ofNat 16 (wide >>> 16) }

/-- AND (R210). -/
def andValue (b a : Word) : Word := b &&& a

/-- BOR (R211). -/
def borValue (b a : Word) : Word := b ||| a

/-- XOR (R212). -/
def xorValue (b a : Word) : Word := b ^^^ a

/-- IFB (R232). -/
def ifbHolds (b a : Word) : Bool := decide (b &&& a ≠ 0)

/-- IFC (R233). -/
def ifcHolds (b a : Word) : Bool := decide (b &&& a = 0)

/-- IFE (R234). -/
def ifeHolds (b a : Word) : Bool := decide (b = a)

/-- IFN (R235). -/
def ifnHolds (b a : Word) : Bool := decide (b ≠ a)

/-- IFG (R236): unsigned. -/
def ifgHolds (b a : Word) : Bool := decide (b.toNat > a.toNat)

/-- IFA (R237): signed. -/
def ifaHolds (b a : Word) : Bool := decide (s16 b > s16 a)

/-- IFL (R238): unsigned. -/
def iflHolds (b a : Word) : Bool := decide (b.toNat < a.toNat)

/-- IFU (R239): signed. -/
def ifuHolds (b a : Word) : Bool := decide (s16 b < s16 a)

end Sys2Proof.Machine
end

