-- ==== Sys2Proof/Machine/Operands.lean ====
section
/-! DEFINITION. Operand references: resolving every operand form, reading and writing a reference, and the operands of
an instruction as the step hands them to its rule (spec/40_operand_resolution.md; spec/41_step_cycle.md R160). The next
word of an operand stands in the operand (the fetch has consumed it, log 19). -/

namespace Sys2Proof.Machine

/-- An operand reference (spec/40_operand_resolution.md R130). -/
inductive Ref where
  | reg (r : RegName)
  | mem (addr : Word)
  | lit (v : Word)
  deriving DecidableEq, Repr

/-- The value of a short literal, code 0x20 + k: k - 1 in 16 bits (spec/40_operand_resolution.md R144). -/
def shortValue (k : BitVec 5) : Word := k.setWidth 16 - 1

/-- The reference of an operand, from the registers of the moment it is resolved
(spec/40_operand_resolution.md R132 to R144). Code 0x18 pops in position `a` and pushes in position `b`, whichever of
the two forms names it (R135, R136). -/
def refOf (p : Pos) (o : Operand) (s : State) : Ref :=
  match o with
  | .reg r => .reg (.gen r)
  | .regInd r => .mem (s.regs.get r)
  | .regOff r n => .mem (n + s.regs.get r)
  | .pop | .push =>
    match p with
    | .a => .mem s.sp
    | .b => .mem (s.sp - 1)
  | .peek => .mem s.sp
  | .pick n => .mem (n + s.sp)
  | .sp => .reg .sp
  | .pc => .reg .pc
  | .ex => .reg .ex
  | .memAt n => .mem n
  | .lit n => .lit n
  | .short k => .lit (shortValue k)

/-- Where resolving an operand leaves SP: one up for POP, one down for PUSH (R135, R136). -/
def spAfter (p : Pos) (o : Operand) (sp : Word) : Word :=
  match o with
  | .pop | .push =>
    match p with
    | .a => sp + 1
    | .b => sp - 1
  | _ => sp

/-- `Resolve(code, pos)` (R132 to R144). -/
def resolve (p : Pos) (o : Operand) (s : State) : Ref × State :=
  (refOf p o s, { s with sp := spAfter p o s.sp })

/-- `Get(ref)` (spec/40_operand_resolution.md R145). -/
def getRef (r : Ref) (s : State) : Word × State :=
  match r with
  | .reg n => (s.getReg n, s)
  | .mem addr => memRead addr s
  | .lit v => (v, s)

/-- `Set(ref, v)`; a literal is left alone (spec/40_operand_resolution.md R146). -/
def setRef (r : Ref) (v : Word) (s : State) : State :=
  match r with
  | .reg n => s.setReg n v
  | .mem addr => memWrite addr v s
  | .lit _ => s

/-- What a basic instruction's rule is given: its destination, both values, and the state they left. -/
structure BasicOperands where
  bref : Ref
  aval : Word
  bval : Word
  st   : State
  deriving DecidableEq, Repr

/-- Parts 3 to 5 of a basic step: `a` resolved, `b` resolved, the base cost added, `a` read, `b` read
(spec/41_step_cycle.md R160, R163, R164). -/
def basicOperands (cost : Nat) (b a : Operand) (s : State) : BasicOperands :=
  let ra := resolve .a a s
  let rb := resolve .b b ra.2
  let ga := getRef ra.1 (rb.2.addCycles cost)
  let gb := getRef rb.1 ga.2
  { bref := rb.1, aval := ga.1, bval := gb.1, st := gb.2 }

/-- What a special instruction's rule is given. -/
structure SpecialOperand where
  aref : Ref
  aval : Word
  st   : State
  deriving DecidableEq, Repr

/-- Parts 3 to 5 of a special step: `a` resolved, the base cost added, `a` read (R160). -/
def specialOperand (cost : Nat) (a : Operand) (s : State) : SpecialOperand :=
  let ra := resolve .a a s
  let ga := getRef ra.1 (ra.2.addCycles cost)
  { aref := ra.1, aval := ga.1, st := ga.2 }

end Sys2Proof.Machine
end

