-- ==== Sys2Proof/Machine/Timing.lean ====
section
/-! DEFINITION. The base cost of every instruction (spec/70_reset_and_hazards.md R368; the parameter `COST`, log 3). -/

namespace Sys2Proof.Machine

/-- The default of `COST` (R368); 0 for an opcode with no table entry. -/
def defaultCost : Instr → Nat
  | .set _ _ => 1
  | .add _ _ => 2
  | .sub _ _ => 2
  | .mul _ _ => 2
  | .mli _ _ => 2
  | .div _ _ => 3
  | .dvi _ _ => 3
  | .mod _ _ => 3
  | .mdi _ _ => 3
  | .and _ _ => 1
  | .bor _ _ => 1
  | .xor _ _ => 1
  | .shr _ _ => 1
  | .asr _ _ => 1
  | .shl _ _ => 1
  | .ifb _ _ => 2
  | .ifc _ _ => 2
  | .ife _ _ => 2
  | .ifn _ _ => 2
  | .ifg _ _ => 2
  | .ifa _ _ => 2
  | .ifl _ _ => 2
  | .ifu _ _ => 2
  | .adx _ _ => 3
  | .sbx _ _ => 3
  | .sti _ _ => 2
  | .std _ _ => 2
  | .unassignedBasic18 _ _ => 0
  | .unassignedBasic19 _ _ => 0
  | .unassignedBasic1C _ _ => 0
  | .unassignedBasic1D _ _ => 0
  | .halt0 _ => 0
  | .jsr _ => 3
  | .brk _ => 0
  | .hcf _ => 9
  | .int _ => 4
  | .iag _ => 1
  | .ias _ => 1
  | .rfi _ => 3
  | .iaq _ => 2
  | .hwn _ => 2
  | .hwq _ => 4
  | .hwi _ => 4
  | .unassignedSpecial03 _ => 0
  | .unassignedSpecial04 _ => 0
  | .unassignedSpecial05 _ => 0
  | .unassignedSpecial06 _ => 0
  | .unassignedSpecial0D _ => 0
  | .unassignedSpecial0E _ => 0
  | .unassignedSpecial0F _ => 0
  | .unassignedSpecial13 _ => 0
  | .unassignedSpecial14 _ => 0
  | .unassignedSpecial15 _ => 0
  | .unassignedSpecial16 _ => 0
  | .unassignedSpecial17 _ => 0
  | .unassignedSpecial18 _ => 0
  | .unassignedSpecial19 _ => 0
  | .unassignedSpecial1A _ => 0
  | .unassignedSpecial1B _ => 0
  | .unassignedSpecial1C _ => 0
  | .unassignedSpecial1D _ => 0
  | .unassignedSpecial1E _ => 0
  | .unassignedSpecial1F _ => 0

/-- The costs that the source states, which `COST` leaves alone: SET 1, special opcode 0 0, INT 4, and 0 for the opcodes
with no table entry (R368). -/
def statedCosts : List Opcode :=
  [.basic 0x01, .special 0x00, .special 0x08, .basic 0x18, .basic 0x19, .basic 0x1C, .basic 0x1D] ++
    ([0x03, 0x04, 0x05, 0x06, 0x0D, 0x0E, 0x0F, 0x13, 0x14, 0x15, 0x16, 0x17, 0x18, 0x19, 0x1A, 0x1B, 0x1C, 0x1D, 0x1E,
      0x1F] : List (BitVec 5)).map .special

/-- The base cost that the step adds after decode (spec/41_step_cycle.md R166). -/
def baseCost (p : Config.Params) (i : Instr) : Nat :=
  match p.costs.lookup i.opcode with
  | none => defaultCost i
  | some n => if statedCosts.contains i.opcode then defaultCost i else n

end Sys2Proof.Machine
end

