-- ==== Sys2Proof/Machine/Arithmetic.lean ====
section
/-! DEFINITION. SET and the integer arithmetic (spec/42_set_arithmetic.md). -/

namespace Sys2Proof.Machine

/-- Writes a result, for an instruction that leaves EX alone (R179). -/
def storeResult (e : BasicOperands) (v : Word) : Outcome := .next (setRef e.bref v e.st)

/-- Writes a result and the EX value (R179). Which write stands when the destination is EX is `EX_DEST_ORDER` (R191). -/
def storeResultAndEx (e : BasicOperands) (r : AluResult) : Outcome :=
  match e.st.params.exDestOrder with
  | .flagLast => .next { setRef e.bref r.value e.st with ex := r.ex }
  | .resultLast => .next (setRef e.bref r.value { e.st with ex := r.ex })

/-- SET (R180). -/
def execSet (b a : Operand) (s : State) : Outcome :=
  let e := basicOperands (baseCost s.params (.set b a)) b a s
  storeResult e e.aval

/-- ADD (R181). -/
def execAdd (b a : Operand) (s : State) : Outcome :=
  let e := basicOperands (baseCost s.params (.add b a)) b a s
  storeResultAndEx e (addResult e.bval e.aval)

/-- SUB (R182). -/
def execSub (b a : Operand) (s : State) : Outcome :=
  let e := basicOperands (baseCost s.params (.sub b a)) b a s
  storeResultAndEx e (subResult e.bval e.aval)

/-- MUL (R183). -/
def execMul (b a : Operand) (s : State) : Outcome :=
  let e := basicOperands (baseCost s.params (.mul b a)) b a s
  storeResultAndEx e (mulResult e.bval e.aval)

/-- MLI (R184). -/
def execMli (b a : Operand) (s : State) : Outcome :=
  let e := basicOperands (baseCost s.params (.mli b a)) b a s
  storeResultAndEx e (mliResult e.bval e.aval)

/-- DIV (R185). -/
def execDiv (b a : Operand) (s : State) : Outcome :=
  let e := basicOperands (baseCost s.params (.div b a)) b a s
  storeResultAndEx e (divResult e.bval e.aval)

/-- DVI (R186). -/
def execDvi (b a : Operand) (s : State) : Outcome :=
  let e := basicOperands (baseCost s.params (.dvi b a)) b a s
  storeResultAndEx e (dviResult e.st.params.dviRound e.bval e.aval)

/-- MOD (R187). -/
def execMod (b a : Operand) (s : State) : Outcome :=
  let e := basicOperands (baseCost s.params (.mod b a)) b a s
  storeResult e (modValue e.bval e.aval)

/-- MDI (R188). -/
def execMdi (b a : Operand) (s : State) : Outcome :=
  let e := basicOperands (baseCost s.params (.mdi b a)) b a s
  storeResult e (mdiValue e.st.params.dviRound e.bval e.aval)

/-- ADX (R189). -/
def execAdx (b a : Operand) (s : State) : Outcome :=
  let e := basicOperands (baseCost s.params (.adx b a)) b a s
  storeResultAndEx e (adxResult e.bval e.aval e.st.ex)

/-- SBX (R190). -/
def execSbx (b a : Operand) (s : State) : Outcome :=
  let e := basicOperands (baseCost s.params (.sbx b a)) b a s
  storeResultAndEx e (sbxResult e.bval e.aval e.st.ex)

end Sys2Proof.Machine
end

