-- ==== Sys2Proof/Machine/Bitwise.lean ====
section
/-! DEFINITION. The bitwise and shift instructions (spec/43_bitwise_shift.md). -/

namespace Sys2Proof.Machine

/-- AND (R210). -/
def execAnd (b a : Operand) (s : State) : Outcome :=
  let e := basicOperands (baseCost s.params (.and b a)) b a s
  storeResult e (andValue e.bval e.aval)

/-- BOR (R211). -/
def execBor (b a : Operand) (s : State) : Outcome :=
  let e := basicOperands (baseCost s.params (.bor b a)) b a s
  storeResult e (borValue e.bval e.aval)

/-- XOR (R212). -/
def execXor (b a : Operand) (s : State) : Outcome :=
  let e := basicOperands (baseCost s.params (.xor b a)) b a s
  storeResult e (xorValue e.bval e.aval)

/-- SHR (R213). -/
def execShr (b a : Operand) (s : State) : Outcome :=
  let e := basicOperands (baseCost s.params (.shr b a)) b a s
  storeResultAndEx e (shrResult e.bval (shiftCount e.st.params.shiftAmount e.aval))

/-- ASR (R214). -/
def execAsr (b a : Operand) (s : State) : Outcome :=
  let e := basicOperands (baseCost s.params (.asr b a)) b a s
  storeResultAndEx e (asrResult e.bval (shiftCount e.st.params.shiftAmount e.aval))

/-- SHL (R215). -/
def execShl (b a : Operand) (s : State) : Outcome :=
  let e := basicOperands (baseCost s.params (.shl b a)) b a s
  storeResultAndEx e (shlResult e.bval (shiftCount e.st.params.shiftAmount e.aval))

end Sys2Proof.Machine
end

