-- ==== Sys2Proof/Machine/Fetch.lean ====
section
/-! DEFINITION. Fetching: the instruction word, the next words of its operands, and the skip that passes over
instructions without executing them (spec/41_step_cycle.md R160, R162; spec/40_operand_resolution.md R131;
spec/44_conditionals.md R231). -/

namespace Sys2Proof.Machine

/-- Reads the word at PC and advances PC by one, modulo 65536; no cycle (spec/41_step_cycle.md R162,
spec/70_reset_and_hazards.md R366). -/
def fetchWord (s : State) : Word × State :=
  let r := fetchRead s.pc s
  (r.1, { r.2 with pc := s.pc + 1 })

/-- `NextWord()`: as `fetchWord`, and one cycle (spec/40_operand_resolution.md R131). -/
def nextWord (s : State) : Word × State :=
  let r := fetchWord s
  (r.1, r.2.addCycles 1)

/-- The next word of an operand whose code consumes one, else none. -/
def nextIf (needed : Bool) (s : State) : List Word × State :=
  if needed then
    let r := nextWord s
    ([r.1], r.2)
  else ([], s)

/-- Whether the instruction of this word consumes a next word for `b` (spec/30_encoding.md R94). -/
def bConsumesNext (w : Word) : Bool := decide (fieldO w ≠ 0) && consumesNext (codeOfB (fieldB w))

/-- Fetches an instruction: its word, the next word of `a`, the next word of `b` (spec/30_encoding.md R93, R119;
spec/41_step_cycle.md R163). Afterwards PC is past the instruction (spec/10_state.md R21). -/
def fetchInstr (s : State) : List Word × State :=
  let w := fetchWord s
  let na := nextIf (consumesNext (fieldA w.1)) w.2
  let nb := nextIf (bConsumesNext w.1) na.2
  (w.1 :: (na.1 ++ nb.1), nb.2)

/-- Whether a word is a basic conditional, `o` in 0x10..0x17 (spec/44_conditionals.md R231). -/
def isConditionalWord (w : Word) : Bool :=
  decide (0x10 ≤ (fieldO w).toNat) && decide ((fieldO w).toNat ≤ 0x17)

/-- Whether a word is a basic conditional in the machine's table (R231; spec/00_scope.md R6). -/
def isConditionalFor (m : Config.OpMap) (w : Word) : Bool := isConditionalWord (m.toTable w)

/-- The loop of `Skip()` (R231): passes over one instruction by its length, and over another as long as the one passed
was a conditional, one cycle for each conditional. When as many conditionals as the first argument says have been passed
and the loop has not ended, the skip is left in progress, for the next step to go on with (log 17). -/
def skipLoop : Nat → State → State
  | 0, s => { s with skipping := true }
  | n + 1, s =>
    let w := fetchWord s
    let t := { w.2 with pc := w.2.pc + BitVec.ofNat 16 (extraWords w.1) }
    if isConditionalFor s.params.opMap w.1 then skipLoop n (t.addCycles 1) else { t with skipping := false }

/-- Goes on with a skip, up to 65536 conditionals in one step of the model (R231; log 17). -/
def goOnSkipping (s : State) : State := skipLoop Config.memSize s

/-- `Skip()` (R231): the failing test costs one cycle. -/
def skip (s : State) : State := goOnSkipping (s.addCycles 1)

end Sys2Proof.Machine
end

