-- ==== Sys2Proof/Machine/Conditionals.lean ====
section
/-! DEFINITION. The conditional instructions (spec/44_conditionals.md). -/

namespace Sys2Proof.Machine

/-- The frame of every conditional (R230): nothing more when the predicate holds, else the skip. -/
def testOrSkip (holds : Bool) (s : State) : Outcome :=
  if holds then .next s else .next (skip s)

/-- IFB (R232). -/
def execIfb (b a : Operand) (s : State) : Outcome :=
  let e := basicOperands (baseCost s.params (.ifb b a)) b a s
  testOrSkip (ifbHolds e.bval e.aval) e.st

/-- IFC (R233). -/
def execIfc (b a : Operand) (s : State) : Outcome :=
  let e := basicOperands (baseCost s.params (.ifc b a)) b a s
  testOrSkip (ifcHolds e.bval e.aval) e.st

/-- IFE (R234). -/
def execIfe (b a : Operand) (s : State) : Outcome :=
  let e := basicOperands (baseCost s.params (.ife b a)) b a s
  testOrSkip (ifeHolds e.bval e.aval) e.st

/-- IFN (R235). -/
def execIfn (b a : Operand) (s : State) : Outcome :=
  let e := basicOperands (baseCost s.params (.ifn b a)) b a s
  testOrSkip (ifnHolds e.bval e.aval) e.st

/-- IFG (R236). -/
def execIfg (b a : Operand) (s : State) : Outcome :=
  let e := basicOperands (baseCost s.params (.ifg b a)) b a s
  testOrSkip (ifgHolds e.bval e.aval) e.st

/-- IFA (R237). -/
def execIfa (b a : Operand) (s : State) : Outcome :=
  let e := basicOperands (baseCost s.params (.ifa b a)) b a s
  testOrSkip (ifaHolds e.bval e.aval) e.st

/-- IFL (R238). -/
def execIfl (b a : Operand) (s : State) : Outcome :=
  let e := basicOperands (baseCost s.params (.ifl b a)) b a s
  testOrSkip (iflHolds e.bval e.aval) e.st

/-- IFU (R239). -/
def execIfu (b a : Operand) (s : State) : Outcome :=
  let e := basicOperands (baseCost s.params (.ifu b a)) b a s
  testOrSkip (ifuHolds e.bval e.aval) e.st

end Sys2Proof.Machine
end

