-- ==== Sys2Proof/Machine/Hardware.lean ====
section
/-! DEFINITION. The device-bus instructions (spec/47_hardware_instructions.md). -/

namespace Sys2Proof.Machine

/-- What HWQ leaves in A, B, C, X, Y: the fields of the device, or five zeros when there is none (R291). -/
def queryRegs (d : Option Device) (g : Regs) : Regs :=
  match d with
  | some d =>
    { g with
      a := d.ident.extractLsb' 0 16, b := d.ident.extractLsb' 16 16, c := d.version
      x := d.manufacturer.extractLsb' 0 16, y := d.manufacturer.extractLsb' 16 16 }
  | none => { g with a := 0, b := 0, c := 0, x := 0, y := 0 }

/-- HWN (R290): the number of devices, masked to 16 bits. -/
def execHwn (a : Operand) (s : State) : Outcome :=
  let e := specialOperand (baseCost s.params (.hwn a)) a s
  .next (setRef e.aref (BitVec.ofNat 16 e.st.devices.length) e.st)

/-- HWQ (R291). -/
def execHwq (a : Operand) (s : State) : Outcome :=
  let e := specialOperand (baseCost s.params (.hwq a)) a s
  .next { e.st with regs := queryRegs e.st.devices[e.aval.toNat]? e.st.regs }

/-- HWI (R292): runs the handler of a device that exists and has one, else nothing. -/
def execHwi (a : Operand) (s : State) : Outcome :=
  let e := specialOperand (baseCost s.params (.hwi a)) a s
  match e.st.devices[e.aval.toNat]? with
  | some d => if d.hasHandler then runHandler e.aval.toNat e.st else .next e.st
  | none => .next e.st

end Sys2Proof.Machine
end

