-- ==== Sys2Proof/Machine/Interrupts.lean ====
section
/-! DEFINITION. The interrupt instructions (spec/46_interrupt_instructions.md). -/

namespace Sys2Proof.Machine

/-- INT (R270): triggers or enqueues an interrupt that carries the operand. -/
def execInt (a : Operand) (s : State) : Outcome :=
  let e := specialOperand (baseCost s.params (.int a)) a s
  interrupt e.aval e.st

/-- IAG (R271): the operand is the destination of IA. -/
def execIag (a : Operand) (s : State) : Outcome :=
  let e := specialOperand (baseCost s.params (.iag a)) a s
  .next (setRef e.aref e.st.ia e.st)

/-- IAS (R272). -/
def execIas (a : Operand) (s : State) : Outcome :=
  let e := specialOperand (baseCost s.params (.ias a)) a s
  .next { e.st with ia := e.aval }

/-- RFI (R273): the operand is resolved, read and ignored. -/
def execRfi (a : Operand) (s : State) : Outcome :=
  let e := specialOperand (baseCost s.params (.rfi a)) a s
  .next (returnFromInterrupt e.st)

/-- IAQ (R274). -/
def execIaq (a : Operand) (s : State) : Outcome :=
  let e := specialOperand (baseCost s.params (.iaq a)) a s
  .next { e.st with queueing := e.aval != 0 }

end Sys2Proof.Machine
end

