-- ==== Sys2Proof/Machine/MoveControl.lean ====
section
/-! DEFINITION. Store-and-step, call, halts (spec/45_move_control.md). -/

namespace Sys2Proof.Machine

/-- Steps I and J together (R250, R251). -/
def stepIJ (d : Word) (s : State) : State :=
  { s with regs := { s.regs with i := s.regs.i + d, j := s.regs.j + d } }

/-- STI (R250): the store first, then I and J go up by one. -/
def execSti (b a : Operand) (s : State) : Outcome :=
  let e := basicOperands (baseCost s.params (.sti b a)) b a s
  .next (stepIJ 1 (setRef e.bref e.aval e.st))

/-- STD (R251): the store first, then I and J go down by one. -/
def execStd (b a : Operand) (s : State) : Outcome :=
  let e := basicOperands (baseCost s.params (.std b a)) b a s
  .next (stepIJ (-1) (setRef e.bref e.aval e.st))

/-- JSR (R252): pushes the address of the word after it and jumps. -/
def execJsr (a : Operand) (s : State) : Outcome :=
  let e := specialOperand (baseCost s.params (.jsr a)) a s
  .next { push e.st.pc e.st with pc := e.aval }

/-- BRK (R253): stops; the operand is resolved, read and ignored. -/
def execBrk (a : Operand) (s : State) : Outcome :=
  let e := specialOperand (baseCost s.params (.brk a)) a s
  .next { e.st with run := .stopped }

/-- HCF (R254): stops, notifies the host's end listeners, and resets. -/
def execHcf (a : Operand) (s : State) : Outcome :=
  let e := specialOperand (baseCost s.params (.hcf a)) a s
  .next { e.st.clear with run := .stopped, endEvents := e.st.endEvents + 1 }

/-- Special opcode 0 (R255): stops. -/
def execHalt0 (a : Operand) (s : State) : Outcome :=
  let e := specialOperand (baseCost s.params (.halt0 a)) a s
  .next { e.st with run := .stopped }

end Sys2Proof.Machine
end

