-- ==== Sys2Proof/Machine/Unassigned.lean ====
section
/-! DEFINITION. The unassigned opcodes: executing one is the fatal decode error (spec/30_encoding.md R101, R103;
spec/41_step_cycle.md R165; spec/60_exceptions.md R320). The operands' effects on the state are not kept: the spec gives
the state after the fault no meaning (decision D27; log 20). -/

namespace Sys2Proof.Machine

/-- `raise DecodeFault`, carrying the instruction word, in the machine's own numbers, for diagnostics (R320). -/
def decodeFault (i : Instr) (s : State) : Outcome :=
  .fault (.decodeFault ((encodeFor s.params.opMap i).headD 0))

/-- Unassigned basic opcode 0x18 (R101). -/
def execUnassignedBasic18 (b a : Operand) (s : State) : Outcome := decodeFault (.unassignedBasic18 b a) s

/-- Unassigned basic opcode 0x19 (R101). -/
def execUnassignedBasic19 (b a : Operand) (s : State) : Outcome := decodeFault (.unassignedBasic19 b a) s

/-- Unassigned basic opcode 0x1C (R101). -/
def execUnassignedBasic1C (b a : Operand) (s : State) : Outcome := decodeFault (.unassignedBasic1C b a) s

/-- Unassigned basic opcode 0x1D (R101). -/
def execUnassignedBasic1D (b a : Operand) (s : State) : Outcome := decodeFault (.unassignedBasic1D b a) s

/-- Unassigned special opcode 0x03 (R103). -/
def execUnassignedSpecial03 (a : Operand) (s : State) : Outcome := decodeFault (.unassignedSpecial03 a) s

/-- Unassigned special opcode 0x04 (R103). -/
def execUnassignedSpecial04 (a : Operand) (s : State) : Outcome := decodeFault (.unassignedSpecial04 a) s

/-- Unassigned special opcode 0x05 (R103). -/
def execUnassignedSpecial05 (a : Operand) (s : State) : Outcome := decodeFault (.unassignedSpecial05 a) s

/-- Unassigned special opcode 0x06 (R103). -/
def execUnassignedSpecial06 (a : Operand) (s : State) : Outcome := decodeFault (.unassignedSpecial06 a) s

/-- Unassigned special opcode 0x0D (R103). -/
def execUnassignedSpecial0D (a : Operand) (s : State) : Outcome := decodeFault (.unassignedSpecial0D a) s

/-- Unassigned special opcode 0x0E (R103). -/
def execUnassignedSpecial0E (a : Operand) (s : State) : Outcome := decodeFault (.unassignedSpecial0E a) s

/-- Unassigned special opcode 0x0F (R103). -/
def execUnassignedSpecial0F (a : Operand) (s : State) : Outcome := decodeFault (.unassignedSpecial0F a) s

/-- Unassigned special opcode 0x13 (R103). -/
def execUnassignedSpecial13 (a : Operand) (s : State) : Outcome := decodeFault (.unassignedSpecial13 a) s

/-- Unassigned special opcode 0x14 (R103). -/
def execUnassignedSpecial14 (a : Operand) (s : State) : Outcome := decodeFault (.unassignedSpecial14 a) s

/-- Unassigned special opcode 0x15 (R103). -/
def execUnassignedSpecial15 (a : Operand) (s : State) : Outcome := decodeFault (.unassignedSpecial15 a) s

/-- Unassigned special opcode 0x16 (R103). -/
def execUnassignedSpecial16 (a : Operand) (s : State) : Outcome := decodeFault (.unassignedSpecial16 a) s

/-- Unassigned special opcode 0x17 (R103). -/
def execUnassignedSpecial17 (a : Operand) (s : State) : Outcome := decodeFault (.unassignedSpecial17 a) s

/-- Unassigned special opcode 0x18 (R103). -/
def execUnassignedSpecial18 (a : Operand) (s : State) : Outcome := decodeFault (.unassignedSpecial18 a) s

/-- Unassigned special opcode 0x19 (R103). -/
def execUnassignedSpecial19 (a : Operand) (s : State) : Outcome := decodeFault (.unassignedSpecial19 a) s

/-- Unassigned special opcode 0x1A (R103). -/
def execUnassignedSpecial1A (a : Operand) (s : State) : Outcome := decodeFault (.unassignedSpecial1A a) s

/-- Unassigned special opcode 0x1B (R103). -/
def execUnassignedSpecial1B (a : Operand) (s : State) : Outcome := decodeFault (.unassignedSpecial1B a) s

/-- Unassigned special opcode 0x1C (R103). -/
def execUnassignedSpecial1C (a : Operand) (s : State) : Outcome := decodeFault (.unassignedSpecial1C a) s

/-- Unassigned special opcode 0x1D (R103). -/
def execUnassignedSpecial1D (a : Operand) (s : State) : Outcome := decodeFault (.unassignedSpecial1D a) s

/-- Unassigned special opcode 0x1E (R103). -/
def execUnassignedSpecial1E (a : Operand) (s : State) : Outcome := decodeFault (.unassignedSpecial1E a) s

/-- Unassigned special opcode 0x1F (R103). -/
def execUnassignedSpecial1F (a : Operand) (s : State) : Outcome := decodeFault (.unassignedSpecial1F a) s

end Sys2Proof.Machine
end

