-- ==== Sys2Proof/Machine/Dispatch.lean ====
section
/-! DEFINITION. One arm for each constructor of Instr (spec/41_step_cycle.md R167). -/

namespace Sys2Proof.Machine

def exec (i : Instr) (s : State) : Host.Outcome State Fault Refusal :=
  match i with
  | .set b a => Sys2Proof.Machine.execSet b a s
  | .add b a => Sys2Proof.Machine.execAdd b a s
  | .sub b a => Sys2Proof.Machine.execSub b a s
  | .mul b a => Sys2Proof.Machine.execMul b a s
  | .mli b a => Sys2Proof.Machine.execMli b a s
  | .div b a => Sys2Proof.Machine.execDiv b a s
  | .dvi b a => Sys2Proof.Machine.execDvi b a s
  | .mod b a => Sys2Proof.Machine.execMod b a s
  | .mdi b a => Sys2Proof.Machine.execMdi b a s
  | .and b a => Sys2Proof.Machine.execAnd b a s
  | .bor b a => Sys2Proof.Machine.execBor b a s
  | .xor b a => Sys2Proof.Machine.execXor b a s
  | .shr b a => Sys2Proof.Machine.execShr b a s
  | .asr b a => Sys2Proof.Machine.execAsr b a s
  | .shl b a => Sys2Proof.Machine.execShl b a s
  | .ifb b a => Sys2Proof.Machine.execIfb b a s
  | .ifc b a => Sys2Proof.Machine.execIfc b a s
  | .ife b a => Sys2Proof.Machine.execIfe b a s
  | .ifn b a => Sys2Proof.Machine.execIfn b a s
  | .ifg b a => Sys2Proof.Machine.execIfg b a s
  | .ifa b a => Sys2Proof.Machine.execIfa b a s
  | .ifl b a => Sys2Proof.Machine.execIfl b a s
  | .ifu b a => Sys2Proof.Machine.execIfu b a s
  | .adx b a => Sys2Proof.Machine.execAdx b a s
  | .sbx b a => Sys2Proof.Machine.execSbx b a s
  | .sti b a => Sys2Proof.Machine.execSti b a s
  | .std b a => Sys2Proof.Machine.execStd b a s
  | .unassignedBasic18 b a => Sys2Proof.Machine.execUnassignedBasic18 b a s
  | .unassignedBasic19 b a => Sys2Proof.Machine.execUnassignedBasic19 b a s
  | .unassignedBasic1C b a => Sys2Proof.Machine.execUnassignedBasic1C b a s
  | .unassignedBasic1D b a => Sys2Proof.Machine.execUnassignedBasic1D b a s
  | .halt0 a => Sys2Proof.Machine.execHalt0 a s
  | .jsr a => Sys2Proof.Machine.execJsr a s
  | .brk a => Sys2Proof.Machine.execBrk a s
  | .hcf a => Sys2Proof.Machine.execHcf a s
  | .int a => Sys2Proof.Machine.execInt a s
  | .iag a => Sys2Proof.Machine.execIag a s
  | .ias a => Sys2Proof.Machine.execIas a s
  | .rfi a => Sys2Proof.Machine.execRfi a s
  | .iaq a => Sys2Proof.Machine.execIaq a s
  | .hwn a => Sys2Proof.Machine.execHwn a s
  | .hwq a => Sys2Proof.Machine.execHwq a s
  | .hwi a => Sys2Proof.Machine.execHwi a s
  | .unassignedSpecial03 a => Sys2Proof.Machine.execUnassignedSpecial03 a s
  | .unassignedSpecial04 a => Sys2Proof.Machine.execUnassignedSpecial04 a s
  | .unassignedSpecial05 a => Sys2Proof.Machine.execUnassignedSpecial05 a s
  | .unassignedSpecial06 a => Sys2Proof.Machine.execUnassignedSpecial06 a s
  | .unassignedSpecial0D a => Sys2Proof.Machine.execUnassignedSpecial0D a s
  | .unassignedSpecial0E a => Sys2Proof.Machine.execUnassignedSpecial0E a s
  | .unassignedSpecial0F a => Sys2Proof.Machine.execUnassignedSpecial0F a s
  | .unassignedSpecial13 a => Sys2Proof.Machine.execUnassignedSpecial13 a s
  | .unassignedSpecial14 a => Sys2Proof.Machine.execUnassignedSpecial14 a s
  | .unassignedSpecial15 a => Sys2Proof.Machine.execUnassignedSpecial15 a s
  | .unassignedSpecial16 a => Sys2Proof.Machine.execUnassignedSpecial16 a s
  | .unassignedSpecial17 a => Sys2Proof.Machine.execUnassignedSpecial17 a s
  | .unassignedSpecial18 a => Sys2Proof.Machine.execUnassignedSpecial18 a s
  | .unassignedSpecial19 a => Sys2Proof.Machine.execUnassignedSpecial19 a s
  | .unassignedSpecial1A a => Sys2Proof.Machine.execUnassignedSpecial1A a s
  | .unassignedSpecial1B a => Sys2Proof.Machine.execUnassignedSpecial1B a s
  | .unassignedSpecial1C a => Sys2Proof.Machine.execUnassignedSpecial1C a s
  | .unassignedSpecial1D a => Sys2Proof.Machine.execUnassignedSpecial1D a s
  | .unassignedSpecial1E a => Sys2Proof.Machine.execUnassignedSpecial1E a s
  | .unassignedSpecial1F a => Sys2Proof.Machine.execUnassignedSpecial1F a s

end Sys2Proof.Machine
end

