-- ==== Sys2Proof/Machine/Step.lean ====
section
/-! DEFINITION. The step (spec/41_step_cycle.md R160) and the state in which a given instruction is the next one. -/

namespace Sys2Proof.Machine

/-- Fetches at PC, decodes, executes (R160 parts 2 to 6). The decoder never rejects the words that the fetch gives. -/
def runInstr (s : State) : Outcome :=
  let f := fetchInstr s
  match decodeFor s.params.opMap f.1 with
  | .ok (i, _) => exec i f.2
  | .error e => .refused (.undecodable e)

/-- `Step()` of the CPU (R160): nothing unless running (R161); at most one queued interrupt (R171); one instruction. -/
def cpuStep (s : State) : Outcome :=
  if s.run = .running then runInstr (deliverQueued s) else .next s

/-- One step of the machine: what the host and the devices do before it, then the CPU's step (R169; log 12). A skip in
progress belongs to the CPU's step before, so it goes on with nothing arriving and nothing delivered (R169, log 17). -/
def step (s : State) : Host.Outcome State Fault Refusal :=
  if s.skipping && s.run == .running then .next (goOnSkipping s) else andThen (arrivals s) cpuStep

/-- `s` with the instruction of these bits as the one its next step fetches and runs (log 7). Set as well is all that
this takes: the instruction word is stored in the machine's own opcode numbers, the CPU runs, no skip is in progress,
nothing arrives before the step, no queued interrupt is delivered at its start, and where read hooks are installed the
fetch does not see them. -/
def State.withFetchWord (s : State) (nbits w : Nat) : State :=
  { s with
    mem := s.mem.writeList s.pc (onHead s.params.opMap.ofTable (tableWords nbits w))
    run := .running
    skipping := false
    agenda := (match s.agenda with | [] => [] | _ :: later => [] :: later)
    iq := if s.queueing then s.iq else []
    params := { s.params with fetchViaHooks := s.params.fetchViaHooks && s.readHooks.isEmpty } }

end Sys2Proof.Machine
end

