-- ==== Sys2Proof/Safety.lean ====
section
/-! DEFINITION. What claims say of states and outcomes: the bounds that the spec gives the state, the run states that
the two fatal conditions leave, and a run that meets neither a fault nor a refusal. -/

namespace Sys2Proof.Machine

/-- The bounds that the spec gives the state: the canonical form of memory, at most 256 queued messages
(spec/10_state.md R26), at most 65536 devices (R42), no hook past 0xFFFF (spec/20_memory.md R66). -/
structure State.Inv (s : State) : Prop where
  memWf      : s.mem.wf = true
  queueBound : s.iq.length ≤ Config.iqMax
  devBound   : s.devices.length ≤ Config.devMax
  readFit    : s.readHooks.all Hook.fits = true
  writeFit   : s.writeHooks.all Hook.fits = true

/-- The run state that a fault leaves (spec/10_state.md R40). -/
def Fault.runState : Fault → RunState
  | .decodeFault _ => .faultDecode
  | .onFire => .faultFire

/-- No device callback can answer: raw memory alone. The default of `HOOKS` (spec/00_scope.md R6). -/
def State.noHooks (s : State) : Prop := s.readHooks = [] ∧ s.writeHooks = []

/-- `k` steps from a state all answer a next state. -/
def SafeFor (k : Nat) (s : State) : Prop := ∃ t, Sys2Proof.core.run k s = .next t

end Sys2Proof.Machine
end

