-- ==== Sys2Proof/Certificates/Slice0/Obligations.lean ====
section
/-! DEFINITION. The statements for the provers. Each says what an instruction or the machine does, from the numbered
rules of spec/. The operands of an instruction are handed over by `basicOperands` and `specialOperand`; what they hand
over is stated by `OperandsHandedOver`, `ResolvesOperands` and `ReferencesReadAndWrite`.

Opcode numbers and base costs are parameters of the state (OPMAP, OP_BRK, OP_HCF, COST; log 2, log 3), so that every
statement about every state covers every choice of them. `Claims.row` says an instruction's number and cost in the default
table, which the spec takes for the most part from general knowledge. D<n> is a decision of the spec's own
(spec/92_eei_decisions.md). -/

namespace Sys2Proof.Claims

open Sys2Proof.Machine

/-! ### Vocabulary of the statements -/

/-- An instruction's row of the default table: its opcode number with its operands (spec/30_encoding.md R100, R102) and
its base cost (spec/70_reset_and_hazards.md R368), in any machine whose `COST` is the default. -/
def row (i : Instr) (sh : Shape) (cost : Nat) : Prop :=
  i.shape = sh ∧ ∀ p : Config.Params, p.costs = [] → baseCost p i = cost

/-- The general registers in the order of their numbers 0 to 7 (spec/10_state.md R20). -/
def registers : List GReg := [.a, .b, .c, .x, .y, .z, .i, .j]

/-- An operand's row of the table of spec/30_encoding.md R95: the code in this position stands for this operand and the
operand is packed as this code; `next` is the next word it takes, none or `n`, and the code consumes one just then
(R94). -/
def operandRow (p : Pos) (code : Nat) (n : Word) (o : Operand) (next : List Word) : Prop :=
  let c := BitVec.ofNat 6 code
  operandOf p c n = o ∧ o.code = c ∧ o.next = next ∧ (consumesNext c = true ↔ next ≠ [])

/-- Whether a hook is called for an address: `base <= addr < base + length` (spec/20_memory.md R64, R65). -/
abbrev inRange (h : Hook) (addr : Word) : Prop :=
  h.base.toNat ≤ addr.toNat ∧ addr.toNat < h.base.toNat + h.length

/-- The state after a result `v` and an EX value `x`: both written, and when they meet in EX, `EX_DEST_ORDER` says which
of the two stands (spec/42_set_arithmetic.md R179, R191). -/
def withResultAndEx (e : BasicOperands) (v x : Word) : State :=
  if e.bref = .reg .ex then
    { e.st with ex := match e.st.params.exDestOrder with | .flagLast => x | .resultLast => v }
  else { setRef e.bref v e.st with ex := x }

/-- The shift count of `SHIFT_AMOUNT_FN` (spec/43_bitwise_shift.md R216). -/
def count (e : BasicOperands) : Nat :=
  match e.st.params.shiftAmount with | .identity => e.aval.toNat | .mod32 => e.aval.toNat % 32

/-- The basic instructions that write EX beside their result (spec/10_state.md R23). -/
def exWriters (b a : Operand) : List Instr :=
  [.add b a, .sub b a, .mul b a, .mli b a, .div b a, .dvi b a, .adx b a, .sbx b a, .shr b a, .asr b a, .shl b a]

/-- The basic instructions that write a result and leave EX alone (R23). -/
def exKeepers (b a : Operand) : List Instr :=
  [.set b a, .mod b a, .mdi b a, .and b a, .bor b a, .xor b a]

/-- A conditional instruction: its constructor, its opcode in the default table, its predicate on the left and the right
value. -/
structure Conditional where
  instr  : Operand → Operand → Instr
  opcode : BitVec 5
  holds  : Word → Word → Bool

/-- The conditional instructions (spec/44_conditionals.md R232 to R239). -/
def conditionals : List Conditional :=
  [⟨.ifb, 0x10, fun l r => l &&& r != 0⟩, ⟨.ifc, 0x11, fun l r => l &&& r == 0⟩, ⟨.ife, 0x12, fun l r => l == r⟩,
   ⟨.ifn, 0x13, fun l r => l != r⟩, ⟨.ifg, 0x14, fun l r => r.ult l⟩, ⟨.ifa, 0x15, fun l r => r.slt l⟩,
   ⟨.ifl, 0x16, fun l r => l.ult r⟩, ⟨.ifu, 0x17, fun l r => l.slt r⟩]

/-- Where PC stands after passing `k` instructions of raw memory from `p` on, each by its length
(spec/30_encoding.md R94, spec/44_conditionals.md R231). -/
def pcPast (m : Memory) : Nat → Word → Word
  | 0, p => p
  | k + 1, p => pcPast m k (p + 1 + BitVec.ofNat 16 (extraWords (m.read p)))

/-- `k` words read one after another from an address on as a fetch reads them, through the read hooks when
`FETCH_VIA_HOOKS` says so, and the state with the callbacks counted (spec/30_encoding.md R93, spec/20_memory.md R64). -/
def fetched : Nat → Word → State → List Word × State
  | 0, _, s => ([], s)
  | k + 1, addr, s =>
    let r := fetchRead addr s
    let rest := fetched k (addr + 1) r.2
    (r.1 :: rest.1, rest.2)

/-- Whether the instruction at PC, read as a fetch reads it, is a conditional in the machine's table (R231). -/
def atConditional (s : State) : Prop := isConditionalFor s.params.opMap (fetchRead s.pc s).1 = true

/-- The state with `k` instructions passed over: each one's instruction word read as a fetch reads it, and PC moved past
it by its length (R231; log 18). -/
def passed : Nat → State → State
  | 0, s => s
  | k + 1, s =>
    let r := fetchRead s.pc s
    passed k { r.2 with pc := s.pc + 1 + BitVec.ofNat 16 (extraWords r.1) }

/-- The fields that only control, interrupt, device or host operations write. -/
def sameControl (s t : State) : Prop :=
  t.ia = s.ia ∧ t.queueing = s.queueing ∧ t.iq = s.iq ∧ t.run = s.run ∧ t.devices = s.devices ∧
    t.readHooks = s.readHooks ∧ t.writeHooks = s.writeHooks ∧ t.params = s.params ∧ t.agenda = s.agenda ∧
    t.endEvents = s.endEvents ∧ t.skipping = s.skipping

/-- Nothing but the destination `d` has been written: every general register, SP (else at `sp`), PC and every word of
memory that `d` does not name is as before. -/
def onlyDestination (s t : State) (d : Ref) (sp : Word) : Prop :=
  (∀ r, d ≠ .reg (.gen r) → t.regs.get r = s.regs.get r) ∧ (d ≠ .reg .sp → t.sp = sp) ∧
    (d ≠ .reg .pc → t.pc = s.pc) ∧ (∀ addr, d ≠ .mem addr → t.mem.read addr = s.mem.read addr)

/-- Two outcomes that differ in nothing but the cycle counter. -/
def sameButCycle : Outcome → Outcome → Prop
  | .next t, .next u => { u with cycle := t.cycle } = t
  | .fault e, .fault f => e = f
  | .refused e, .refused f => e = f
  | _, _ => False

end Sys2Proof.Claims

open Sys2Proof Sys2Proof.Machine

/-! ### Reset and the invariant -/

/-- spec/10_state.md R45: what `clear()` leaves, and that the machine right after reset holds the same
values. The values of PC, EX, IA and of the registers but X, and STOPPED, are the spec's own decisions D18, D19, D20
(log 6). That no skip is in progress is a field of the model's own (log 17). That devices and hooks stay is D19. -/
def Obligations.ResetValues : Prop :=
  ∀ s : State, ∀ t ∈ [s.clear, State.reset],
    (∀ r, t.regs.get r = 0) ∧ t.pc = 0 ∧ t.sp = 0 ∧ t.ex = 0 ∧ t.ia = 0 ∧ (∀ addr, t.mem.read addr = 0) ∧
      t.cycle = 0 ∧ t.iq = [] ∧ t.queueing = false ∧ t.run = .stopped ∧ t.skipping = false ∧
      s.clear.devices = s.devices ∧ s.clear.readHooks = s.readHooks ∧ s.clear.writeHooks = s.writeHooks

/-- The invariant holds right after reset. -/
def Obligations.ResetMeetsInvariant : Prop := State.reset.Inv

/-- Every step keeps the invariant: memory canonical, at most 256 queued messages (spec/10_state.md R26), at most 65536
devices (R42), no hook past 0xFFFF (spec/20_memory.md R66), whatever devices and host do. -/
def Obligations.StepKeepsInvariant : Prop :=
  ∀ s t : State, s.Inv → step s = .next t → t.Inv

/-! ### Encoding -/

/-- spec/30_encoding.md R110, R116: decoding the words of a well-formed instruction gives it back, with every operand at
every value, and consumes exactly those words; in the default opcode table, which is that of empty `OPMAP` lists, and in
that of every choice of OPMAP, OP_BRK and OP_HCF (spec/00_scope.md R6; log 2). -/
def Obligations.DecodeOfEncode : Prop :=
  (∀ (i : Instr) (rest : List Word), i.wellFormed = true → decode (encode i ++ rest) = .ok (i, rest)) ∧
  (∀ (m : Config.OpMap) (i : Instr) (rest : List Word), i.wellFormed = true →
    decodeFor m (encodeFor m i ++ rest) = .ok (i, rest)) ∧
  (∀ ws : List Word, decodeFor Config.defaultOpMap ws = decode ws)

/-- The converse: what the decoder reads is well formed, and encoding it gives back exactly the words it consumed, so
that no bit of an instruction is dropped, in every opcode table (log 2). -/
def Obligations.EncodeOfDecode : Prop :=
  ∀ (m : Config.OpMap) (ws rest : List Word) (i : Instr), decodeFor m ws = .ok (i, rest) →
    i.wellFormed = true ∧ encodeFor m i ++ rest = ws

/-- spec/30_encoding.md R90, R94, R116: every word decodes, with as many of the words after it as its fields alone say,
which are 0, 1 or 2, whatever the opcode table (log 2). -/
def Obligations.EveryWordDecodes : Prop :=
  ∀ (m : Config.OpMap) (w : Word) (ws : List Word), extraWords w ≤ 2 ∧
    (extraWords w ≤ ws.length → ∃ i, decodeFor m (w :: ws) = .ok (i, ws.drop (extraWords w)))

/-- Words written out from the encodings of spec/30_encoding.md R118 and spec/95_test_vectors.md table 2.0,
in the default table; and BRK and HCF under another OP_BRK and OP_HCF (spec/90_conflicts.md C2), with the old number of
BRK then unassigned. -/
def Obligations.DecodesWrittenWords : Prop :=
  decode [0x8801] = .ok (.set (.reg .a) (.short 2), []) ∧
  decode [0x7C01, 0x1234] = .ok (.set (.reg .a) (.lit 0x1234), []) ∧
  decode [0x43C2, 0x0004, 0x2000] = .ok (.add (.memAt 0x2000) (.regOff .a 4), []) ∧
  decode [0x0F01] = .ok (.set .push (.reg .x), []) ∧
  decode [0x6061] = .ok (.set (.reg .x) .pop, []) ∧
  decode [0x8FF2, 0x0001] = .ok (.ife (.lit 1) (.short 3), []) ∧
  decode [0xC420] = .ok (.jsr (.short 17), []) ∧
  decode [0x0000] = .ok (.halt0 (.reg .a), []) ∧
  decode [0x0200] = .ok (.hwn (.reg .a), []) ∧
  decode [0x0018] = .ok (.unassignedBasic18 (.reg .a) (.reg .a), []) ∧
  ∀ p ∈ ([(0x03E0, .brk (.reg .a)), (0x0260, .hcf (.reg .a)), (0x0040, .unassignedSpecial1F (.reg .a)),
      (0x0020, .jsr (.reg .a))] : List (Word × Instr)),
    decodeFor (Config.OpMap.withHalts 0x1F 0x13) [p.1] = .ok (p.2, [])

/-- spec/30_encoding.md R112: a bare numeric literal is packed short exactly when it is the `a` operand and its value is
-1 (written 0xFFFF, which is packed by the spec's decision D24; log 23) or 0..30; else it is a next word; outside
0..0xFFFF it is an error. However it is packed, the operand is the literal itself. -/
def Obligations.LiteralPacking : Prop :=
  ∀ (p : Pos) (n : Int) (s : State),
    (n < 0 ∨ 0xFFFF < n → asmOperand p (.num n) = .error .outOfRange) ∧
    (0 ≤ n ∧ n ≤ 0xFFFF → ∃ o, asmOperand p (.num n) = .ok o ∧ refOf p o s = .lit (BitVec.ofInt 16 n) ∧
      (o.next = [] ↔ p = .a ∧ (n ≤ 30 ∨ n = 0xFFFF)) ∧ (o.next ≠ [] → o = .lit (BitVec.ofInt 16 n)))

/-- spec/30_encoding.md R110: decoding the words an instruction line is encoded into gives back, from all of them, the
opcode and the operands of the line, for the encoder and the decoder of one machine, whatever its opcode table. -/
def Obligations.AssembledLinesDecode : Prop :=
  ∀ (m : Config.OpMap) (mnemonic : String) (args : List AsmArg) (ws : List Word),
    assembleFor m mnemonic args = .ok ws →
    ∃ i, decodeFor m ws = .ok (i, []) ∧ asmShape mnemonic args = .ok i.shape

/-! ### Operands and memory -/

/-- spec/30_encoding.md R95: the code of every operand form below 0x20, in both positions, and its next word; 0x18 is POP
as `a` and PUSH as `b` (the codes from 0x20 on are those of `ShortLiterals`). spec/40_operand_resolution.md R132 to R143:
the reference and the movement of SP of every operand form, in both positions, with the registers of the moment of
resolution. -/
def Obligations.ResolvesOperands : Prop :=
  (∀ (k : Nat) (r : GReg) (n : Word) (p : Pos), Claims.registers[k]? = some r →
    Claims.operandRow p k n (.reg r) [] ∧ Claims.operandRow p (0x08 + k) n (.regInd r) [] ∧
    Claims.operandRow p (0x10 + k) n (.regOff r n) [n]) ∧
  (∀ (n : Word) (p : Pos),
    Claims.operandRow .a 0x18 n .pop [] ∧ Claims.operandRow .b 0x18 n .push [] ∧
    Claims.operandRow p 0x19 n .peek [] ∧ Claims.operandRow p 0x1A n (.pick n) [n] ∧
    Claims.operandRow p 0x1B n .sp [] ∧ Claims.operandRow p 0x1C n .pc [] ∧ Claims.operandRow p 0x1D n .ex [] ∧
    Claims.operandRow p 0x1E n (.memAt n) [n] ∧ Claims.operandRow p 0x1F n (.lit n) [n]) ∧
  ∀ (s : State) (r : GReg) (n : Word),
    (∀ p, resolve p (.reg r) s = (.reg (.gen r), s) ∧
      resolve p (.regInd r) s = (.mem (s.regs.get r), s) ∧
      resolve p (.regOff r n) s = (.mem (n + s.regs.get r), s) ∧
      resolve p .peek s = (.mem s.sp, s) ∧
      resolve p (.pick n) s = (.mem (n + s.sp), s) ∧
      resolve p .sp s = (.reg .sp, s) ∧ resolve p .pc s = (.reg .pc, s) ∧ resolve p .ex s = (.reg .ex, s) ∧
      resolve p (.memAt n) s = (.mem n, s) ∧ resolve p (.lit n) s = (.lit n, s)) ∧
    resolve .a .pop s = (.mem s.sp, { s with sp := s.sp + 1 }) ∧
    resolve .b .push s = (.mem (s.sp - 1), { s with sp := s.sp - 1 })

/-- spec/40_operand_resolution.md R144, R146: every short literal code 0x20..0x3F is the literal code - 0x21 in 16 bits,
consumes no word, moves nothing, and takes no write. -/
def Obligations.ShortLiterals : Prop :=
  ∀ (c : BitVec 6) (n v : Word) (s : State), 0x20 ≤ c.toNat →
    consumesNext c = false ∧
    resolve .a (operandOf .a c n) s = (.lit (BitVec.ofInt 16 ((c.toNat : Int) - 0x21)), s) ∧
    setRef (resolve .a (operandOf .a c n) s).1 v s = s

/-- spec/40_operand_resolution.md R145, R146: reading and writing through a reference. -/
def Obligations.ReferencesReadAndWrite : Prop :=
  ∀ (s : State) (r : GReg) (addr v w : Word),
    getRef (.reg (.gen r)) s = (s.regs.get r, s) ∧ getRef (.reg .sp) s = (s.sp, s) ∧
    getRef (.reg .pc) s = (s.pc, s) ∧ getRef (.reg .ex) s = (s.ex, s) ∧
    getRef (.mem addr) s = memRead addr s ∧ getRef (.lit w) s = (w, s) ∧
    setRef (.reg (.gen r)) v s = { s with regs := s.regs.set r v } ∧ setRef (.reg .sp) v s = { s with sp := v } ∧
    setRef (.reg .pc) v s = { s with pc := v } ∧ setRef (.reg .ex) v s = { s with ex := v } ∧
    setRef (.mem addr) v s = memWrite addr v s ∧ setRef (.lit w) v s = s

/-- spec/41_step_cycle.md R163, R164, R166: `a` is resolved before `b`, both before either value is read, the base cost
is added, `a` is read before `b`, which is read in the state that the read of `a` left, with read hooks as well; nothing
else changes, and with no read hooks the values are those of the registers and memory after both have been resolved. -/
def Obligations.OperandsHandedOver : Prop :=
  ∀ (cost : Nat) (b a : Operand) (s : State),
    let e := basicOperands cost b a s
    let d := specialOperand cost a s
    let ra := resolve .a a s
    let rb := resolve .b b ra.2
    let ga := getRef ra.1 (rb.2.addCycles cost)
    let gb := getRef rb.1 ga.2
    let gs := getRef ra.1 (ra.2.addCycles cost)
    e.bref = rb.1 ∧ d.aref = ra.1 ∧
    e.aval = ga.1 ∧ e.bval = gb.1 ∧ e.st = gb.2 ∧ d.aval = gs.1 ∧ d.st = gs.2 ∧
    e.st = { s with sp := rb.2.sp, cycle := s.cycle + cost, envTick := e.st.envTick } ∧
    d.st = { s with sp := ra.2.sp, cycle := s.cycle + cost, envTick := d.st.envTick } ∧
    (s.readHooks = [] → e.st.envTick = s.envTick ∧ d.st.envTick = s.envTick ∧
      e.aval = (getRef ra.1 e.st).1 ∧ e.bval = (getRef rb.1 e.st).1 ∧ d.aval = (getRef ra.1 d.st).1)

/-- spec/40_operand_resolution.md R147: what the order of resolution and reading makes of instructions whose operands
touch one another. -/
def Obligations.OrderOfOperands : Prop :=
  ∀ s : State, s.Inv → s.noHooks →
    (∃ t, exec (.set (.reg .a) (.regInd .a)) s = .next t ∧ t.regs.a = s.mem.read s.regs.a) ∧
    (∃ t, exec (.set (.regInd .a) (.reg .a)) s = .next t ∧ t.mem.read s.regs.a = s.regs.a) ∧
    (∃ t, exec (.add .pc (.short 3)) s = .next t ∧ t.pc = s.pc + 2) ∧
    (∃ t, exec (.set .push .sp) s = .next t ∧ t.sp = s.sp - 1 ∧ t.mem.read (s.sp - 1) = s.sp - 1) ∧
    (∃ t, exec (.set .sp .pop) s = .next t ∧ t.sp = s.mem.read s.sp) ∧
    (∃ t, exec (.set .peek .pop) s = .next t ∧ t.sp = s.sp + 1 ∧ t.mem.read (s.sp + 1) = s.mem.read s.sp) ∧
    (∃ t, exec (.set .push .pop) s = .next t ∧ t.sp = s.sp ∧ ∀ addr, t.mem.read addr = s.mem.read addr) ∧
    (∃ t, exec (.set (.memAt 0x1000) .pc) s = .next t ∧ t.mem.read 0x1000 = s.pc)

/-- spec/20_memory.md R64: a read of an address that no read hook covers is a read of raw memory, and nothing happens (a hook
covers `addr` when `base <= addr < base + length`);
the first hook in registration order that covers it is called with the offset within its range, a defined answer is
masked to 16 bits (D21) and wins, and an undefined one leaves the read to the hooks after it. A fetch is such a read when
`FETCH_VIA_HOOKS` is on, and a read of raw memory when it is off (D21; spec/00_scope.md R6). THE MODEL'S CHOICE: the
answer is a free value of the callback's number, the offset and the count of callback calls, and a callback changes nothing
of the machine but that count (log 9, log 11; beside spec/20_memory.md R63 and spec/41_step_cycle.md R169). -/
def Obligations.ReadHooksAnswer : Prop :=
  ∀ (s : State) (addr : Word),
    (s.params.fetchViaHooks = true → fetchRead addr s = memRead addr s) ∧
    (s.params.fetchViaHooks = false → fetchRead addr s = (s.mem.read addr, s)) ∧
    ((∀ h ∈ s.readHooks, ¬ Claims.inRange h addr) → memRead addr s = (s.mem.read addr, s)) ∧
    (∀ (before after : List Hook) (h : Hook), s.readHooks = before ++ h :: after →
      (∀ k ∈ before, ¬ Claims.inRange k addr) → Claims.inRange h addr →
      memRead addr s =
        match Config.readHookReply h.callback (addr.toNat - h.base.toNat) s.envTick with
        | some r => (BitVec.ofInt 16 r, { s with envTick := s.envTick + 1 })
        | none =>
          let later := memRead addr { s with readHooks := after, envTick := s.envTick + 1 }
          (later.1, { s with envTick := later.2.envTick }))

/-- spec/20_memory.md R65: a write that no write hook covers (`base <= addr < base + length`) goes to raw memory; the first hook that covers it is called
with the offset and the value, and when it signals that it handled the write nothing more happens (D21), else the write
goes on to the hooks after it and to raw memory. THE MODEL'S CHOICE: the signal is a free value of the callback's number,
the offset, the value and the count of callback calls, and a callback changes nothing of the machine but that count
(log 9, log 11; beside spec/20_memory.md R63 and spec/41_step_cycle.md R169). -/
def Obligations.WriteHooksHandle : Prop :=
  ∀ (s : State) (addr v : Word),
    ((∀ h ∈ s.writeHooks, ¬ Claims.inRange h addr) → memWrite addr v s = { s with mem := s.mem.write addr v }) ∧
    (∀ (before after : List Hook) (h : Hook), s.writeHooks = before ++ h :: after →
      (∀ k ∈ before, ¬ Claims.inRange k addr) → Claims.inRange h addr →
      memWrite addr v s =
        if Config.writeHookHandled h.callback (addr.toNat - h.base.toNat) v s.envTick then
          { s with envTick := s.envTick + 1 }
        else
          { memWrite addr v { s with writeHooks := after, envTick := s.envTick + 1 } with
            writeHooks := s.writeHooks })

/-- Memories in canonical form that read alike at every address are equal. -/
def Obligations.MemoryExtensionality : Prop :=
  ∀ m n : Memory, m.wf = true → n.wf = true → (∀ addr, m.read addr = n.read addr) → m = n

/-! ### SET and arithmetic -/

/-- spec/42_set_arithmetic.md R180: SET. Its number 1 and its cost 1 are the source's own and no parameter changes them
(spec/30_encoding.md R100, spec/70_reset_and_hazards.md R368). -/
def Obligations.SetStores : Prop :=
  ∀ (b a : Operand) (s : State), Claims.row (.set b a) (.basic 0x01 b a) 1 ∧ baseCost s.params (.set b a) = 1 ∧
    let e := basicOperands 1 b a s
    exec (.set b a) s = .next (setRef e.bref e.aval e.st)

/-- spec/42_set_arithmetic.md R181: ADD. -/
def Obligations.AddResult : Prop :=
  ∀ (b a : Operand) (s : State), Claims.row (.add b a) (.basic 0x02 b a) 2 ∧
    let e := basicOperands (baseCost s.params (.add b a)) b a s
    exec (.add b a) s =
      .next (Claims.withResultAndEx e (e.bval + e.aval) (if e.bval.toNat + e.aval.toNat > 0xFFFF then 1 else 0))

/-- spec/42_set_arithmetic.md R182: SUB. -/
def Obligations.SubResult : Prop :=
  ∀ (b a : Operand) (s : State), Claims.row (.sub b a) (.basic 0x03 b a) 2 ∧
    let e := basicOperands (baseCost s.params (.sub b a)) b a s
    exec (.sub b a) s =
      .next (Claims.withResultAndEx e (e.bval - e.aval) (if e.bval.toNat < e.aval.toNat then 0xFFFF else 0))

/-- spec/42_set_arithmetic.md R183, R184: MUL and MLI; EX is the high half of the 32-bit product, unsigned for MUL and
signed for MLI. -/
def Obligations.ProductResults : Prop :=
  ∀ (b a : Operand) (s : State), Claims.row (.mul b a) (.basic 0x04 b a) 2 ∧
    Claims.row (.mli b a) (.basic 0x05 b a) 2 ∧
    (let e := basicOperands (baseCost s.params (.mul b a)) b a s
     exec (.mul b a) s =
       .next (Claims.withResultAndEx e (e.bval * e.aval)
         ((e.bval.setWidth 32 * e.aval.setWidth 32).extractLsb' 16 16))) ∧
    (let e := basicOperands (baseCost s.params (.mli b a)) b a s
     exec (.mli b a) s =
       .next (Claims.withResultAndEx e (e.bval * e.aval)
         ((e.bval.signExtend 32 * e.aval.signExtend 32).extractLsb' 16 16)))

/-- spec/42_set_arithmetic.md R185: DIV, by zero both 0; the exact product of EX is the spec's decision D9. -/
def Obligations.DivResult : Prop :=
  ∀ (b a : Operand) (s : State), Claims.row (.div b a) (.basic 0x06 b a) 3 ∧
    let e := basicOperands (baseCost s.params (.div b a)) b a s
    exec (.div b a) s =
      .next (if e.aval = 0 then Claims.withResultAndEx e 0 0
        else Claims.withResultAndEx e (e.bval / e.aval)
          (((e.bval.setWidth 32 <<< 16) / e.aval.setWidth 32).setWidth 16))

/-- spec/42_set_arithmetic.md R186: DVI, by zero both 0; rounding toward zero (D6), and, for the other value that the
parameter `DVI_ROUND` has in this model (log 5, the model's choice), toward minus infinity. -/
def Obligations.DviResult : Prop :=
  ∀ (b a : Operand) (s : State), Claims.row (.dvi b a) (.basic 0x07 b a) 3 ∧
    let e := basicOperands (baseCost s.params (.dvi b a)) b a s
    exec (.dvi b a) s =
      .next (if e.aval = 0 then Claims.withResultAndEx e 0 0
        else match s.params.dviRound with
          | .towardZero => Claims.withResultAndEx e (e.bval.sdiv e.aval)
              (BitVec.ofInt 16 ((e.bval.toInt * 65536).tdiv e.aval.toInt))
          | .towardMinusInf => Claims.withResultAndEx e (BitVec.ofInt 16 (e.bval.toInt.fdiv e.aval.toInt))
              (BitVec.ofInt 16 ((e.bval.toInt * 65536).fdiv e.aval.toInt)))

/-- spec/42_set_arithmetic.md R187, R188: MOD and MDI, by zero 0, EX untouched; MDI with the sign of the dividend (D6). For
the other value that `DVI_ROUND` has in this model (log 5, the model's choice) MDI has the sign of the divisor. -/
def Obligations.RemainderResults : Prop :=
  ∀ (b a : Operand) (s : State), Claims.row (.mod b a) (.basic 0x08 b a) 3 ∧
    Claims.row (.mdi b a) (.basic 0x09 b a) 3 ∧
    (let e := basicOperands (baseCost s.params (.mod b a)) b a s
     exec (.mod b a) s = .next (setRef e.bref (if e.aval = 0 then 0 else e.bval % e.aval) e.st)) ∧
    (let e := basicOperands (baseCost s.params (.mdi b a)) b a s
     exec (.mdi b a) s =
       .next (setRef e.bref
         (if e.aval = 0 then 0
           else match s.params.dviRound with
             | .towardZero => e.bval.srem e.aval
             | .towardMinusInf => e.bval.smod e.aval) e.st))

/-- spec/42_set_arithmetic.md R189, R190: ADX and SBX, with EX as the carry-in, an unsigned word that is added (D11
for SBX). -/
def Obligations.CarryResults : Prop :=
  ∀ (b a : Operand) (s : State), Claims.row (.adx b a) (.basic 0x1A b a) 3 ∧
    Claims.row (.sbx b a) (.basic 0x1B b a) 3 ∧
    (let e := basicOperands (baseCost s.params (.adx b a)) b a s
     exec (.adx b a) s =
       .next (Claims.withResultAndEx e (e.bval + e.aval + s.ex)
         (if e.bval.toNat + e.aval.toNat + s.ex.toNat > 0xFFFF then 1 else 0))) ∧
    (let e := basicOperands (baseCost s.params (.sbx b a)) b a s
     exec (.sbx b a) s =
       .next (Claims.withResultAndEx e (e.bval - e.aval + s.ex)
         (if e.bval.toNat + s.ex.toNat < e.aval.toNat then 0xFFFF
           else if e.bval.toNat + s.ex.toNat > e.aval.toNat + 0xFFFF then 1 else 0)))

/-- spec/42_set_arithmetic.md R192: for every divisor but 0 the signed quotient and remainder fit together,
`sb = sa * q + r` in 16 bits, and the remainder is smaller than the divisor in size. -/
def Obligations.SignedDivisionLaw : Prop :=
  ∀ (rounding : Config.DviRound) (b a : Word), a ≠ 0 →
    a * (dviResult rounding b a).value + mdiValue rounding b a = b ∧
    (mdiValue rounding b a).toInt.natAbs < a.toInt.natAbs

/-- spec/42_set_arithmetic.md R181, R182: `ADD x, y` and then `SUB x, y` on two different registers gives x its first
value again, and the SUB borrows (EX 0xFFFF) exactly when the ADD had carried (EX 1). -/
def Obligations.SubUndoesAdd : Prop :=
  ∀ (q r : GReg) (s : State), q ≠ r →
    ∃ t u, exec (.add (.reg q) (.reg r)) s = .next t ∧ exec (.sub (.reg q) (.reg r)) t = .next u ∧
      u.regs = s.regs ∧ (t.ex = 0 ∨ t.ex = 1) ∧ (u.ex = 0 ∨ u.ex = 0xFFFF) ∧ (u.ex = 0xFFFF ↔ t.ex = 1)

/-! ### Bitwise and shifts -/

/-- spec/43_bitwise_shift.md R210, R211, R212: AND, BOR, XOR; EX untouched (D7). -/
def Obligations.BitwiseResults : Prop :=
  ∀ (b a : Operand) (s : State),
    Claims.row (.and b a) (.basic 0x0A b a) 1 ∧ Claims.row (.bor b a) (.basic 0x0B b a) 1 ∧
    Claims.row (.xor b a) (.basic 0x0C b a) 1 ∧
    (let e := basicOperands (baseCost s.params (.and b a)) b a s
     exec (.and b a) s = .next (setRef e.bref (e.bval &&& e.aval) e.st)) ∧
    (let e := basicOperands (baseCost s.params (.bor b a)) b a s
     exec (.bor b a) s = .next (setRef e.bref (e.bval ||| e.aval) e.st)) ∧
    (let e := basicOperands (baseCost s.params (.xor b a)) b a s
     exec (.xor b a) s = .next (setRef e.bref (e.bval ^^^ e.aval) e.st))

/-- spec/43_bitwise_shift.md R213, R214, R215 with R216: the shifts, with EX the bits shifted out (D8). -/
def Obligations.ShiftResults : Prop :=
  ∀ (b a : Operand) (s : State),
    Claims.row (.shr b a) (.basic 0x0D b a) 1 ∧ Claims.row (.asr b a) (.basic 0x0E b a) 1 ∧
    Claims.row (.shl b a) (.basic 0x0F b a) 1 ∧
    (let e := basicOperands (baseCost s.params (.shr b a)) b a s
     let n := Claims.count e
     exec (.shr b a) s =
       .next (Claims.withResultAndEx e (e.bval >>> n) (((e.bval.setWidth 32 <<< 16) >>> n).setWidth 16))) ∧
    (let e := basicOperands (baseCost s.params (.asr b a)) b a s
     let n := Claims.count e
     exec (.asr b a) s =
       .next (Claims.withResultAndEx e (e.bval.sshiftRight n)
         (((e.bval.signExtend 32 <<< 16).sshiftRight n).setWidth 16))) ∧
    (let e := basicOperands (baseCost s.params (.shl b a)) b a s
     let n := Claims.count e
     exec (.shl b a) s =
       .next (Claims.withResultAndEx e (e.bval <<< n) (((e.bval.setWidth 32 <<< n) >>> 16).setWidth 16)))

/-! ### Conditionals -/

/-- spec/44_conditionals.md R230, R232 to R239: IFB, IFC, IFE, IFN, IFG, IFA, IFL, IFU complete with nothing more than
their operands when the predicate holds. The predicates are the spec's decision D10. -/
def Obligations.ConditionalHolds : Prop :=
  ∀ p ∈ Claims.conditionals, ∀ (b a : Operand) (s : State), Claims.row (p.instr b a) (.basic p.opcode b a) 2 ∧
    let e := basicOperands (baseCost s.params (p.instr b a)) b a s
    (p.holds e.bval e.aval = true → exec (p.instr b a) s = .next e.st)

/-- spec/44_conditionals.md R231, R240: IFB, IFC, IFE, IFN, IFG, IFA, IFL, IFU, when the predicate fails, pass over the
`k` conditionals that follow and the one instruction after them, executing nothing (D13), for 1 + k more cycles. The words
are read as a fetch reads them (log 18), through the read hooks or, where fetches see none, from raw memory. A word chains
exactly when it is the instruction word of one of the eight conditionals, in the machine's opcode table (log 2), so that a
special word and an unassigned one never do; in the default table that is `w[4:0] in 0x10..0x17`. THE MODEL'S CHOICE (log 17): a skip over 65536 conditionals (`Config.memSize`) or more is carried out over several steps of the model, and the step that
finds one in progress does nothing but go on with it, as R169 has it: nothing arrives and nothing is delivered inside. -/
def Obligations.ConditionalSkips : Prop :=
  (∀ (m : Config.OpMap) (w : Word) (ws rest : List Word) (i : Instr), decodeFor m (w :: ws) = .ok (i, rest) →
    (isConditionalFor m w = true ↔ ∃ p ∈ Claims.conditionals, ∃ b a, i = p.instr b a)) ∧
  (∀ w : Word, isConditionalFor Config.defaultOpMap w = true ↔ 0x10 ≤ w.toNat % 32 ∧ w.toNat % 32 ≤ 0x17) ∧
  ∀ (s : State) (k : Nat),
    (∀ p ∈ Claims.conditionals, ∀ b a : Operand,
      let e := basicOperands (baseCost s.params (p.instr b a)) b a s
      p.holds e.bval e.aval = false →
      (k < Config.memSize → (∀ j < k, Claims.atConditional (Claims.passed j e.st)) →
        ¬ Claims.atConditional (Claims.passed k e.st) →
        exec (p.instr b a) s =
          .next { Claims.passed (k + 1) e.st with cycle := e.st.cycle + 1 + k, skipping := false }) ∧
      ((∀ j < Config.memSize, Claims.atConditional (Claims.passed j e.st)) →
        exec (p.instr b a) s =
          .next { Claims.passed Config.memSize e.st with cycle := e.st.cycle + 1 + Config.memSize, skipping := true })) ∧
    (s.run = .running → s.skipping = true →
      (k < Config.memSize → (∀ j < k, Claims.atConditional (Claims.passed j s)) →
        ¬ Claims.atConditional (Claims.passed k s) →
        step s = .next { Claims.passed (k + 1) s with cycle := s.cycle + k, skipping := false }) ∧
      ((∀ j < Config.memSize, Claims.atConditional (Claims.passed j s)) →
        step s = .next { Claims.passed Config.memSize s with cycle := s.cycle + Config.memSize, skipping := true })) ∧
    (s.readHooks = [] ∨ s.params.fetchViaHooks = false →
      Claims.passed k s = { s with pc := Claims.pcPast s.mem k s.pc } ∧
      (Claims.atConditional s ↔ isConditionalFor s.params.opMap (s.mem.read s.pc) = true))

/-! ### Store-and-step, call, halts -/

/-- spec/45_move_control.md R250, R251: STI and STD store first and then step I and J together. -/
def Obligations.StoreAndStep : Prop :=
  ∀ (b a : Operand) (s : State),
    Claims.row (.sti b a) (.basic 0x1E b a) 2 ∧ Claims.row (.std b a) (.basic 0x1F b a) 2 ∧
    (let e := basicOperands (baseCost s.params (.sti b a)) b a s
     let u := setRef e.bref e.aval e.st
     exec (.sti b a) s =
       .next { u with regs := (u.regs.set .i (u.regs.get .i + 1)).set .j (u.regs.get .j + 1) }) ∧
    (let e := basicOperands (baseCost s.params (.std b a)) b a s
     let u := setRef e.bref e.aval e.st
     exec (.std b a) s =
       .next { u with regs := (u.regs.set .i (u.regs.get .i - 1)).set .j (u.regs.get .j - 1) })

/-- spec/45_move_control.md R252: JSR pushes the address of the word after it and jumps to the value read before. -/
def Obligations.JsrCalls : Prop :=
  ∀ (a : Operand) (s : State), Claims.row (.jsr a) (.special 0x01 a) 3 ∧
    let e := specialOperand (baseCost s.params (.jsr a)) a s
    exec (.jsr a) s =
      .next { memWrite (e.st.sp - 1) e.st.pc { e.st with sp := e.st.sp - 1 } with pc := e.aval }

/-- spec/45_move_control.md R252: the return of a call, `SET PC, POP`, goes back to the word after the JSR with SP as
the JSR's operand left it. -/
def Obligations.ReturnAfterCall : Prop :=
  ∀ (a : Operand) (s : State), s.Inv → s.noHooks →
    ∃ t u, exec (.jsr a) s = .next t ∧ exec (.set .pc .pop) t = .next u ∧
      u.pc = s.pc ∧ u.sp = (resolve .a a s).2.sp ∧ u.regs = s.regs ∧ u.ex = s.ex

/-- spec/45_move_control.md R253, R255: BRK and special opcode 0 stop the CPU and change nothing else, at cost 0 (for
BRK D2, D14, the default of COST). -/
def Obligations.HaltsStop : Prop :=
  ∀ (a : Operand) (s : State), Claims.row (.brk a) (.special 0x02 a) 0 ∧ Claims.row (.halt0 a) (.special 0x00 a) 0 ∧
    baseCost s.params (.halt0 a) = 0 ∧
    (let e := specialOperand (baseCost s.params (.brk a)) a s
     exec (.brk a) s = .next { e.st with run := .stopped }) ∧
    (let e := specialOperand 0 a s
     exec (.halt0 a) s = .next { e.st with run := .stopped })

/-- spec/45_move_control.md R254: HCF leaves the reset state, memory included, with the CPU stopped, notifies the host
once, and keeps devices and hooks (D19). THE MODEL'S CHOICE: it keeps the parameters (log 4), the agenda (log 12) and the
count of callback calls (log 11), and the host's notification is a count (log 21). -/
def Obligations.HcfResets : Prop :=
  ∀ (a : Operand) (s : State), Claims.row (.hcf a) (.special 0x07 a) 9 ∧
    exec (.hcf a) s =
      .next { State.reset with
        devices := s.devices, readHooks := s.readHooks, writeHooks := s.writeHooks, params := s.params,
        agenda := s.agenda, envTick := (specialOperand (baseCost s.params (.hcf a)) a s).st.envTick,
        endEvents := s.endEvents + 1 }

/-! ### Interrupts -/

/-- spec/46_interrupt_instructions.md R270, spec/60_exceptions.md R313, R314: INT is dropped without a handler, enters
the handler when delivering, and is queued when queueing with fewer than 256 messages, with or without a handler (D15). -/
def Obligations.IntCompletes : Prop :=
  ∀ (a : Operand) (s : State), Claims.row (.int a) (.special 0x08 a) 4 ∧ baseCost s.params (.int a) = 4 ∧
    let e := specialOperand 4 a s
    let u := memWrite (e.st.sp - 1) s.pc { e.st with sp := e.st.sp - 1 }
    let v := memWrite (e.st.sp - 2) s.regs.a { u with sp := e.st.sp - 2 }
    (s.queueing = false → s.ia = 0 → exec (.int a) s = .next e.st) ∧
    (s.queueing = false → s.ia ≠ 0 →
      exec (.int a) s = .next { v with pc := s.ia, regs := s.regs.set .a e.aval, queueing := true }) ∧
    (s.queueing = true → s.iq.length < 256 → exec (.int a) s = .next { e.st with iq := s.iq ++ [e.aval] })

/-- spec/60_exceptions.md R321: the message that would be the 257th, of an INT or of a request from outside, is the fatal
`OnFire`, which leaves FAULT_FIRE and is told apart from the decode error; of the host's actions only a reset leads out of
FAULT_FIRE. That a step in FAULT_FIRE does nothing is D20 (spec/41_step_cycle.md R161) with logs 12 and 20; that a request
has this effect in every run state is the model's reading of spec/60_exceptions.md R316 (D17; log 22). -/
def Obligations.IntOverflowCatchesFire : Prop :=
  (∀ (a : Operand) (s : State), s.queueing = true → s.iq.length = 256 →
    exec (.int a) s = .fault .onFire ∧ (∀ msg, hostAct (.act (.irq msg)) s = .fault .onFire)) ∧
  Fault.onFire.runState = .faultFire ∧ (∀ w, Fault.onFire ≠ .decodeFault w) ∧
  (∀ (h : HostAction) (t u : State), t.run = .faultFire → hostAct h t = .next u → h = .clear ∨ u.run = .faultFire) ∧
  (∀ t : State, t.run = .faultFire → t.agenda = [] → step t = .next t)

/-- spec/46_interrupt_instructions.md R271, R272: IAG writes IA to its operand, IAS writes its operand to
IA (which of the two does which the spec takes from general knowledge). -/
def Obligations.IagAndIas : Prop :=
  ∀ (a : Operand) (s : State), Claims.row (.iag a) (.special 0x09 a) 1 ∧ Claims.row (.ias a) (.special 0x0A a) 1 ∧
    (let e := specialOperand (baseCost s.params (.iag a)) a s
     exec (.iag a) s = .next (setRef e.aref s.ia e.st)) ∧
    (let e := specialOperand (baseCost s.params (.ias a)) a s
     exec (.ias a) s = .next { e.st with ia := e.aval })

/-- spec/46_interrupt_instructions.md R273: RFI resumes delivery, pops A and then PC. -/
def Obligations.RfiReturns : Prop :=
  ∀ (a : Operand) (s : State), Claims.row (.rfi a) (.special 0x0B a) 3 ∧
    let e := specialOperand (baseCost s.params (.rfi a)) a s
    let first := memRead e.st.sp e.st
    let second := memRead (e.st.sp + 1) first.2
    exec (.rfi a) s =
      .next { second.2 with
        queueing := false, regs := s.regs.set .a first.1, pc := second.1, sp := e.st.sp + 2 }

/-- spec/46_interrupt_instructions.md R274: IAQ. -/
def Obligations.IaqSetsQueueing : Prop :=
  ∀ (a : Operand) (s : State), Claims.row (.iaq a) (.special 0x0C a) 2 ∧
    let e := specialOperand (baseCost s.params (.iaq a)) a s
    exec (.iaq a) s = .next { e.st with queueing := e.aval != 0 }

/-- spec/60_exceptions.md R314, R318: an INT that enters its handler and the handler's RFI come back to the word after
the INT with every register, SP and EX as the INT's operand left them, and delivering. -/
def Obligations.RfiUndoesInt : Prop :=
  ∀ (a : Operand) (k : BitVec 5) (s : State), s.Inv → s.noHooks → s.queueing = false → s.ia ≠ 0 →
    ∃ t u, exec (.int a) s = .next t ∧ t.pc = s.ia ∧ t.queueing = true ∧ exec (.rfi (.short k)) t = .next u ∧
      u.pc = s.pc ∧ u.regs = s.regs ∧ u.sp = (resolve .a a s).2.sp ∧ u.ex = s.ex ∧ u.ia = s.ia ∧
      u.queueing = false ∧
      ∀ addr, addr ≠ u.sp - 1 → addr ≠ u.sp - 2 → u.mem.read addr = s.mem.read addr

/-! ### Devices -/

/-- spec/47_hardware_instructions.md R290: HWN; with 65536 devices the word is 0 (the spec's own inference; log 25). -/
def Obligations.HwnCounts : Prop :=
  ∀ (a : Operand) (s : State), Claims.row (.hwn a) (.special 0x10 a) 2 ∧
    let e := specialOperand (baseCost s.params (.hwn a)) a s
    exec (.hwn a) s = .next (setRef e.aref (BitVec.ofNat 16 s.devices.length) e.st)

/-- spec/47_hardware_instructions.md R291: HWQ spreads the device's fields over A, B, C, X, Y, or zeroes all five. -/
def Obligations.HwqReports : Prop :=
  ∀ (a : Operand) (s : State), Claims.row (.hwq a) (.special 0x11 a) 4 ∧
    let e := specialOperand (baseCost s.params (.hwq a)) a s
    ∃ t, exec (.hwq a) s = .next t ∧ t = { e.st with regs := t.regs } ∧
      t.regs.z = s.regs.z ∧ t.regs.i = s.regs.i ∧ t.regs.j = s.regs.j ∧
      (∀ d, s.devices[e.aval.toNat]? = some d →
        t.regs.b ++ t.regs.a = d.ident ∧ t.regs.c = d.version ∧ t.regs.y ++ t.regs.x = d.manufacturer) ∧
      (s.devices.length ≤ e.aval.toNat →
        t.regs.a = 0 ∧ t.regs.b = 0 ∧ t.regs.c = 0 ∧ t.regs.x = 0 ∧ t.regs.y = 0)

/-- spec/47_hardware_instructions.md R292: HWI of a device that does not exist or has no handler does nothing; of a
device with a handler it carries out what the handler does (a free value, log 10) inside its step, adds the cycles of the
device's own, and pauses when the handler asks for it. -/
def Obligations.HwiInvokes : Prop :=
  ∀ (a : Operand) (s : State), Claims.row (.hwi a) (.special 0x12 a) 4 ∧
    let e := specialOperand (baseCost s.params (.hwi a)) a s
    ((∀ d, s.devices[e.aval.toNat]? = some d → d.hasHandler = false) → exec (.hwi a) s = .next e.st) ∧
    (∀ d, s.devices[e.aval.toNat]? = some d → d.hasHandler = true →
      exec (.hwi a) s =
        match deviceActs (Config.deviceActions e.aval.toNat e.st.view e.st.envTick)
            { e.st with envTick := e.st.envTick + 1 } with
        | .next t =>
          .next { t with
            run := if Config.devicePauses e.aval.toNat e.st.view e.st.envTick then .paused else t.run
            cycle := t.cycle + Config.deviceCycles e.aval.toNat e.st.view e.st.envTick }
        | .fault x => .fault x
        | .refused x => .refused x)

/-! ### Unassigned opcodes -/

/-- spec/30_encoding.md R101, R103, spec/60_exceptions.md R320: executing an unassigned opcode is the fatal decode error
in every state, with every operand; the fault carries the instruction word, in the machine's own opcode numbers, and leaves
FAULT_DECODE. Which numbers are unassigned is the machine's OPMAP (log 2). -/
def Obligations.UnassignedFault : Prop :=
  ∀ (b a : Operand) (s : State),
    ∀ i ∈ [Instr.unassignedBasic18 b a, .unassignedBasic19 b a, .unassignedBasic1C b a, .unassignedBasic1D b a,
      .unassignedSpecial03 a, .unassignedSpecial04 a, .unassignedSpecial05 a, .unassignedSpecial06 a,
      .unassignedSpecial0D a, .unassignedSpecial0E a, .unassignedSpecial0F a, .unassignedSpecial13 a,
      .unassignedSpecial14 a, .unassignedSpecial15 a, .unassignedSpecial16 a, .unassignedSpecial17 a,
      .unassignedSpecial18 a, .unassignedSpecial19 a, .unassignedSpecial1A a, .unassignedSpecial1B a,
      .unassignedSpecial1C a, .unassignedSpecial1D a, .unassignedSpecial1E a, .unassignedSpecial1F a],
    ∃ w, (encodeFor s.params.opMap i).head? = some w ∧ exec i s = .fault (.decodeFault w) ∧
      (Fault.decodeFault w).runState = .faultDecode

/-! ### Frames -/

/-- Frame of ADD SUB MUL MLI DIV DVI ADX SBX SHR ASR SHL and of SET MOD MDI AND BOR XOR: only the destination (the
reference of operand `b`), SP by a POP or PUSH operand, and the cycle counter are written, and EX by the first eleven
beside the destination (spec/10_state.md R23). -/
def Obligations.FrameOfResultWriters : Prop :=
  ∀ (b a : Operand) (s t : State), s.Inv → ∀ i ∈ Claims.exWriters b a ++ Claims.exKeepers b a, exec i s = .next t →
    let d := (basicOperands (baseCost s.params i) b a s).bref
    Claims.onlyDestination s t d (resolve .b b (resolve .a a s).2).2.sp ∧
    (i ∈ Claims.exKeepers b a → d ≠ .reg .ex → t.ex = s.ex) ∧ Claims.sameControl s t ∧
    t.cycle = s.cycle + baseCost s.params i

/-- Frame of STI and STD: only the destination, I and J, SP by a POP or PUSH operand, and the cycle counter. -/
def Obligations.FrameOfStoreAndStep : Prop :=
  ∀ (b a : Operand) (s t : State), s.Inv → ∀ i ∈ [Instr.sti b a, .std b a], exec i s = .next t →
    let d := (basicOperands (baseCost s.params i) b a s).bref
    (∀ r, r ≠ .i → r ≠ .j → d ≠ .reg (.gen r) → t.regs.get r = s.regs.get r) ∧
    (d ≠ .reg .sp → t.sp = (resolve .b b (resolve .a a s).2).2.sp) ∧ (d ≠ .reg .pc → t.pc = s.pc) ∧
    (d ≠ .reg .ex → t.ex = s.ex) ∧ (∀ addr, d ≠ .mem addr → t.mem.read addr = s.mem.read addr) ∧
    Claims.sameControl s t ∧ t.cycle = s.cycle + baseCost s.params i

/-- spec/44_conditionals.md R230, R231: IFB IFC IFE IFN IFG IFA IFL IFU answer a next state in every state, with every
operand ("No IFx can raise a fault"), and their frame: nothing is written, EX and memory included, whether the predicate
holds or not; only PC and the cycle counter move, and SP by an operand of the conditional itself, and the model's own field
says whether the skip is still in progress (log 17). -/
def Obligations.FrameOfConditionals : Prop :=
  ∀ p ∈ Claims.conditionals, ∀ (b a : Operand) (s : State), ∃ t, exec (p.instr b a) s = .next t ∧
    t.regs = s.regs ∧ t.sp = (resolve .b b (resolve .a a s).2).2.sp ∧ t.ex = s.ex ∧ t.mem = s.mem ∧
    Claims.sameControl s { t with skipping := s.skipping } ∧ s.cycle + baseCost s.params (p.instr b a) ≤ t.cycle

/-- Frame of the special instructions that store nothing, IAS IAQ RFI HWQ BRK and special opcode 0: memory, EX, the
queue, devices and hooks stay, and each writes only what its rule names. -/
def Obligations.FrameOfSpecials : Prop :=
  ∀ (a : Operand) (s t : State), ∀ i ∈ [Instr.ias a, .iaq a, .rfi a, .hwq a, .brk a, .halt0 a], exec i s = .next t →
    t.mem = s.mem ∧ t.ex = s.ex ∧ t.iq = s.iq ∧ t.devices = s.devices ∧ t.readHooks = s.readHooks ∧
    t.writeHooks = s.writeHooks ∧ t.params = s.params ∧ t.agenda = s.agenda ∧ t.endEvents = s.endEvents ∧ t.skipping = s.skipping ∧
    t.cycle = s.cycle + baseCost s.params i ∧
    (i ≠ .ias a → t.ia = s.ia) ∧ (i ∉ [Instr.iaq a, .rfi a] → t.queueing = s.queueing) ∧
    (i ∉ [Instr.brk a, .halt0 a] → t.run = s.run) ∧
    (i ≠ .rfi a → t.pc = s.pc ∧ t.sp = (resolve .a a s).2.sp) ∧
    (i ∉ [Instr.rfi a, .hwq a] → t.regs = s.regs) ∧
    (i = .rfi a → ∀ r, r ≠ .a → t.regs.get r = s.regs.get r) ∧
    (i = .hwq a → ∀ r ∈ [GReg.z, .i, .j], t.regs.get r = s.regs.get r)

/-- Frame of IAG and HWN, whose operand is the destination. -/
def Obligations.FrameOfIagAndHwn : Prop :=
  ∀ (a : Operand) (s t : State), s.Inv → ∀ i ∈ [Instr.iag a, .hwn a], exec i s = .next t →
    let d := (specialOperand (baseCost s.params i) a s).aref
    Claims.onlyDestination s t d (resolve .a a s).2.sp ∧ (d ≠ .reg .ex → t.ex = s.ex) ∧
    Claims.sameControl s t ∧ t.cycle = s.cycle + baseCost s.params i

/-- Frame of JSR and INT, which store to the stack: JSR to the word below SP, INT to the two words below SP and only when
it enters the handler; B, C, X, Y, Z, I, J, EX and IA stay. -/
def Obligations.FrameOfStackWriters : Prop :=
  ∀ (a : Operand) (s t : State), s.Inv → ∀ i ∈ [Instr.jsr a, .int a], exec i s = .next t →
    let sp := (specialOperand (baseCost s.params i) a s).st.sp
    (∀ addr, addr ≠ sp - 1 → (i = .int a → addr ≠ sp - 2) → t.mem.read addr = s.mem.read addr) ∧
    (i = .int a → (s.queueing = true ∨ s.ia = 0) → t.mem = s.mem ∧ t.regs = s.regs ∧ t.sp = sp) ∧
    (∀ r, (i = .int a → r ≠ .a) → t.regs.get r = s.regs.get r) ∧ t.ex = s.ex ∧ t.ia = s.ia ∧ t.run = s.run ∧
    t.devices = s.devices ∧ t.readHooks = s.readHooks ∧ t.writeHooks = s.writeHooks ∧ t.params = s.params ∧
    t.agenda = s.agenda ∧ t.endEvents = s.endEvents ∧ t.skipping = s.skipping ∧ t.cycle = s.cycle + baseCost s.params i ∧
    (i = .jsr a → t.queueing = s.queueing ∧ t.iq = s.iq)

/-! ### The step -/

/-- spec/41_step_cycle.md R160, R162, R171, spec/20_memory.md R64: a machine that runs once what arrives before the step
has been carried out, and in which no skip is in progress (log 17), delivers at most one queued message and then fetches
the instruction word at PC and as many words after it as its fields say, in this order, each through the read hooks when
`FETCH_VIA_HOOKS` is on; they decode, in the machine's opcode table, to one instruction, and the step runs it, with PC past
its words and one cycle for each next word. Where fetches see no read hooks the words are those of raw memory and the fetch
leaves the state alone. What arrives is the model's agenda (log 12). -/
def Obligations.StepRunsDecoded : Prop :=
  ∀ s v : State, s.skipping = false → arrivals s = .next v → v.run = .running →
    let u := deliverQueued v
    let n := extraWords (fetchRead u.pc u).1
    let f := Claims.fetched (1 + n) u.pc u
    (∃ i, decodeFor u.params.opMap f.1 = .ok (i, []) ∧
      step s = exec i { f.2 with pc := u.pc + 1 + BitVec.ofNat 16 n, cycle := u.cycle + n }) ∧
    f.2 = { u with envTick := f.2.envTick } ∧
    (u.readHooks = [] ∨ u.params.fetchViaHooks = false →
      f.2 = u ∧ f.1 = (List.range (1 + n)).map fun k => u.mem.read (u.pc + BitVec.ofNat 16 k))

/-- spec/60_exceptions.md R315: the start-of-step delivery takes the head of the queue and triggers it, when delivering
and the queue is not empty; else it does nothing. That a message without a handler is dropped there is D15, D16. -/
def Obligations.DeliveryTakesHead : Prop :=
  ∀ (s : State) (msg : Word) (rest : List Word),
    (s.queueing = true → deliverQueued s = s) ∧ (s.iq = [] → deliverQueued s = s) ∧
    (s.queueing = false → s.iq = msg :: rest → s.ia = 0 → deliverQueued s = { s with iq := rest }) ∧
    (s.queueing = false → s.iq = msg :: rest → s.ia ≠ 0 →
      let u := memWrite (s.sp - 1) s.pc { s with iq := rest, sp := s.sp - 1 }
      deliverQueued s =
        { memWrite (s.sp - 2) s.regs.a { u with sp := s.sp - 2 } with
          pc := s.ia, regs := s.regs.set .a msg, queueing := true })

/-- spec/41_step_cycle.md R161: a step does something only when running (D20 for the states but PAUSED; what arrives before
the step is the model's agenda, log 12). -/
def Obligations.StepAtRest : Prop :=
  ∀ s : State, s.agenda = [] → s.run ≠ .running → step s = .next s

/-- The instruction that `withFetchWord` places is the one that the next step runs (log 7, the model's way of loading). -/
def Obligations.PlacedInstructionRuns : Prop :=
  ∀ (s : State) (nbits w : Nat) (i : Instr), s.Inv → decodeTableWord nbits w = some i →
    let f := s.withFetchWord nbits w
    step f = exec i { f with
      agenda := s.agenda.tail, pc := s.pc + BitVec.ofNat 16 (encode i).length
      cycle := s.cycle + ((encode i).length - 1) }

/-- spec/10_state.md R27, spec/70_reset_and_hazards.md section 5: no rule's result depends on the cycle counter: two
states that differ in it alone step to outcomes that differ in it alone. -/
def Obligations.CycleUnobservable : Prop :=
  ∀ (s : State) (n : Nat), Claims.sameButCycle (step s) (step { s with cycle := n })

/-- spec/10_state.md R24: of the instructions only IAS and a reset by HCF change IA, but for what a device does inside
an HWI (spec/60_exceptions.md R329). spec/60_exceptions.md R325: no instruction adds or removes a device, HWI included. -/
def Obligations.IaAndRegistryWriters : Prop :=
  ∀ (i : Instr) (s t : State), exec i s = .next t →
    (t.ia ≠ s.ia → ∃ a, i ∈ [Instr.ias a, .hcf a, .hwi a]) ∧ t.devices = s.devices

/-! ### Host and devices between steps -/

/-- What the host and the devices do between steps. spec/60_exceptions.md R316, R331, spec/70_reset_and_hazards.md R350,
R353: an interrupt request has the effect of `Interrupt(msg)`; start runs a stopped CPU at its PC; stop stops a running one;
resume runs a CPU if it is paused and else does nothing; no action but `clear()` leads out of a fault state. spec/60_exceptions.md R325, R328, R329,
spec/20_memory.md R64 to R66: a write of a named register writes that register alone, a write and a read of a memory word are
`MemWrite` and `MemRead`; a device is added behind the others while fewer than 65536 are registered; a hook is added
behind the others, and one that passes 0xFFFF is refused. THE MODEL'S CHOICE: a request acts in every run state (log 22);
start of a CPU that is not stopped and stop of one that is not running do nothing (log 13); a device too many changes nothing (log 16); a wrapping
hook is a refusal of the step (log 15). -/
def Obligations.HostControl : Prop :=
  ∀ (s : State) (msg addr v : Word) (r : RegName) (d : Device) (k : Hook),
    hostAct (.act (.irq msg)) s = interrupt msg s ∧
    (s.run = .stopped → hostAct .start s = .next { s with run := .running }) ∧
    (s.run = .running → hostAct .stop s = .next { s with run := .stopped }) ∧
    (s.run = .paused → hostAct (.act .resume) s = .next { s with run := .running }) ∧
    (s.run ≠ .stopped → hostAct .start s = .next s) ∧
    (s.run ≠ .running → hostAct .stop s = .next s) ∧
    (s.run ≠ .paused → hostAct (.act .resume) s = .next s) ∧
    hostAct .clear s = .next s.clear ∧
    (∀ (h : HostAction) (t : State), s.run = .faultDecode ∨ s.run = .faultFire → hostAct h s = .next t →
      h = .clear ∨ t.run = s.run) ∧
    (∃ t, hostAct (.act (.setReg r v)) s = .next t ∧ t.getReg r = v ∧ (∀ q, q ≠ r → t.getReg q = s.getReg q) ∧
      t = { s with regs := t.regs, pc := t.pc, sp := t.sp, ex := t.ex, ia := t.ia }) ∧
    hostAct (.act (.setMem addr v)) s = .next (memWrite addr v s) ∧
    hostAct (.act (.getMem addr)) s = .next (memRead addr s).2 ∧
    (s.devices.length < 65536 → hostAct (.addDevice d) s = .next { s with devices := s.devices ++ [d] }) ∧
    (65536 ≤ s.devices.length → hostAct (.addDevice d) s = .next s) ∧
    (k.base.toNat + k.length ≤ 65536 →
      hostAct (.act (.onGet k)) s = .next { s with readHooks := s.readHooks ++ [k] } ∧
      hostAct (.act (.onSet k)) s = .next { s with writeHooks := s.writeHooks ++ [k] }) ∧
    (65536 < k.base.toNat + k.length →
      hostAct (.act (.onGet k)) s = .refused .hookWraps ∧ hostAct (.act (.onSet k)) s = .refused .hookWraps)

/-- spec/70_reset_and_hazards.md R352: a load that fits puts each word at its address and changes nothing else; one that
does not fit is refused. THE MODEL'S CHOICE: the words go into raw memory and nothing else happens also where write hooks cover
the range (log 14). -/
def Obligations.LoadPlacesWords : Prop :=
  ∀ (s : State) (words : List Word) (origin : Word), s.Inv →
    (origin.toNat + words.length ≤ 65536 → ∃ t, hostAct (.load words origin) s = .next t ∧
      t = { s with mem := t.mem } ∧
      (∀ (k : Nat) (w : Word), words[k]? = some w → t.mem.read (origin + BitVec.ofNat 16 k) = w) ∧
      (∀ addr : Word, addr.toNat < origin.toNat ∨ origin.toNat + words.length ≤ addr.toNat →
        t.mem.read addr = s.mem.read addr)) ∧
    (65536 < origin.toNat + words.length → hostAct (.load words origin) s = .refused .loadDoesNotFit)
end

