-- ==== Sys2Proof/Laws/PerInstr.lean ====
section
/-! SUPPORT. Per-instruction laws: the opcode number and the operands that the encoder gives an instruction name that
instruction again (spec/30_encoding.md R100 to R104, R116). -/

namespace Sys2Proof.Laws.ShapeNamesInstr

/-- The shape of an instruction leads back to it through the decoder's tables, and holds its operands. -/
def Statement (i : Instr) : Prop :=
  match i.shape with
  | .basic o b a => o ≠ 0 ∧ basicInstr o b a = some i ∧ i.operands = (a, some b)
  | .special s a => specialInstr s a = i ∧ i.operands = (a, none)

theorem set (b a : Operand) : Statement (.set b a) := ⟨by decide, rfl, rfl⟩
theorem add (b a : Operand) : Statement (.add b a) := ⟨by decide, rfl, rfl⟩
theorem sub (b a : Operand) : Statement (.sub b a) := ⟨by decide, rfl, rfl⟩
theorem mul (b a : Operand) : Statement (.mul b a) := ⟨by decide, rfl, rfl⟩
theorem mli (b a : Operand) : Statement (.mli b a) := ⟨by decide, rfl, rfl⟩
theorem div (b a : Operand) : Statement (.div b a) := ⟨by decide, rfl, rfl⟩
theorem dvi (b a : Operand) : Statement (.dvi b a) := ⟨by decide, rfl, rfl⟩
theorem mod (b a : Operand) : Statement (.mod b a) := ⟨by decide, rfl, rfl⟩
theorem mdi (b a : Operand) : Statement (.mdi b a) := ⟨by decide, rfl, rfl⟩
theorem and (b a : Operand) : Statement (.and b a) := ⟨by decide, rfl, rfl⟩
theorem bor (b a : Operand) : Statement (.bor b a) := ⟨by decide, rfl, rfl⟩
theorem xor (b a : Operand) : Statement (.xor b a) := ⟨by decide, rfl, rfl⟩
theorem shr (b a : Operand) : Statement (.shr b a) := ⟨by decide, rfl, rfl⟩
theorem asr (b a : Operand) : Statement (.asr b a) := ⟨by decide, rfl, rfl⟩
theorem shl (b a : Operand) : Statement (.shl b a) := ⟨by decide, rfl, rfl⟩
theorem ifb (b a : Operand) : Statement (.ifb b a) := ⟨by decide, rfl, rfl⟩
theorem ifc (b a : Operand) : Statement (.ifc b a) := ⟨by decide, rfl, rfl⟩
theorem ife (b a : Operand) : Statement (.ife b a) := ⟨by decide, rfl, rfl⟩
theorem ifn (b a : Operand) : Statement (.ifn b a) := ⟨by decide, rfl, rfl⟩
theorem ifg (b a : Operand) : Statement (.ifg b a) := ⟨by decide, rfl, rfl⟩
theorem ifa (b a : Operand) : Statement (.ifa b a) := ⟨by decide, rfl, rfl⟩
theorem ifl (b a : Operand) : Statement (.ifl b a) := ⟨by decide, rfl, rfl⟩
theorem ifu (b a : Operand) : Statement (.ifu b a) := ⟨by decide, rfl, rfl⟩
theorem adx (b a : Operand) : Statement (.adx b a) := ⟨by decide, rfl, rfl⟩
theorem sbx (b a : Operand) : Statement (.sbx b a) := ⟨by decide, rfl, rfl⟩
theorem sti (b a : Operand) : Statement (.sti b a) := ⟨by decide, rfl, rfl⟩
theorem std (b a : Operand) : Statement (.std b a) := ⟨by decide, rfl, rfl⟩
theorem unassignedBasic18 (b a : Operand) : Statement (.unassignedBasic18 b a) := ⟨by decide, rfl, rfl⟩
theorem unassignedBasic19 (b a : Operand) : Statement (.unassignedBasic19 b a) := ⟨by decide, rfl, rfl⟩
theorem unassignedBasic1C (b a : Operand) : Statement (.unassignedBasic1C b a) := ⟨by decide, rfl, rfl⟩
theorem unassignedBasic1D (b a : Operand) : Statement (.unassignedBasic1D b a) := ⟨by decide, rfl, rfl⟩
theorem halt0 (a : Operand) : Statement (.halt0 a) := ⟨rfl, rfl⟩
theorem jsr (a : Operand) : Statement (.jsr a) := ⟨rfl, rfl⟩
theorem brk (a : Operand) : Statement (.brk a) := ⟨rfl, rfl⟩
theorem hcf (a : Operand) : Statement (.hcf a) := ⟨rfl, rfl⟩
theorem int (a : Operand) : Statement (.int a) := ⟨rfl, rfl⟩
theorem iag (a : Operand) : Statement (.iag a) := ⟨rfl, rfl⟩
theorem ias (a : Operand) : Statement (.ias a) := ⟨rfl, rfl⟩
theorem rfi (a : Operand) : Statement (.rfi a) := ⟨rfl, rfl⟩
theorem iaq (a : Operand) : Statement (.iaq a) := ⟨rfl, rfl⟩
theorem hwn (a : Operand) : Statement (.hwn a) := ⟨rfl, rfl⟩
theorem hwq (a : Operand) : Statement (.hwq a) := ⟨rfl, rfl⟩
theorem hwi (a : Operand) : Statement (.hwi a) := ⟨rfl, rfl⟩
theorem unassignedSpecial03 (a : Operand) : Statement (.unassignedSpecial03 a) := ⟨rfl, rfl⟩
theorem unassignedSpecial04 (a : Operand) : Statement (.unassignedSpecial04 a) := ⟨rfl, rfl⟩
theorem unassignedSpecial05 (a : Operand) : Statement (.unassignedSpecial05 a) := ⟨rfl, rfl⟩
theorem unassignedSpecial06 (a : Operand) : Statement (.unassignedSpecial06 a) := ⟨rfl, rfl⟩
theorem unassignedSpecial0D (a : Operand) : Statement (.unassignedSpecial0D a) := ⟨rfl, rfl⟩
theorem unassignedSpecial0E (a : Operand) : Statement (.unassignedSpecial0E a) := ⟨rfl, rfl⟩
theorem unassignedSpecial0F (a : Operand) : Statement (.unassignedSpecial0F a) := ⟨rfl, rfl⟩
theorem unassignedSpecial13 (a : Operand) : Statement (.unassignedSpecial13 a) := ⟨rfl, rfl⟩
theorem unassignedSpecial14 (a : Operand) : Statement (.unassignedSpecial14 a) := ⟨rfl, rfl⟩
theorem unassignedSpecial15 (a : Operand) : Statement (.unassignedSpecial15 a) := ⟨rfl, rfl⟩
theorem unassignedSpecial16 (a : Operand) : Statement (.unassignedSpecial16 a) := ⟨rfl, rfl⟩
theorem unassignedSpecial17 (a : Operand) : Statement (.unassignedSpecial17 a) := ⟨rfl, rfl⟩
theorem unassignedSpecial18 (a : Operand) : Statement (.unassignedSpecial18 a) := ⟨rfl, rfl⟩
theorem unassignedSpecial19 (a : Operand) : Statement (.unassignedSpecial19 a) := ⟨rfl, rfl⟩
theorem unassignedSpecial1A (a : Operand) : Statement (.unassignedSpecial1A a) := ⟨rfl, rfl⟩
theorem unassignedSpecial1B (a : Operand) : Statement (.unassignedSpecial1B a) := ⟨rfl, rfl⟩
theorem unassignedSpecial1C (a : Operand) : Statement (.unassignedSpecial1C a) := ⟨rfl, rfl⟩
theorem unassignedSpecial1D (a : Operand) : Statement (.unassignedSpecial1D a) := ⟨rfl, rfl⟩
theorem unassignedSpecial1E (a : Operand) : Statement (.unassignedSpecial1E a) := ⟨rfl, rfl⟩
theorem unassignedSpecial1F (a : Operand) : Statement (.unassignedSpecial1F a) := ⟨rfl, rfl⟩

end Sys2Proof.Laws.ShapeNamesInstr
end

