-- ==== Sys2Proof/Laws/Decode.lean ====
section
/-! SUPPORT. The fields of the words the encoder builds, the operands of codes, and the codes of operands. -/

namespace Sys2Proof

/-! ### Fields of a word -/

theorem fieldO_toNat (w : Word) : (fieldO w).toNat = w.toNat % 32 := by
  simp [fieldO, BitVec.extractLsb'_toNat]

theorem fieldB_toNat (w : Word) : (fieldB w).toNat = w.toNat / 32 % 32 := by
  simp [fieldB, BitVec.extractLsb'_toNat, Nat.shiftRight_eq_div_pow]

theorem fieldA_toNat (w : Word) : (fieldA w).toNat = w.toNat / 1024 := by
  have := w.isLt
  simp only [fieldA, BitVec.extractLsb'_toNat, Nat.shiftRight_eq_div_pow]
  omega

theorem basicWord_toNat (a : BitVec 6) (b o : BitVec 5) :
    (basicWord a b o).toNat = a.toNat * 1024 + b.toNat * 32 + o.toNat := by
  have := a.isLt
  have := b.isLt
  have := o.isLt
  rw [basicWord, BitVec.toNat_ofNat, Nat.mod_eq_of_lt (by omega)]

theorem specialWord_eq (a : BitVec 6) (s : BitVec 5) : specialWord a s = basicWord a s 0 := by
  simp [specialWord, basicWord]

@[simp] theorem fieldO_basicWord (a : BitVec 6) (b o : BitVec 5) : fieldO (basicWord a b o) = o := by
  apply BitVec.eq_of_toNat_eq
  rw [fieldO_toNat, basicWord_toNat]
  omega

@[simp] theorem fieldB_basicWord (a : BitVec 6) (b o : BitVec 5) : fieldB (basicWord a b o) = b := by
  apply BitVec.eq_of_toNat_eq
  rw [fieldB_toNat, basicWord_toNat]
  omega

@[simp] theorem fieldA_basicWord (a : BitVec 6) (b o : BitVec 5) : fieldA (basicWord a b o) = a := by
  apply BitVec.eq_of_toNat_eq
  rw [fieldA_toNat, basicWord_toNat]
  omega

@[simp] theorem fieldO_specialWord (a : BitVec 6) (s : BitVec 5) : fieldO (specialWord a s) = 0 := by
  rw [specialWord_eq, fieldO_basicWord]

@[simp] theorem fieldB_specialWord (a : BitVec 6) (s : BitVec 5) : fieldB (specialWord a s) = s := by
  rw [specialWord_eq, fieldB_basicWord]

@[simp] theorem fieldA_specialWord (a : BitVec 6) (s : BitVec 5) : fieldA (specialWord a s) = a := by
  rw [specialWord_eq, fieldA_basicWord]

/-- A word is the word of its fields. -/
theorem basicWord_fields (w : Word) : basicWord (fieldA w) (fieldB w) (fieldO w) = w := by
  apply BitVec.eq_of_toNat_eq
  rw [basicWord_toNat, fieldA_toNat, fieldB_toNat, fieldO_toNat]
  omega

/-- The `b` code goes into its 5-bit field and comes back. -/
theorem codeOfB_setWidth {c : BitVec 6} (h : c.toNat < 32) : codeOfB (c.setWidth 5) = c := by
  apply BitVec.eq_of_toNat_eq
  simp only [codeOfB, BitVec.toNat_setWidth]
  omega

/-! ### Operands and codes -/

/-- An operand has a next word exactly when its code consumes one (spec/30_encoding.md R94, R95). -/
theorem consumesNext_code (o : Operand) : consumesNext o.code = !o.next.isEmpty := by
  cases o with
  | reg r => cases r <;> rfl
  | regInd r => cases r <;> rfl
  | regOff r n => cases r <;> rfl
  | short k => revert k; decide
  | _ => rfl

/-- The code of a `b` operand fits the 5-bit field (R91). -/
theorem code_lt_of_okB {o : Operand} (h : o.okB = true) : o.code.toNat < 32 := by
  cases o with
  | reg r => cases r <;> decide
  | regInd r => cases r <;> decide
  | regOff r n =>
    show (Operand.regOff r 0).code.toNat < 32
    cases r <;> decide
  | pop => cases h
  | short k => cases h
  | _ => exact Nat.lt_of_lt_of_le (Nat.lt_succ_self _) (by with_unfolding_all exact Nat.le_of_ble_eq_true rfl)

/-- The operand of a code is the operand the code was made from, when it exists in position `a` (R95, R111). -/
theorem operandOf_code_a {o : Operand} (h : o.okA = true) : operandOf .a o.code (o.next.headD 0) = o := by
  cases o with
  | reg r => cases r <;> rfl
  | regInd r => cases r <;> rfl
  | regOff r n => cases r <;> with_unfolding_all rfl
  | push => cases h
  | short k => revert k; decide
  | _ => with_unfolding_all rfl

/-- As `operandOf_code_a`, in position `b`. -/
theorem operandOf_code_b {o : Operand} (h : o.okB = true) : operandOf .b o.code (o.next.headD 0) = o := by
  cases o with
  | reg r => cases r <;> rfl
  | regInd r => cases r <;> rfl
  | regOff r n => cases r <;> with_unfolding_all rfl
  | pop => cases h
  | short k => cases h
  | _ => with_unfolding_all rfl

/-- The code of the operand of a code is the code (R111). -/
theorem code_operandOf (p : Pos) (c : BitVec 6) (n : Word) : (operandOf p c n).code = c := by
  have h : ∀ p : Pos, ∀ c : BitVec 6, (operandOf p c n).code = (operandOf p c 0).code := by
    intro p c
    unfold operandOf
    repeat' split
    all_goals rfl
  rw [h]
  revert c
  cases p <;> decide

/-- The next word of the operand of a code is the word it was given, where the code consumes one. -/
theorem next_operandOf (p : Pos) (c : BitVec 6) (n : Word) :
    (operandOf p c n).next = if consumesNext c then [n] else [] := by
  have h : (operandOf p c n).next = if (operandOf p c n).next.isEmpty then [] else [n] := by
    unfold operandOf
    repeat' split
    all_goals simp_all [Operand.next]
  rw [h]
  have := consumesNext_code (operandOf p c n)
  rw [code_operandOf] at this
  rw [this]
  cases (operandOf p c n).next.isEmpty <;> rfl

/-- The operand of a code exists in its position. -/
theorem operandOf_okA (c : BitVec 6) (n : Word) : (operandOf .a c n).okA = true := by
  unfold operandOf
  repeat' split
  all_goals first | rfl | contradiction

theorem operandOf_okB {c : BitVec 6} (h : c.toNat < 32) (n : Word) : (operandOf .b c n).okB = true := by
  have hg : (c.extractLsb' 3 3).toNat < 4 := by
    simp only [BitVec.extractLsb'_toNat, Nat.shiftRight_eq_div_pow]
    omega
  unfold operandOf
  repeat' split
  all_goals first | rfl | contradiction | (exfalso; simp_all; omega)

theorem codeOfB_lt (b : BitVec 5) : (codeOfB b).toNat < 32 := by
  have := b.isLt
  simp only [codeOfB, BitVec.toNat_setWidth]
  omega

/-! ### Taking a next word -/

/-- The encoder's next words are taken again, and nothing else. -/
theorem takeNext_next (o : Operand) (e : DecodeError) (rest : List Word) :
    takeNext o.code e (o.next ++ rest) = .ok (o.next.headD 0, rest) := by
  unfold takeNext
  rw [consumesNext_code]
  cases o <;> rfl

/-- What taking a next word can answer. -/
theorem takeNext_eq_ok {c : BitVec 6} {e : DecodeError} {ws rest : List Word} {n : Word} :
    takeNext c e ws = .ok (n, rest) ↔
      (consumesNext c = true ∧ ws = n :: rest) ∨ (consumesNext c = false ∧ n = 0 ∧ ws = rest) := by
  unfold takeNext
  cases consumesNext c
  · constructor
    · intro h
      cases h
      exact Or.inr ⟨rfl, rfl, rfl⟩
    · rintro (⟨h, -⟩ | ⟨-, rfl, rfl⟩)
      · cases h
      · rfl
  · cases ws <;> simp

/-! ### Opcode tables of a machine -/

theorem exchange_exchange (fixed : Nat) (p : BitVec 5 × BitVec 5) (n : BitVec 5) :
    exchange fixed p (exchange fixed p n) = n := by
  unfold exchange
  split
  · rfl
  · by_cases h1 : n = p.1 <;> by_cases h2 : n = p.2 <;> simp_all

/-- Numbers that the source states stay where they are. -/
theorem exchange_lt_iff (fixed : Nat) (p : BitVec 5 × BitVec 5) (n : BitVec 5) :
    (exchange fixed p n).toNat < fixed ↔ n.toNat < fixed := by
  unfold exchange
  split
  · rfl
  · next h =>
    simp only [Bool.or_eq_true, decide_eq_true_eq, not_or] at h
    split
    · next e => rw [e]; exact iff_of_false h.2 h.1
    · split
      · next e => rw [e]; exact iff_of_false h.1 h.2
      · rfl

theorem exchange_of_lt {fixed : Nat} (p : BitVec 5 × BitVec 5) {n : BitVec 5} (h : n.toNat < fixed) :
    exchange fixed p n = n := by
  unfold exchange
  split
  · rfl
  · next hf =>
    simp only [Bool.or_eq_true, decide_eq_true_eq, not_or] at hf
    rw [if_neg (fun e : n = p.1 => hf.1 (e ▸ h)), if_neg (fun e : n = p.2 => hf.2 (e ▸ h))]

@[simp] theorem rowOf_numberOf (fixed : Nat) (ps : List (BitVec 5 × BitVec 5)) (n : BitVec 5) :
    rowOf fixed ps (numberOf fixed ps n) = n := by
  induction ps with
  | nil => rfl
  | cons p ps ih =>
    simp only [rowOf, numberOf, List.foldl_cons, List.foldr_cons, exchange_exchange] at ih ⊢
    exact ih

@[simp] theorem numberOf_rowOf (fixed : Nat) (ps : List (BitVec 5 × BitVec 5)) (n : BitVec 5) :
    numberOf fixed ps (rowOf fixed ps n) = n := by
  induction ps generalizing n with
  | nil => rfl
  | cons p ps ih =>
    simp only [rowOf, numberOf, List.foldl_cons, List.foldr_cons] at ih ⊢
    rw [ih, exchange_exchange]

theorem rowOf_of_lt {fixed : Nat} (ps : List (BitVec 5 × BitVec 5)) {n : BitVec 5} (h : n.toNat < fixed) :
    rowOf fixed ps n = n := by
  induction ps with
  | nil => rfl
  | cons p ps ih =>
    simp only [rowOf, List.foldl_cons, exchange_of_lt p h] at ih ⊢
    exact ih

theorem numberOf_of_lt {fixed : Nat} (ps : List (BitVec 5 × BitVec 5)) {n : BitVec 5} (h : n.toNat < fixed) :
    numberOf fixed ps n = n := by
  conv_lhs => rw [← rowOf_of_lt ps h]
  exact numberOf_rowOf fixed ps n

/-- The special format is the special format in every table (R92). -/
@[simp] theorem rowO_eq_zero (m : Config.OpMap) (n : BitVec 5) : m.rowO n = 0 ↔ n = 0 := by
  constructor
  · intro h
    have e := numberOf_rowOf 2 m.basic n
    rw [show rowOf 2 m.basic n = 0 from h, numberOf_of_lt _ (by decide)] at e
    exact e.symm
  · rintro rfl
    exact rowOf_of_lt _ (by decide)

@[simp] theorem numberO_eq_zero (m : Config.OpMap) (n : BitVec 5) : m.numberO n = 0 ↔ n = 0 := by
  rw [← rowO_eq_zero m]
  simp [Config.OpMap.rowO, Config.OpMap.numberO]

/-- The numbers that the source states: SET and the halting special opcode (R100, R104). -/
theorem numberO_set (m : Config.OpMap) : m.numberO 0x01 = 0x01 := numberOf_of_lt _ (by decide)
theorem numberS_halt (m : Config.OpMap) : m.numberS 0x00 = 0x00 := numberOf_of_lt _ (by decide)

/-- Every two different numbers but 0 are `OP_BRK` and `OP_HCF` of a machine (spec/90_conflicts.md C2). -/
theorem withHalts_opBrk_opHcf {brk hcf : BitVec 5} (hb : brk ≠ 0) (hh : hcf ≠ 0) (hne : brk ≠ hcf) :
    (Config.OpMap.withHalts brk hcf).opBrk = brk ∧ (Config.OpMap.withHalts brk hcf).opHcf = hcf := by
  revert brk hcf
  decide

theorem rowO_ne_zero (m : Config.OpMap) {n : BitVec 5} (h : n ≠ 0) : m.rowO n ≠ 0 := fun e => h ((rowO_eq_zero m n).mp e)
theorem numberO_ne_zero (m : Config.OpMap) {n : BitVec 5} (h : n ≠ 0) : m.numberO n ≠ 0 :=
  fun e => h ((numberO_eq_zero m n).mp e)

theorem renumber_special {fo fs : BitVec 5 → BitVec 5} {w : Word} (h : fieldO w = 0) :
    renumber fo fs w = specialWord (fieldA w) (fs (fieldB w)) := if_pos h

theorem renumber_basic {fo fs : BitVec 5 → BitVec 5} {w : Word} (h : fieldO w ≠ 0) :
    renumber fo fs w = basicWord (fieldA w) (fieldB w) (fo (fieldO w)) := if_neg h

theorem renumber_renumber {fo fs go gs : BitVec 5 → BitVec 5} (h : ∀ o, o ≠ 0 → fo o ≠ 0) (ho : ∀ n, go (fo n) = n)
    (hs : ∀ n, gs (fs n) = n) (w : Word) : renumber go gs (renumber fo fs w) = w := by
  have e := basicWord_fields w
  by_cases hw : fieldO w = 0
  · rw [renumber_special hw, renumber_special (fieldO_specialWord _ _), fieldA_specialWord, fieldB_specialWord, hs,
      specialWord_eq, ← hw]
    exact e
  · rw [renumber_basic hw, renumber_basic (by rw [fieldO_basicWord]; exact h _ hw), fieldA_basicWord, fieldB_basicWord,
      fieldO_basicWord, ho]
    exact e

@[simp] theorem toTable_ofTable (m : Config.OpMap) (w : Word) : m.toTable (m.ofTable w) = w :=
  renumber_renumber (fun _ => numberO_ne_zero m) (rowOf_numberOf 2 m.basic) (rowOf_numberOf 1 m.special) w

@[simp] theorem ofTable_toTable (m : Config.OpMap) (w : Word) : m.ofTable (m.toTable w) = w :=
  renumber_renumber (fun _ => rowO_ne_zero m) (numberOf_rowOf 2 m.basic) (numberOf_rowOf 1 m.special) w

@[simp] theorem toTable_default (w : Word) : Config.defaultOpMap.toTable w = w := by
  have e := basicWord_fields w
  unfold Config.OpMap.toTable
  by_cases hw : fieldO w = 0
  · rw [renumber_special hw, specialWord_eq, ← hw]
    exact e
  · rw [renumber_basic hw]
    exact e

/-- The length of an instruction does not depend on the opcode table (R94). -/
@[simp] theorem extraWords_toTable (m : Config.OpMap) (w : Word) : extraWords (m.toTable w) = extraWords w := by
  unfold extraWords Config.OpMap.toTable
  by_cases hw : fieldO w = 0
  · simp [renumber_special hw, hw]
  · rw [renumber_basic hw, fieldA_basicWord, fieldB_basicWord, fieldO_basicWord,
      decide_eq_true hw, decide_eq_true (rowO_ne_zero m hw)]

theorem onHead_onHead {f g : Word → Word} (h : ∀ w, g (f w) = w) (ws : List Word) : onHead g (onHead f ws) = ws := by
  cases ws <;> simp [onHead, h]

/-- The encoder always gives an instruction word, so words after it stay where they are. -/
theorem encodeFor_append (m : Config.OpMap) (i : Instr) (rest : List Word) :
    encodeFor m i ++ rest = onHead m.ofTable (encode i ++ rest) := by
  unfold encodeFor encode
  cases i.shape <;> rfl

/-- A machine decodes what its encoder gives exactly as the default decoder decodes what the default encoder gives. -/
theorem decodeFor_encodeFor (m : Config.OpMap) (i : Instr) (rest : List Word) :
    decodeFor m (encodeFor m i ++ rest) = decode (encode i ++ rest) := by
  rw [encodeFor_append, decodeFor, onHead_onHead (toTable_ofTable m)]

@[simp] theorem decodeFor_default (ws : List Word) : decodeFor Config.defaultOpMap ws = decode ws := by
  cases ws <;> simp [decodeFor, onHead]

/-! ### Tables -/

/-- Every basic opcode but 0 names an instruction (R100, R101). -/
theorem basicInstr_isSome {o : BitVec 5} (h : o ≠ 0) (b a : Operand) : ∃ i, basicInstr o b a = some i := by
  have : ∀ o : BitVec 5, o ≠ 0 → (basicInstr o b a).isSome = true := by
    have key : ∀ n : Fin 32, n ≠ 0 → (basicInstr (BitVec.ofFin n) b a).isSome = true := by
      intro n
      fin_cases n <;> first | (intro; rfl) | (intro h; exact absurd rfl h)
    intro o ho
    exact key o.toFin (fun e => ho (BitVec.eq_of_toNat_eq (congrArg Fin.val e)))
  exact Option.isSome_iff_exists.mp (this o h)

/-- The instruction of a basic opcode has that opcode and those operands (R100, R101). -/
theorem shape_of_basicInstr {o : BitVec 5} {b a : Operand} {i : Instr} (h : basicInstr o b a = some i) :
    i.shape = .basic o b a ∧ i.operands = (a, some b) := by
  have key : ∀ n : Fin 32, basicInstr (BitVec.ofFin n) b a = some i →
      i.shape = .basic (BitVec.ofFin n) b a ∧ i.operands = (a, some b) := by
    intro n
    fin_cases n <;> intro h <;> cases h <;> exact ⟨rfl, rfl⟩
  exact key o.toFin h

/-- The instruction of a special opcode has that opcode and that operand (R102 to R104). -/
theorem shape_of_specialInstr (s : BitVec 5) (a : Operand) :
    (specialInstr s a).shape = .special s a ∧ (specialInstr s a).operands = (a, none) := by
  have key : ∀ n : Fin 32, (specialInstr (BitVec.ofFin n) a).shape = .special (BitVec.ofFin n) a ∧
      (specialInstr (BitVec.ofFin n) a).operands = (a, none) := by
    intro n
    fin_cases n <;> exact ⟨rfl, rfl⟩
  exact key s.toFin

end Sys2Proof
end

