-- ==== Sys2Proof/Laws/Memory.lean ====
section
/-! SUPPORT. The laws of raw memory: a write is seen where it was made and nowhere else, and keeps the canonical form. -/

namespace Sys2Proof.Machine

@[simp] theorem Memory.read_nil (addr : Word) : Memory.read [] addr = 0 := rfl

@[simp] theorem Memory.wf_nil : Memory.wf [] = true := rfl

theorem Memory.wfFrom_cons {lo k : Nat} {v : Word} {rest : Memory} :
    Memory.wfFrom lo ((k, v) :: rest) = true ↔
      lo ≤ k ∧ k < 65536 ∧ v ≠ 0 ∧ Memory.wfFrom (k + 1) rest = true := by
  simp only [Memory.wfFrom, Bool.and_eq_true, decide_eq_true_eq, and_assoc]
  rfl

theorem Memory.wfFrom_mono {m : Memory} {lo lo' : Nat} (h : Memory.wfFrom lo m = true) (hl : lo' ≤ lo) :
    Memory.wfFrom lo' m = true := by
  cases m with
  | nil => rfl
  | cons c rest =>
    obtain ⟨k, v⟩ := c
    rw [Memory.wfFrom_cons] at h ⊢
    exact ⟨by omega, h.2⟩

/-- Below the first key nothing is listed. -/
theorem Memory.read_below {m : Memory} {lo : Nat} (h : Memory.wfFrom lo m = true) {addr : Word}
    (ha : addr.toNat < lo) : m.read addr = 0 := by
  induction m generalizing lo with
  | nil => rfl
  | cons c rest ih =>
    obtain ⟨k, v⟩ := c
    rw [Memory.wfFrom_cons] at h
    rw [Memory.read, if_neg (by omega)]
    exact ih h.2.2.2 (by omega)

theorem Memory.read_put (m : Memory) (k : Nat) (v : Word) (addr : Word) :
    (m.put k v).read addr = if k = addr.toNat then v else m.read addr := by
  induction m with
  | nil => simp [Memory.put, Memory.read]
  | cons c rest ih =>
    obtain ⟨k', v'⟩ := c
    simp only [Memory.put]
    split
    · simp [Memory.read]
    · split
      · subst_vars
        simp only [Memory.read]
        split <;> rfl
      · simp only [Memory.read, ih]
        split <;> split <;> first | rfl | omega

theorem Memory.read_erase {m : Memory} {lo : Nat} (h : Memory.wfFrom lo m = true) (k : Nat) (addr : Word) :
    (m.erase k).read addr = if k = addr.toNat then 0 else m.read addr := by
  induction m generalizing lo with
  | nil => simp [Memory.erase]
  | cons c rest ih =>
    obtain ⟨k', v'⟩ := c
    rw [Memory.wfFrom_cons] at h
    simp only [Memory.erase]
    split
    · subst_vars
      split
      · subst_vars
        exact Memory.read_below h.2.2.2 (by omega)
      · simp only [Memory.read]
        rw [if_neg (by omega)]
    · simp only [Memory.read, ih h.2.2.2]
      split <;> split <;> first | rfl | omega

/-- What a read sees after a write (spec/20_memory.md R69). -/
theorem Memory.read_write {m : Memory} (h : m.wf = true) (addr v addr' : Word) :
    (m.write addr v).read addr' = if addr = addr' then v else m.read addr' := by
  unfold Memory.write
  have e : (addr.toNat = addr'.toNat) ↔ addr = addr' := ⟨BitVec.eq_of_toNat_eq, fun h => h ▸ rfl⟩
  split
  · rw [Memory.read_erase h]
    simp only [e]
    split <;> simp_all [Memory.unlisted]
  · rw [Memory.read_put]
    simp only [e]

theorem Memory.read_write_same {m : Memory} (h : m.wf = true) (addr v : Word) :
    (m.write addr v).read addr = v := by
  rw [Memory.read_write h, if_pos rfl]

theorem Memory.read_write_other {m : Memory} (h : m.wf = true) {addr addr' : Word} (v : Word) (hne : addr ≠ addr') :
    (m.write addr v).read addr' = m.read addr' := by
  rw [Memory.read_write h, if_neg hne]

theorem Memory.put_wfFrom {m : Memory} {lo k : Nat} {v : Word} (h : Memory.wfFrom lo m = true)
    (hlo : lo ≤ k) (hk : k < 65536) (hv : v ≠ 0) : Memory.wfFrom lo (m.put k v) = true := by
  induction m generalizing lo with
  | nil => exact Memory.wfFrom_cons.mpr ⟨hlo, hk, hv, rfl⟩
  | cons c rest ih =>
    obtain ⟨k', v'⟩ := c
    rw [Memory.wfFrom_cons] at h
    simp only [Memory.put]
    split
    · rw [Memory.wfFrom_cons, Memory.wfFrom_cons]
      exact ⟨hlo, hk, hv, by omega, h.2⟩
    · split
      · subst_vars
        rw [Memory.wfFrom_cons]
        exact ⟨hlo, hk, hv, h.2.2.2⟩
      · rw [Memory.wfFrom_cons]
        exact ⟨h.1, h.2.1, h.2.2.1, ih h.2.2.2 (by omega)⟩

theorem Memory.erase_wfFrom {m : Memory} {lo : Nat} (k : Nat) (h : Memory.wfFrom lo m = true) :
    Memory.wfFrom lo (m.erase k) = true := by
  induction m generalizing lo with
  | nil => rfl
  | cons c rest ih =>
    obtain ⟨k', v'⟩ := c
    rw [Memory.wfFrom_cons] at h
    simp only [Memory.erase]
    split
    · exact Memory.wfFrom_mono h.2.2.2 (by omega)
    · rw [Memory.wfFrom_cons]
      exact ⟨h.1, h.2.1, h.2.2.1, ih h.2.2.2⟩

/-- A write keeps the canonical form. -/
theorem Memory.write_wf {m : Memory} (h : m.wf = true) (addr v : Word) : (m.write addr v).wf = true := by
  unfold Memory.write
  split
  · exact Memory.erase_wfFrom _ h
  · next hv => exact Memory.put_wfFrom h (by omega) (by have := addr.isLt; omega) hv

theorem Memory.writeList_wf {m : Memory} (h : m.wf = true) (addr : Word) (ws : List Word) :
    (m.writeList addr ws).wf = true := by
  induction ws generalizing m addr with
  | nil => exact h
  | cons w ws ih => exact ih (Memory.write_wf h addr w) (addr + 1)

/-- A run of writes leaves every address outside its range alone. -/
theorem Memory.read_writeList_other {m : Memory} (h : m.wf = true) (addr : Word) (ws : List Word) (addr' : Word)
    (hout : ∀ k < ws.length, addr + BitVec.ofNat 16 k ≠ addr') : (m.writeList addr ws).read addr' = m.read addr' := by
  induction ws generalizing m addr with
  | nil => rfl
  | cons w ws ih =>
    rw [Memory.writeList, ih (Memory.write_wf h addr w), Memory.read_write_other h]
    · simpa using hout 0 (by simp)
    · intro k hk
      have := hout (k + 1) (by simpa using hk)
      rwa [show addr + 1 + BitVec.ofNat 16 k = addr + BitVec.ofNat 16 (k + 1) by
        rw [BitVec.add_assoc]; congr 1; apply BitVec.eq_of_toNat_eq; simp [Nat.add_comm]]

end Sys2Proof.Machine
end

