-- ==== Sys2Proof/Laws/State.lean ====
section
/-! SUPPORT. The small laws of the state: one lemma for each field and each named update. -/

namespace Sys2Proof.Machine

/-! ### General registers -/

@[simp] theorem Regs.get_set_same (g : Regs) (r : GReg) (v : Word) : (g.set r v).get r = v := by
  cases r <;> rfl

theorem Regs.get_set (g : Regs) (r r' : GReg) (v : Word) :
    (g.set r v).get r' = if r = r' then v else g.get r' := by
  cases r <;> cases r' <;> rfl

theorem Regs.get_set_other (g : Regs) {r r' : GReg} (v : Word) (h : r ≠ r') : (g.set r v).get r' = g.get r' := by
  rw [Regs.get_set, if_neg h]

/-- Registers that read alike are equal. -/
theorem Regs.ext_get {g g' : Regs} (h : ∀ r, g.get r = g'.get r) : g = g' := by
  cases g
  cases g'
  simp only [Regs.mk.injEq]
  exact ⟨h .a, h .b, h .c, h .x, h .y, h .z, h .i, h .j⟩

/-! ### Named registers -/

@[simp] theorem State.getReg_gen (s : State) (r : GReg) : s.getReg (.gen r) = s.regs.get r := rfl
@[simp] theorem State.getReg_sp (s : State) : s.getReg .sp = s.sp := rfl
@[simp] theorem State.getReg_pc (s : State) : s.getReg .pc = s.pc := rfl
@[simp] theorem State.getReg_ex (s : State) : s.getReg .ex = s.ex := rfl
@[simp] theorem State.getReg_ia (s : State) : s.getReg .ia = s.ia := rfl
@[simp] theorem State.setReg_gen (s : State) (r : GReg) (v : Word) :
    s.setReg (.gen r) v = { s with regs := s.regs.set r v } := rfl
@[simp] theorem State.setReg_sp (s : State) (v : Word) : s.setReg .sp v = { s with sp := v } := rfl
@[simp] theorem State.setReg_pc (s : State) (v : Word) : s.setReg .pc v = { s with pc := v } := rfl
@[simp] theorem State.setReg_ex (s : State) (v : Word) : s.setReg .ex v = { s with ex := v } := rfl
@[simp] theorem State.setReg_ia (s : State) (v : Word) : s.setReg .ia v = { s with ia := v } := rfl

/-- What a write of a named register leaves in every named register. -/
theorem State.getReg_setReg (s : State) (r r' : RegName) (v : Word) :
    (s.setReg r v).getReg r' = if r = r' then v else s.getReg r' := by
  cases r <;> cases r' <;> simp [Regs.get_set]

@[simp] theorem State.setReg_queueing (s : State) (r : RegName) (v : Word) : (s.setReg r v).queueing = s.queueing := by
  cases r <;> rfl
@[simp] theorem State.setReg_iq (s : State) (r : RegName) (v : Word) : (s.setReg r v).iq = s.iq := by
  cases r <;> rfl
@[simp] theorem State.setReg_cycle (s : State) (r : RegName) (v : Word) : (s.setReg r v).cycle = s.cycle := by
  cases r <;> rfl
@[simp] theorem State.setReg_run (s : State) (r : RegName) (v : Word) : (s.setReg r v).run = s.run := by
  cases r <;> rfl
@[simp] theorem State.setReg_mem (s : State) (r : RegName) (v : Word) : (s.setReg r v).mem = s.mem := by
  cases r <;> rfl
@[simp] theorem State.setReg_devices (s : State) (r : RegName) (v : Word) : (s.setReg r v).devices = s.devices := by
  cases r <;> rfl
@[simp] theorem State.setReg_readHooks (s : State) (r : RegName) (v : Word) : (s.setReg r v).readHooks = s.readHooks := by
  cases r <;> rfl
@[simp] theorem State.setReg_writeHooks (s : State) (r : RegName) (v : Word) : (s.setReg r v).writeHooks = s.writeHooks := by
  cases r <;> rfl
@[simp] theorem State.setReg_params (s : State) (r : RegName) (v : Word) : (s.setReg r v).params = s.params := by
  cases r <;> rfl
@[simp] theorem State.setReg_agenda (s : State) (r : RegName) (v : Word) : (s.setReg r v).agenda = s.agenda := by
  cases r <;> rfl
@[simp] theorem State.setReg_envTick (s : State) (r : RegName) (v : Word) : (s.setReg r v).envTick = s.envTick := by
  cases r <;> rfl
@[simp] theorem State.setReg_endEvents (s : State) (r : RegName) (v : Word) : (s.setReg r v).endEvents = s.endEvents := by
  cases r <;> rfl
@[simp] theorem State.setReg_skipping (s : State) (r : RegName) (v : Word) : (s.setReg r v).skipping = s.skipping := by
  cases r <;> rfl

/-! ### The cycle counter -/

@[simp] theorem State.addCycles_regs (s : State) (n : Nat) : (s.addCycles n).regs = s.regs := rfl
@[simp] theorem State.addCycles_pc (s : State) (n : Nat) : (s.addCycles n).pc = s.pc := rfl
@[simp] theorem State.addCycles_sp (s : State) (n : Nat) : (s.addCycles n).sp = s.sp := rfl
@[simp] theorem State.addCycles_ex (s : State) (n : Nat) : (s.addCycles n).ex = s.ex := rfl
@[simp] theorem State.addCycles_ia (s : State) (n : Nat) : (s.addCycles n).ia = s.ia := rfl
@[simp] theorem State.addCycles_queueing (s : State) (n : Nat) : (s.addCycles n).queueing = s.queueing := rfl
@[simp] theorem State.addCycles_iq (s : State) (n : Nat) : (s.addCycles n).iq = s.iq := rfl
@[simp] theorem State.addCycles_cycle (s : State) (n : Nat) : (s.addCycles n).cycle = s.cycle + n := rfl
@[simp] theorem State.addCycles_run (s : State) (n : Nat) : (s.addCycles n).run = s.run := rfl
@[simp] theorem State.addCycles_mem (s : State) (n : Nat) : (s.addCycles n).mem = s.mem := rfl
@[simp] theorem State.addCycles_devices (s : State) (n : Nat) : (s.addCycles n).devices = s.devices := rfl
@[simp] theorem State.addCycles_readHooks (s : State) (n : Nat) : (s.addCycles n).readHooks = s.readHooks := rfl
@[simp] theorem State.addCycles_writeHooks (s : State) (n : Nat) : (s.addCycles n).writeHooks = s.writeHooks := rfl
@[simp] theorem State.addCycles_params (s : State) (n : Nat) : (s.addCycles n).params = s.params := rfl
@[simp] theorem State.addCycles_agenda (s : State) (n : Nat) : (s.addCycles n).agenda = s.agenda := rfl
@[simp] theorem State.addCycles_envTick (s : State) (n : Nat) : (s.addCycles n).envTick = s.envTick := rfl
@[simp] theorem State.addCycles_endEvents (s : State) (n : Nat) : (s.addCycles n).endEvents = s.endEvents := rfl
@[simp] theorem State.addCycles_skipping (s : State) (n : Nat) : (s.addCycles n).skipping = s.skipping := rfl

/-! ### Reset -/

@[simp] theorem State.clear_regs (s : State) : s.clear.regs = State.reset.regs := rfl
@[simp] theorem State.clear_pc (s : State) : s.clear.pc = State.reset.pc := rfl
@[simp] theorem State.clear_sp (s : State) : s.clear.sp = State.reset.sp := rfl
@[simp] theorem State.clear_ex (s : State) : s.clear.ex = State.reset.ex := rfl
@[simp] theorem State.clear_ia (s : State) : s.clear.ia = State.reset.ia := rfl
@[simp] theorem State.clear_queueing (s : State) : s.clear.queueing = State.reset.queueing := rfl
@[simp] theorem State.clear_iq (s : State) : s.clear.iq = State.reset.iq := rfl
@[simp] theorem State.clear_cycle (s : State) : s.clear.cycle = State.reset.cycle := rfl
@[simp] theorem State.clear_run (s : State) : s.clear.run = State.reset.run := rfl
@[simp] theorem State.clear_mem (s : State) : s.clear.mem = State.reset.mem := rfl
@[simp] theorem State.clear_devices (s : State) : s.clear.devices = s.devices := rfl
@[simp] theorem State.clear_readHooks (s : State) : s.clear.readHooks = s.readHooks := rfl
@[simp] theorem State.clear_writeHooks (s : State) : s.clear.writeHooks = s.writeHooks := rfl
@[simp] theorem State.clear_params (s : State) : s.clear.params = s.params := rfl
@[simp] theorem State.clear_agenda (s : State) : s.clear.agenda = s.agenda := rfl
@[simp] theorem State.clear_envTick (s : State) : s.clear.envTick = s.envTick := rfl
@[simp] theorem State.clear_endEvents (s : State) : s.clear.endEvents = s.endEvents := rfl
@[simp] theorem State.clear_skipping (s : State) : s.clear.skipping = State.reset.skipping := rfl

/-! ### Outcomes -/

@[simp] theorem andThen_next (t : State) (f : State → Outcome) : andThen (.next t) f = f t := rfl
@[simp] theorem andThen_fault (e : Fault) (f : State → Outcome) : andThen (.fault e) f = .fault e := rfl
@[simp] theorem andThen_refused (e : Refusal) (f : State → Outcome) : andThen (.refused e) f = .refused e := rfl

/-- A sequence answers a next state exactly when both parts do. -/
theorem andThen_eq_next {o : Outcome} {f : State → Outcome} {t : State} :
    andThen o f = .next t ↔ ∃ u, o = .next u ∧ f u = .next t := by
  cases o <;> simp [andThen]

end Sys2Proof.Machine
end

