-- ==== Sys2Proof/Laws/Ops.lean ====
section
/-! SUPPORT. One lemma for each shared operation of Machine/Ops.lean that says everything it can do. -/

namespace Sys2Proof.Machine

/-! ### The memory port -/

/-- A read changes nothing but the count of callbacks. -/
theorem memRead_state (addr : Word) (s : State) :
    (memRead addr s).2 = { s with envTick := (memRead addr s).2.envTick } := rfl

/-- With no read hooks, a read is a read of raw memory (spec/20_memory.md R64). -/
@[simp] theorem memRead_noHooks {s : State} (h : s.readHooks = []) (addr : Word) :
    memRead addr s = (s.mem.read addr, s) := by
  have e : askReadHooks s.readHooks addr s.envTick = (none, s.envTick) := by rw [h]; rfl
  simp only [memRead, e]
  rfl

/-- A write changes nothing but raw memory, at the address or nowhere, and the count of callbacks. -/
theorem memWrite_state (addr v : Word) (s : State) :
    memWrite addr v s =
      { s with mem := (memWrite addr v s).mem, envTick := (memWrite addr v s).envTick } := by
  unfold memWrite
  simp only
  split <;> rfl

theorem memWrite_mem_cases (addr v : Word) (s : State) :
    (memWrite addr v s).mem = s.mem ∨ (memWrite addr v s).mem = s.mem.write addr v := by
  unfold memWrite
  simp only
  split
  · exact Or.inl rfl
  · exact Or.inr rfl

/-- With no write hooks, a write is a write of raw memory (spec/20_memory.md R65). -/
@[simp] theorem memWrite_noHooks {s : State} (h : s.writeHooks = []) (addr v : Word) :
    memWrite addr v s = { s with mem := s.mem.write addr v } := by
  simp [memWrite, h, askWriteHooks]

theorem memWrite_mem_wf {s : State} (h : s.mem.wf = true) (addr v : Word) : (memWrite addr v s).mem.wf = true := by
  rcases memWrite_mem_cases addr v s with e | e <;> rw [e]
  · exact h
  · exact Memory.write_wf h addr v

/-- A write leaves every other address alone. -/
theorem memWrite_read_other {s : State} (h : s.mem.wf = true) {addr addr' : Word} (v : Word) (hne : addr' ≠ addr) :
    (memWrite addr v s).mem.read addr' = s.mem.read addr' := by
  rcases memWrite_mem_cases addr v s with e | e <;> rw [e]
  exact Memory.read_write_other h v (Ne.symm hne)

theorem fetchRead_state (addr : Word) (s : State) :
    (fetchRead addr s).2 = { s with envTick := (fetchRead addr s).2.envTick } := by
  unfold fetchRead
  split <;> rfl

@[simp] theorem fetchRead_noHooks {s : State} (h : s.readHooks = []) (addr : Word) :
    fetchRead addr s = (s.mem.read addr, s) := by
  unfold fetchRead
  split
  · exact memRead_noHooks h addr
  · rfl

@[simp] theorem fetchRead_raw {s : State} (h : s.params.fetchViaHooks = false) (addr : Word) :
    fetchRead addr s = (s.mem.read addr, s) := by
  simp [fetchRead, h]

@[simp] theorem memRead_regs (addr : Word) (s : State) : (memRead addr s).2.regs = s.regs := rfl
@[simp] theorem memRead_pc (addr : Word) (s : State) : (memRead addr s).2.pc = s.pc := rfl
@[simp] theorem memRead_sp (addr : Word) (s : State) : (memRead addr s).2.sp = s.sp := rfl
@[simp] theorem memRead_ex (addr : Word) (s : State) : (memRead addr s).2.ex = s.ex := rfl
@[simp] theorem memRead_ia (addr : Word) (s : State) : (memRead addr s).2.ia = s.ia := rfl
@[simp] theorem memRead_queueing (addr : Word) (s : State) : (memRead addr s).2.queueing = s.queueing := rfl
@[simp] theorem memRead_iq (addr : Word) (s : State) : (memRead addr s).2.iq = s.iq := rfl
@[simp] theorem memRead_cycle (addr : Word) (s : State) : (memRead addr s).2.cycle = s.cycle := rfl
@[simp] theorem memRead_run (addr : Word) (s : State) : (memRead addr s).2.run = s.run := rfl
@[simp] theorem memRead_mem (addr : Word) (s : State) : (memRead addr s).2.mem = s.mem := rfl
@[simp] theorem memRead_devices (addr : Word) (s : State) : (memRead addr s).2.devices = s.devices := rfl
@[simp] theorem memRead_readHooks (addr : Word) (s : State) : (memRead addr s).2.readHooks = s.readHooks := rfl
@[simp] theorem memRead_writeHooks (addr : Word) (s : State) : (memRead addr s).2.writeHooks = s.writeHooks := rfl
@[simp] theorem memRead_params (addr : Word) (s : State) : (memRead addr s).2.params = s.params := rfl
@[simp] theorem memRead_agenda (addr : Word) (s : State) : (memRead addr s).2.agenda = s.agenda := rfl
@[simp] theorem memRead_endEvents (addr : Word) (s : State) : (memRead addr s).2.endEvents = s.endEvents := rfl
@[simp] theorem memRead_skipping (addr : Word) (s : State) : (memRead addr s).2.skipping = s.skipping := rfl

@[simp] theorem fetchRead_regs (addr : Word) (s : State) : (fetchRead addr s).2.regs = s.regs := by
  rw [fetchRead_state]
@[simp] theorem fetchRead_pc (addr : Word) (s : State) : (fetchRead addr s).2.pc = s.pc := by
  rw [fetchRead_state]
@[simp] theorem fetchRead_sp (addr : Word) (s : State) : (fetchRead addr s).2.sp = s.sp := by
  rw [fetchRead_state]
@[simp] theorem fetchRead_ex (addr : Word) (s : State) : (fetchRead addr s).2.ex = s.ex := by
  rw [fetchRead_state]
@[simp] theorem fetchRead_ia (addr : Word) (s : State) : (fetchRead addr s).2.ia = s.ia := by
  rw [fetchRead_state]
@[simp] theorem fetchRead_queueing (addr : Word) (s : State) : (fetchRead addr s).2.queueing = s.queueing := by
  rw [fetchRead_state]
@[simp] theorem fetchRead_iq (addr : Word) (s : State) : (fetchRead addr s).2.iq = s.iq := by
  rw [fetchRead_state]
@[simp] theorem fetchRead_cycle (addr : Word) (s : State) : (fetchRead addr s).2.cycle = s.cycle := by
  rw [fetchRead_state]
@[simp] theorem fetchRead_run (addr : Word) (s : State) : (fetchRead addr s).2.run = s.run := by
  rw [fetchRead_state]
@[simp] theorem fetchRead_mem (addr : Word) (s : State) : (fetchRead addr s).2.mem = s.mem := by
  rw [fetchRead_state]
@[simp] theorem fetchRead_devices (addr : Word) (s : State) : (fetchRead addr s).2.devices = s.devices := by
  rw [fetchRead_state]
@[simp] theorem fetchRead_readHooks (addr : Word) (s : State) : (fetchRead addr s).2.readHooks = s.readHooks := by
  rw [fetchRead_state]
@[simp] theorem fetchRead_writeHooks (addr : Word) (s : State) : (fetchRead addr s).2.writeHooks = s.writeHooks := by
  rw [fetchRead_state]
@[simp] theorem fetchRead_params (addr : Word) (s : State) : (fetchRead addr s).2.params = s.params := by
  rw [fetchRead_state]
@[simp] theorem fetchRead_agenda (addr : Word) (s : State) : (fetchRead addr s).2.agenda = s.agenda := by
  rw [fetchRead_state]
@[simp] theorem fetchRead_endEvents (addr : Word) (s : State) : (fetchRead addr s).2.endEvents = s.endEvents := by
  rw [fetchRead_state]
@[simp] theorem fetchRead_skipping (addr : Word) (s : State) : (fetchRead addr s).2.skipping = s.skipping := by
  rw [fetchRead_state]

@[simp] theorem memWrite_regs (addr v : Word) (s : State) : (memWrite addr v s).regs = s.regs := by
  rw [memWrite_state]
@[simp] theorem memWrite_pc (addr v : Word) (s : State) : (memWrite addr v s).pc = s.pc := by
  rw [memWrite_state]
@[simp] theorem memWrite_sp (addr v : Word) (s : State) : (memWrite addr v s).sp = s.sp := by
  rw [memWrite_state]
@[simp] theorem memWrite_ex (addr v : Word) (s : State) : (memWrite addr v s).ex = s.ex := by
  rw [memWrite_state]
@[simp] theorem memWrite_ia (addr v : Word) (s : State) : (memWrite addr v s).ia = s.ia := by
  rw [memWrite_state]
@[simp] theorem memWrite_queueing (addr v : Word) (s : State) : (memWrite addr v s).queueing = s.queueing := by
  rw [memWrite_state]
@[simp] theorem memWrite_iq (addr v : Word) (s : State) : (memWrite addr v s).iq = s.iq := by
  rw [memWrite_state]
@[simp] theorem memWrite_cycle (addr v : Word) (s : State) : (memWrite addr v s).cycle = s.cycle := by
  rw [memWrite_state]
@[simp] theorem memWrite_run (addr v : Word) (s : State) : (memWrite addr v s).run = s.run := by
  rw [memWrite_state]
@[simp] theorem memWrite_devices (addr v : Word) (s : State) : (memWrite addr v s).devices = s.devices := by
  rw [memWrite_state]
@[simp] theorem memWrite_readHooks (addr v : Word) (s : State) : (memWrite addr v s).readHooks = s.readHooks := by
  rw [memWrite_state]
@[simp] theorem memWrite_writeHooks (addr v : Word) (s : State) : (memWrite addr v s).writeHooks = s.writeHooks := by
  rw [memWrite_state]
@[simp] theorem memWrite_params (addr v : Word) (s : State) : (memWrite addr v s).params = s.params := by
  rw [memWrite_state]
@[simp] theorem memWrite_agenda (addr v : Word) (s : State) : (memWrite addr v s).agenda = s.agenda := by
  rw [memWrite_state]
@[simp] theorem memWrite_endEvents (addr v : Word) (s : State) : (memWrite addr v s).endEvents = s.endEvents := by
  rw [memWrite_state]
@[simp] theorem memWrite_skipping (addr v : Word) (s : State) : (memWrite addr v s).skipping = s.skipping := by
  rw [memWrite_state]

/-! ### The stack -/

@[simp] theorem push_sp (v : Word) (s : State) : (push v s).sp = s.sp - 1 := by
  simp [push]
@[simp] theorem push_regs (v : Word) (s : State) : (push v s).regs = s.regs := by
  simp [push]
@[simp] theorem push_pc (v : Word) (s : State) : (push v s).pc = s.pc := by
  simp [push]
@[simp] theorem push_ex (v : Word) (s : State) : (push v s).ex = s.ex := by
  simp [push]
@[simp] theorem push_ia (v : Word) (s : State) : (push v s).ia = s.ia := by
  simp [push]
@[simp] theorem push_queueing (v : Word) (s : State) : (push v s).queueing = s.queueing := by
  simp [push]
@[simp] theorem push_iq (v : Word) (s : State) : (push v s).iq = s.iq := by
  simp [push]
@[simp] theorem push_cycle (v : Word) (s : State) : (push v s).cycle = s.cycle := by
  simp [push]
@[simp] theorem push_run (v : Word) (s : State) : (push v s).run = s.run := by
  simp [push]
@[simp] theorem push_devices (v : Word) (s : State) : (push v s).devices = s.devices := by
  simp [push]
@[simp] theorem push_readHooks (v : Word) (s : State) : (push v s).readHooks = s.readHooks := by
  simp [push]
@[simp] theorem push_writeHooks (v : Word) (s : State) : (push v s).writeHooks = s.writeHooks := by
  simp [push]
@[simp] theorem push_params (v : Word) (s : State) : (push v s).params = s.params := by
  simp [push]
@[simp] theorem push_agenda (v : Word) (s : State) : (push v s).agenda = s.agenda := by
  simp [push]
@[simp] theorem push_endEvents (v : Word) (s : State) : (push v s).endEvents = s.endEvents := by
  simp [push]
@[simp] theorem push_skipping (v : Word) (s : State) : (push v s).skipping = s.skipping := by
  simp [push]

theorem push_mem_wf {s : State} (h : s.mem.wf = true) (v : Word) : (push v s).mem.wf = true :=
  memWrite_mem_wf (s := { s with sp := s.sp - 1 }) h _ _

/-- A push leaves every address but the new top of the stack alone. -/
theorem push_read_other {s : State} (h : s.mem.wf = true) (v : Word) {addr : Word} (hne : addr ≠ s.sp - 1) :
    (push v s).mem.read addr = s.mem.read addr :=
  memWrite_read_other (s := { s with sp := s.sp - 1 }) h v hne

theorem push_noHooks {s : State} (h : s.writeHooks = []) (v : Word) :
    push v s = { s with sp := s.sp - 1, mem := s.mem.write (s.sp - 1) v } := by
  rw [push, memWrite_noHooks (by exact h)]

theorem pop_noHooks {s : State} (h : s.readHooks = []) :
    pop s = (s.mem.read s.sp, { s with sp := s.sp + 1 }) := by
  simp [pop, memRead_noHooks h]

@[simp] theorem pop_sp (s : State) : (pop s).2.sp = s.sp + 1 := rfl
@[simp] theorem pop_regs (s : State) : (pop s).2.regs = s.regs := rfl
@[simp] theorem pop_pc (s : State) : (pop s).2.pc = s.pc := rfl
@[simp] theorem pop_ex (s : State) : (pop s).2.ex = s.ex := rfl
@[simp] theorem pop_ia (s : State) : (pop s).2.ia = s.ia := rfl
@[simp] theorem pop_queueing (s : State) : (pop s).2.queueing = s.queueing := rfl
@[simp] theorem pop_iq (s : State) : (pop s).2.iq = s.iq := rfl
@[simp] theorem pop_cycle (s : State) : (pop s).2.cycle = s.cycle := rfl
@[simp] theorem pop_run (s : State) : (pop s).2.run = s.run := rfl
@[simp] theorem pop_mem (s : State) : (pop s).2.mem = s.mem := rfl
@[simp] theorem pop_devices (s : State) : (pop s).2.devices = s.devices := rfl
@[simp] theorem pop_readHooks (s : State) : (pop s).2.readHooks = s.readHooks := rfl
@[simp] theorem pop_writeHooks (s : State) : (pop s).2.writeHooks = s.writeHooks := rfl
@[simp] theorem pop_params (s : State) : (pop s).2.params = s.params := rfl
@[simp] theorem pop_agenda (s : State) : (pop s).2.agenda = s.agenda := rfl
@[simp] theorem pop_endEvents (s : State) : (pop s).2.endEvents = s.endEvents := rfl
@[simp] theorem pop_skipping (s : State) : (pop s).2.skipping = s.skipping := rfl

/-! ### Interrupt entry and return -/

/-- With no handler the message is dropped (spec/60_exceptions.md R314). -/
@[simp] theorem trigger_noHandler {s : State} (h : s.ia = 0) (msg : Word) : trigger msg s = s := by
  simp [trigger, h]

/-- Everything an entry does when there is a handler: the fields it names, and the two pushes' memory. -/
theorem trigger_handler {s : State} (h : s.ia ≠ 0) (msg : Word) :
    trigger msg s =
      { push s.regs.a (push s.pc s) with pc := s.ia, regs := s.regs.set .a msg, queueing := true } := by
  unfold trigger
  rw [if_neg h]
  simp

@[simp] theorem trigger_ex (msg : Word) (s : State) : (trigger msg s).ex = s.ex := by
  unfold trigger
  split <;> simp
@[simp] theorem trigger_ia (msg : Word) (s : State) : (trigger msg s).ia = s.ia := by
  unfold trigger
  split <;> simp
@[simp] theorem trigger_iq (msg : Word) (s : State) : (trigger msg s).iq = s.iq := by
  unfold trigger
  split <;> simp
@[simp] theorem trigger_cycle (msg : Word) (s : State) : (trigger msg s).cycle = s.cycle := by
  unfold trigger
  split <;> simp
@[simp] theorem trigger_run (msg : Word) (s : State) : (trigger msg s).run = s.run := by
  unfold trigger
  split <;> simp
@[simp] theorem trigger_devices (msg : Word) (s : State) : (trigger msg s).devices = s.devices := by
  unfold trigger
  split <;> simp
@[simp] theorem trigger_readHooks (msg : Word) (s : State) : (trigger msg s).readHooks = s.readHooks := by
  unfold trigger
  split <;> simp
@[simp] theorem trigger_writeHooks (msg : Word) (s : State) : (trigger msg s).writeHooks = s.writeHooks := by
  unfold trigger
  split <;> simp
@[simp] theorem trigger_params (msg : Word) (s : State) : (trigger msg s).params = s.params := by
  unfold trigger
  split <;> simp
@[simp] theorem trigger_agenda (msg : Word) (s : State) : (trigger msg s).agenda = s.agenda := by
  unfold trigger
  split <;> simp
@[simp] theorem trigger_endEvents (msg : Word) (s : State) : (trigger msg s).endEvents = s.endEvents := by
  unfold trigger
  split <;> simp
@[simp] theorem trigger_skipping (msg : Word) (s : State) : (trigger msg s).skipping = s.skipping := by
  unfold trigger
  split <;> simp

theorem trigger_mem_wf {s : State} (h : s.mem.wf = true) (msg : Word) : (trigger msg s).mem.wf = true := by
  unfold trigger
  split
  · exact h
  · exact push_mem_wf (push_mem_wf h _) _

/-- What `Interrupt(msg)` can answer (R313, R321). -/
theorem interrupt_eq_next {msg : Word} {s t : State} :
    interrupt msg s = .next t ↔
      (s.queueing = true ∧ s.iq.length < Config.iqMax ∧ t = { s with iq := s.iq ++ [msg] }) ∨
        (s.queueing = false ∧ t = trigger msg s) := by
  unfold interrupt
  split
  · next hq =>
    split
    · next hf =>
      simp only [reduceCtorEq, hq, true_and, false_iff, Bool.true_eq_false, false_and, or_false]
      exact fun h => absurd h.1 (Nat.not_lt.mpr hf)
    · next hf =>
      simp only [Host.Outcome.next.injEq, hq, true_and, Bool.true_eq_false, false_and, or_false]
      exact ⟨fun h => ⟨Nat.lt_of_not_le hf, h.symm⟩, fun h => h.2.symm⟩
  · next hq =>
    have hq' : s.queueing = false := by simpa using hq
    simp only [Host.Outcome.next.injEq, hq', Bool.false_eq_true, false_and, false_or, true_and]
    exact ⟨Eq.symm, Eq.symm⟩

theorem interrupt_eq_fault {msg : Word} {s : State} {e : Fault} :
    interrupt msg s = .fault e ↔ s.queueing = true ∧ Config.iqMax ≤ s.iq.length ∧ e = .onFire := by
  unfold interrupt
  split
  · next hq =>
    split
    · next hf =>
      simp only [Host.Outcome.fault.injEq, hq, hf, true_and]
      exact eq_comm
    · next hf =>
      simp only [reduceCtorEq, false_iff]
      exact fun h => hf h.2.1
  · next hq =>
    simp only [reduceCtorEq, false_iff]
    exact fun h => hq h.1

theorem interrupt_ne_refused (msg : Word) (s : State) (e : Refusal) : interrupt msg s ≠ .refused e := by
  unfold interrupt
  split
  · split <;> simp
  · simp

/-- The three cases of the start-of-step delivery (R315). -/
theorem deliverQueued_cases (s : State) :
    (deliverQueued s = s ∧ (s.queueing = true ∨ s.iq = [])) ∨
      ∃ msg rest, s.queueing = false ∧ s.iq = msg :: rest ∧ deliverQueued s = trigger msg { s with iq := rest } := by
  unfold deliverQueued
  split
  · next h => exact Or.inl ⟨rfl, Or.inl h⟩
  · next h =>
    split
    · next h' => exact Or.inl ⟨rfl, Or.inr h'⟩
    · next msg rest h' => exact Or.inr ⟨msg, rest, by simpa using h, h', rfl⟩

/-- Everything a return does, in a machine with no read hooks (spec/46_interrupt_instructions.md R273). -/
theorem returnFromInterrupt_noHooks {s : State} (h : s.readHooks = []) :
    returnFromInterrupt s =
      { s with queueing := false, regs := s.regs.set .a (s.mem.read s.sp), pc := s.mem.read (s.sp + 1),
               sp := s.sp + 1 + 1 } := by
  unfold returnFromInterrupt
  rw [pop_noHooks (by exact h)]
  simp only
  rw [pop_noHooks (by exact h)]

@[simp] theorem returnFromInterrupt_queueing (s : State) : (returnFromInterrupt s).queueing = false := rfl
@[simp] theorem returnFromInterrupt_sp (s : State) : (returnFromInterrupt s).sp = s.sp + 1 + 1 := rfl
@[simp] theorem returnFromInterrupt_ex (s : State) : (returnFromInterrupt s).ex = s.ex := rfl
@[simp] theorem returnFromInterrupt_ia (s : State) : (returnFromInterrupt s).ia = s.ia := rfl
@[simp] theorem returnFromInterrupt_iq (s : State) : (returnFromInterrupt s).iq = s.iq := rfl
@[simp] theorem returnFromInterrupt_cycle (s : State) : (returnFromInterrupt s).cycle = s.cycle := rfl
@[simp] theorem returnFromInterrupt_run (s : State) : (returnFromInterrupt s).run = s.run := rfl
@[simp] theorem returnFromInterrupt_mem (s : State) : (returnFromInterrupt s).mem = s.mem := rfl
@[simp] theorem returnFromInterrupt_devices (s : State) : (returnFromInterrupt s).devices = s.devices := rfl
@[simp] theorem returnFromInterrupt_readHooks (s : State) : (returnFromInterrupt s).readHooks = s.readHooks := rfl
@[simp] theorem returnFromInterrupt_writeHooks (s : State) : (returnFromInterrupt s).writeHooks = s.writeHooks := rfl
@[simp] theorem returnFromInterrupt_params (s : State) : (returnFromInterrupt s).params = s.params := rfl
@[simp] theorem returnFromInterrupt_agenda (s : State) : (returnFromInterrupt s).agenda = s.agenda := rfl
@[simp] theorem returnFromInterrupt_endEvents (s : State) : (returnFromInterrupt s).endEvents = s.endEvents := rfl
@[simp] theorem returnFromInterrupt_skipping (s : State) : (returnFromInterrupt s).skipping = s.skipping := rfl

/-! ### The invariant -/

/-- The invariant rests on six fields only. -/
theorem State.Inv.congr {s t : State} (h : s.Inv) (hm : t.mem.wf = true) (hq : t.iq.length ≤ Config.iqMax)
    (hd : t.devices = s.devices) (hr : t.readHooks = s.readHooks) (hw : t.writeHooks = s.writeHooks) : t.Inv :=
  ⟨hm, hq, hd ▸ h.devBound, hr ▸ h.readFit, hw ▸ h.writeFit⟩

theorem memRead_inv {s : State} (h : s.Inv) (addr : Word) : (memRead addr s).2.Inv :=
  h.congr h.memWf h.queueBound rfl rfl rfl

theorem memWrite_inv {s : State} (h : s.Inv) (addr v : Word) : (memWrite addr v s).Inv :=
  h.congr (memWrite_mem_wf h.memWf addr v) (by simpa using h.queueBound) (by simp) (by simp) (by simp)

theorem push_inv {s : State} (h : s.Inv) (v : Word) : (push v s).Inv :=
  h.congr (push_mem_wf h.memWf v) (by simpa using h.queueBound) (by simp) (by simp) (by simp)

theorem trigger_inv {s : State} (h : s.Inv) (msg : Word) : (trigger msg s).Inv :=
  h.congr (trigger_mem_wf h.memWf msg) (by simpa using h.queueBound) (by simp) (by simp) (by simp)

theorem interrupt_inv {s t : State} (h : s.Inv) {msg : Word} (hi : interrupt msg s = .next t) : t.Inv := by
  rcases interrupt_eq_next.mp hi with ⟨-, hl, rfl⟩ | ⟨-, rfl⟩
  · exact h.congr h.memWf (by simpa using hl) rfl rfl rfl
  · exact trigger_inv h msg

theorem deliverQueued_inv {s : State} (h : s.Inv) : (deliverQueued s).Inv := by
  rcases deliverQueued_cases s with ⟨e, -⟩ | ⟨msg, rest, -, hq, e⟩ <;> rw [e]
  · exact h
  · refine trigger_inv (h.congr (t := { s with iq := rest }) h.memWf ?_ rfl rfl rfl) msg
    have := h.queueBound
    rw [hq] at this
    simp at this ⊢
    omega

theorem returnFromInterrupt_inv {s : State} (h : s.Inv) : (returnFromInterrupt s).Inv :=
  h.congr h.memWf h.queueBound rfl rfl rfl

theorem clear_inv {s : State} (h : s.Inv) : s.clear.Inv :=
  h.congr rfl (Nat.zero_le _) rfl rfl rfl

end Sys2Proof.Machine
end

