-- ==== Sys2Proof/Laws/Devices.lean ====
section
/-! SUPPORT. What the actions of the devices and the host can do. -/

namespace Sys2Proof.Machine

/-! ### What no action of a device inside a step changes -/

/-- No device registers a device (spec/60_exceptions.md R325). -/
theorem deviceAct_devices {d : DeviceAction} {s t : State} (ha : deviceAct d s = .next t) : t.devices = s.devices := by
  cases d with
  | irq msg =>
    rcases interrupt_eq_next.mp ha with ⟨-, -, rfl⟩ | ⟨-, rfl⟩
    · rfl
    · simp
  | onGet k => simp only [deviceAct] at ha; split at ha <;> cases ha; rfl
  | onSet k => simp only [deviceAct] at ha; split at ha <;> cases ha; rfl
  | resume => cases ha; unfold resume; split <;> rfl
  | _ => cases ha; simp

theorem deviceActs_devices {ds : List DeviceAction} {s t : State} (ha : deviceActs ds s = .next t) :
    t.devices = s.devices := by
  induction ds generalizing s with
  | nil => cases ha; rfl
  | cons d ds ih =>
    obtain ⟨u, hu, ht⟩ := andThen_eq_next.mp ha
    rw [ih ht, deviceAct_devices hu]

theorem runHandler_devices {index : Nat} {s t : State} (hr : runHandler index s = .next t) : t.devices = s.devices := by
  obtain ⟨u, hu, ht⟩ := andThen_eq_next.mp hr
  cases ht
  have h := deviceActs_devices hu
  exact h

/-! ### Every action keeps the invariant -/

theorem addDevice_inv {s : State} (h : s.Inv) (d : Device) : (addDevice d s).Inv := by
  unfold addDevice
  split
  · next hl => exact ⟨h.memWf, h.queueBound, by simpa using hl, h.readFit, h.writeFit⟩
  · exact h

theorem resume_inv {s : State} (h : s.Inv) : (resume s).Inv := by
  unfold resume
  split
  · exact h.congr h.memWf h.queueBound rfl rfl rfl
  · exact h

theorem setReg_inv {s : State} (h : s.Inv) (r : RegName) (v : Word) : (s.setReg r v).Inv :=
  h.congr (by simpa using h.memWf) (by simpa using h.queueBound) (by simp) (by simp) (by simp)

theorem deviceAct_inv {d : DeviceAction} {s t : State} (h : s.Inv) (ha : deviceAct d s = .next t) : t.Inv := by
  cases d with
  | setReg r v => cases ha; exact setReg_inv h r v
  | setMem addr v => cases ha; exact memWrite_inv h addr v
  | getMem addr => cases ha; exact memRead_inv h addr
  | irq msg => exact interrupt_inv h ha
  | onGet k =>
    simp only [deviceAct] at ha
    split at ha
    · next hf => cases ha; exact ⟨h.memWf, h.queueBound, h.devBound, by simpa [hf] using h.readFit, h.writeFit⟩
    · cases ha
  | onSet k =>
    simp only [deviceAct] at ha
    split at ha
    · next hf => cases ha; exact ⟨h.memWf, h.queueBound, h.devBound, h.readFit, by simpa [hf] using h.writeFit⟩
    · cases ha
  | resume => cases ha; exact resume_inv h

theorem deviceActs_inv {ds : List DeviceAction} {s t : State} (h : s.Inv) (ha : deviceActs ds s = .next t) :
    t.Inv := by
  induction ds generalizing s with
  | nil => cases ha; exact h
  | cons d ds ih =>
    obtain ⟨u, hu, ht⟩ := andThen_eq_next.mp ha
    exact ih (deviceAct_inv h hu) ht

theorem runHandler_inv {index : Nat} {s t : State} (h : s.Inv) (hr : runHandler index s = .next t) : t.Inv := by
  obtain ⟨u, hu, ht⟩ := andThen_eq_next.mp hr
  have hi : u.Inv := by
    refine deviceActs_inv ?_ hu
    exact h.congr h.memWf h.queueBound rfl rfl rfl
  cases ht
  exact hi.congr hi.memWf hi.queueBound rfl rfl rfl

theorem hostAct_inv {a : HostAction} {s t : State} (h : s.Inv) (ha : hostAct a s = .next t) : t.Inv := by
  cases a with
  | act d => exact deviceAct_inv h ha
  | addDevice d => cases ha; exact addDevice_inv h d
  | clear => cases ha; exact clear_inv h
  | load words origin =>
    simp only [hostAct, hostLoad] at ha
    split at ha
    · cases ha
      exact h.congr (Memory.writeList_wf h.memWf _ _) h.queueBound rfl rfl rfl
    · cases ha
  | start =>
    cases ha
    unfold hostStart
    split
    · exact h.congr h.memWf h.queueBound rfl rfl rfl
    · exact h
  | stop =>
    cases ha
    unfold hostStop
    split
    · exact h.congr h.memWf h.queueBound rfl rfl rfl
    · exact h

theorem hostActs_inv {as : List HostAction} {s t : State} (h : s.Inv) (ha : hostActs as s = .next t) : t.Inv := by
  induction as generalizing s with
  | nil => cases ha; exact h
  | cons a as ih =>
    obtain ⟨u, hu, ht⟩ := andThen_eq_next.mp ha
    exact ih (hostAct_inv h hu) ht

theorem arrivals_inv {s t : State} (h : s.Inv) (ha : arrivals s = .next t) : t.Inv := by
  unfold arrivals at ha
  split at ha
  · cases ha; exact h
  · refine hostActs_inv ?_ ha
    exact h.congr h.memWf h.queueBound rfl rfl rfl

@[simp] theorem arrivals_none {s : State} (h : s.agenda = []) : arrivals s = .next s := by
  unfold arrivals
  rw [h]

end Sys2Proof.Machine
end

