-- ==== Sys2Proof/Laws/Fetch.lean ====
section
/-! SUPPORT. What fetching and skipping can do: PC, the cycle counter and the count of callbacks, nothing else. -/

namespace Sys2Proof.Machine

/-! ### Fetching -/

@[simp] theorem fetchWord_pc (s : State) : (fetchWord s).2.pc = s.pc + 1 := rfl
@[simp] theorem fetchWord_regs (s : State) : (fetchWord s).2.regs = s.regs := by
  simp [fetchWord]
@[simp] theorem fetchWord_sp (s : State) : (fetchWord s).2.sp = s.sp := by
  simp [fetchWord]
@[simp] theorem fetchWord_ex (s : State) : (fetchWord s).2.ex = s.ex := by
  simp [fetchWord]
@[simp] theorem fetchWord_ia (s : State) : (fetchWord s).2.ia = s.ia := by
  simp [fetchWord]
@[simp] theorem fetchWord_queueing (s : State) : (fetchWord s).2.queueing = s.queueing := by
  simp [fetchWord]
@[simp] theorem fetchWord_iq (s : State) : (fetchWord s).2.iq = s.iq := by
  simp [fetchWord]
@[simp] theorem fetchWord_cycle (s : State) : (fetchWord s).2.cycle = s.cycle := by
  simp [fetchWord]
@[simp] theorem fetchWord_run (s : State) : (fetchWord s).2.run = s.run := by
  simp [fetchWord]
@[simp] theorem fetchWord_mem (s : State) : (fetchWord s).2.mem = s.mem := by
  simp [fetchWord]
@[simp] theorem fetchWord_devices (s : State) : (fetchWord s).2.devices = s.devices := by
  simp [fetchWord]
@[simp] theorem fetchWord_readHooks (s : State) : (fetchWord s).2.readHooks = s.readHooks := by
  simp [fetchWord]
@[simp] theorem fetchWord_writeHooks (s : State) : (fetchWord s).2.writeHooks = s.writeHooks := by
  simp [fetchWord]
@[simp] theorem fetchWord_params (s : State) : (fetchWord s).2.params = s.params := by
  simp [fetchWord]
@[simp] theorem fetchWord_agenda (s : State) : (fetchWord s).2.agenda = s.agenda := by
  simp [fetchWord]
@[simp] theorem fetchWord_endEvents (s : State) : (fetchWord s).2.endEvents = s.endEvents := by
  simp [fetchWord]
@[simp] theorem fetchWord_skipping (s : State) : (fetchWord s).2.skipping = s.skipping := by
  simp [fetchWord]

theorem fetchWord_state (s : State) :
    (fetchWord s).2 = { s with pc := s.pc + 1, envTick := (fetchWord s).2.envTick } := by
  ext1 <;> simp

@[simp] theorem fetchWord_noHooks {s : State} (h : s.readHooks = []) :
    fetchWord s = (s.mem.read s.pc, { s with pc := s.pc + 1 }) := by
  simp only [fetchWord, fetchRead_noHooks h]

@[simp] theorem fetchWord_raw {s : State} (h : s.params.fetchViaHooks = false) :
    fetchWord s = (s.mem.read s.pc, { s with pc := s.pc + 1 }) := by
  simp only [fetchWord, fetchRead_raw h]

@[simp] theorem nextIf_pc (needed : Bool) (s : State) :
    (nextIf needed s).2.pc = s.pc + BitVec.ofNat 16 (if needed then 1 else 0) := by
  cases needed <;> simp [nextIf, nextWord]
@[simp] theorem nextIf_cycle (needed : Bool) (s : State) :
    (nextIf needed s).2.cycle = s.cycle + (if needed then 1 else 0) := by
  cases needed <;> simp [nextIf, nextWord]
@[simp] theorem nextIf_regs (needed : Bool) (s : State) : (nextIf needed s).2.regs = s.regs := by
  cases needed <;> simp [nextIf, nextWord]
@[simp] theorem nextIf_sp (needed : Bool) (s : State) : (nextIf needed s).2.sp = s.sp := by
  cases needed <;> simp [nextIf, nextWord]
@[simp] theorem nextIf_ex (needed : Bool) (s : State) : (nextIf needed s).2.ex = s.ex := by
  cases needed <;> simp [nextIf, nextWord]
@[simp] theorem nextIf_ia (needed : Bool) (s : State) : (nextIf needed s).2.ia = s.ia := by
  cases needed <;> simp [nextIf, nextWord]
@[simp] theorem nextIf_queueing (needed : Bool) (s : State) : (nextIf needed s).2.queueing = s.queueing := by
  cases needed <;> simp [nextIf, nextWord]
@[simp] theorem nextIf_iq (needed : Bool) (s : State) : (nextIf needed s).2.iq = s.iq := by
  cases needed <;> simp [nextIf, nextWord]
@[simp] theorem nextIf_run (needed : Bool) (s : State) : (nextIf needed s).2.run = s.run := by
  cases needed <;> simp [nextIf, nextWord]
@[simp] theorem nextIf_mem (needed : Bool) (s : State) : (nextIf needed s).2.mem = s.mem := by
  cases needed <;> simp [nextIf, nextWord]
@[simp] theorem nextIf_devices (needed : Bool) (s : State) : (nextIf needed s).2.devices = s.devices := by
  cases needed <;> simp [nextIf, nextWord]
@[simp] theorem nextIf_readHooks (needed : Bool) (s : State) : (nextIf needed s).2.readHooks = s.readHooks := by
  cases needed <;> simp [nextIf, nextWord]
@[simp] theorem nextIf_writeHooks (needed : Bool) (s : State) : (nextIf needed s).2.writeHooks = s.writeHooks := by
  cases needed <;> simp [nextIf, nextWord]
@[simp] theorem nextIf_params (needed : Bool) (s : State) : (nextIf needed s).2.params = s.params := by
  cases needed <;> simp [nextIf, nextWord]
@[simp] theorem nextIf_agenda (needed : Bool) (s : State) : (nextIf needed s).2.agenda = s.agenda := by
  cases needed <;> simp [nextIf, nextWord]
@[simp] theorem nextIf_endEvents (needed : Bool) (s : State) : (nextIf needed s).2.endEvents = s.endEvents := by
  cases needed <;> simp [nextIf, nextWord]
@[simp] theorem nextIf_skipping (needed : Bool) (s : State) : (nextIf needed s).2.skipping = s.skipping := by
  cases needed <;> simp [nextIf, nextWord]

theorem nextIf_words_length (needed : Bool) (s : State) :
    (nextIf needed s).1.length = if needed then 1 else 0 := by
  cases needed <;> rfl

/-- The words that `b` consumes are counted as the length rule counts them (spec/30_encoding.md R94). -/
theorem extraWords_eq (w : Word) :
    extraWords w = (if consumesNext (fieldA w) then 1 else 0) + (if bConsumesNext w then 1 else 0) := by
  simp [extraWords, bConsumesNext]

@[simp] theorem fetchInstr_regs (s : State) : (fetchInstr s).2.regs = s.regs := by
  simp [fetchInstr]
@[simp] theorem fetchInstr_sp (s : State) : (fetchInstr s).2.sp = s.sp := by
  simp [fetchInstr]
@[simp] theorem fetchInstr_ex (s : State) : (fetchInstr s).2.ex = s.ex := by
  simp [fetchInstr]
@[simp] theorem fetchInstr_ia (s : State) : (fetchInstr s).2.ia = s.ia := by
  simp [fetchInstr]
@[simp] theorem fetchInstr_queueing (s : State) : (fetchInstr s).2.queueing = s.queueing := by
  simp [fetchInstr]
@[simp] theorem fetchInstr_iq (s : State) : (fetchInstr s).2.iq = s.iq := by
  simp [fetchInstr]
@[simp] theorem fetchInstr_run (s : State) : (fetchInstr s).2.run = s.run := by
  simp [fetchInstr]
@[simp] theorem fetchInstr_mem (s : State) : (fetchInstr s).2.mem = s.mem := by
  simp [fetchInstr]
@[simp] theorem fetchInstr_devices (s : State) : (fetchInstr s).2.devices = s.devices := by
  simp [fetchInstr]
@[simp] theorem fetchInstr_readHooks (s : State) : (fetchInstr s).2.readHooks = s.readHooks := by
  simp [fetchInstr]
@[simp] theorem fetchInstr_writeHooks (s : State) : (fetchInstr s).2.writeHooks = s.writeHooks := by
  simp [fetchInstr]
@[simp] theorem fetchInstr_params (s : State) : (fetchInstr s).2.params = s.params := by
  simp [fetchInstr]
@[simp] theorem fetchInstr_agenda (s : State) : (fetchInstr s).2.agenda = s.agenda := by
  simp [fetchInstr]
@[simp] theorem fetchInstr_endEvents (s : State) : (fetchInstr s).2.endEvents = s.endEvents := by
  simp [fetchInstr]
@[simp] theorem fetchInstr_skipping (s : State) : (fetchInstr s).2.skipping = s.skipping := by
  simp [fetchInstr]

/-- After a fetch PC is past the instruction (spec/10_state.md R21). -/
theorem fetchInstr_pc (s : State) :
    (fetchInstr s).2.pc = s.pc + 1 + BitVec.ofNat 16 (extraWords (fetchWord s).1) := by
  simp only [fetchInstr, nextIf_pc, fetchWord_pc, extraWords_eq, BitVec.add_assoc, BitVec.ofNat_add]

/-- Each next word has cost one cycle (spec/70_reset_and_hazards.md R367). -/
theorem fetchInstr_cycle (s : State) : (fetchInstr s).2.cycle = s.cycle + extraWords (fetchWord s).1 := by
  simp only [fetchInstr, nextIf_cycle, fetchWord_cycle, extraWords_eq, Nat.add_assoc]

/-- A fetch changes PC, the cycle counter and the count of callbacks, and nothing else. -/
theorem fetchInstr_state (s : State) :
    (fetchInstr s).2 =
      { s with pc := s.pc + 1 + BitVec.ofNat 16 (extraWords (fetchWord s).1)
               cycle := s.cycle + extraWords (fetchWord s).1
               envTick := (fetchInstr s).2.envTick } := by
  ext1 <;> simp [fetchInstr_pc, fetchInstr_cycle]

/-- The fetch hands over the instruction word first. -/
theorem fetchInstr_head (s : State) : (fetchInstr s).1.headD 0 = (fetchWord s).1 := rfl

/-- The fetch hands over as many words as the instruction has (R94). -/
theorem fetchInstr_length (s : State) : (fetchInstr s).1.length = 1 + extraWords (fetchWord s).1 := by
  simp only [fetchInstr, List.length_cons, List.length_append, nextIf_words_length, extraWords_eq]
  omega


theorem fetchInstr_inv {s : State} (h : s.Inv) : (fetchInstr s).2.Inv :=
  h.congr (by simpa using h.memWf) (by simpa using h.queueBound) (by simp) (by simp) (by simp)

/-! ### Skipping -/

/-- One instruction passed over: PC goes past its words (spec/44_conditionals.md R231). -/
theorem skipLoop_succ (n : Nat) (s : State) :
    skipLoop (n + 1) s =
      if isConditionalFor s.params.opMap (fetchWord s).1 then
        skipLoop n (State.addCycles { (fetchWord s).2 with
          pc := (fetchWord s).2.pc + BitVec.ofNat 16 (extraWords (fetchWord s).1) } 1)
      else { (fetchWord s).2 with
        pc := (fetchWord s).2.pc + BitVec.ofNat 16 (extraWords (fetchWord s).1), skipping := false } := rfl

/-- A skip changes PC, the cycle counter, the count of callbacks and whether it is in progress, and nothing else. -/
theorem skipLoop_state (n : Nat) (s : State) :
    skipLoop n s =
      { s with pc := (skipLoop n s).pc, cycle := (skipLoop n s).cycle, envTick := (skipLoop n s).envTick,
               skipping := (skipLoop n s).skipping } := by
  induction n generalizing s with
  | zero => rfl
  | succ n ih =>
    rw [skipLoop_succ]
    split
    · rw [ih]
      ext1 <;> simp
    · ext1 <;> simp

theorem skipLoop_cycle (n : Nat) (s : State) : s.cycle ≤ (skipLoop n s).cycle := by
  induction n generalizing s with
  | zero => exact Nat.le_refl _
  | succ n ih =>
    rw [skipLoop_succ]
    split
    · refine Nat.le_trans ?_ (ih _)
      simp
    · simp

theorem goOnSkipping_state (s : State) :
    goOnSkipping s =
      { s with pc := (goOnSkipping s).pc, cycle := (goOnSkipping s).cycle, envTick := (goOnSkipping s).envTick,
               skipping := (goOnSkipping s).skipping } := skipLoop_state _ _

theorem goOnSkipping_inv {s : State} (h : s.Inv) : (goOnSkipping s).Inv := by
  rw [goOnSkipping_state]
  exact h.congr h.memWf h.queueBound rfl rfl rfl

theorem skip_state (s : State) :
    skip s = { s with pc := (skip s).pc, cycle := (skip s).cycle, envTick := (skip s).envTick,
                      skipping := (skip s).skipping } := skipLoop_state _ (s.addCycles 1)

theorem skip_cycle (s : State) : s.cycle + 1 ≤ (skip s).cycle := skipLoop_cycle _ (s.addCycles 1)

theorem skip_inv {s : State} (h : s.Inv) : (skip s).Inv := by
  rw [skip_state]
  exact h.congr h.memWf h.queueBound rfl rfl rfl

end Sys2Proof.Machine
end

