-- ==== Sys2Proof/Laws/Operands.lean ====
section
/-! SUPPORT. What resolving, reading and writing an operand can do. -/

namespace Sys2Proof.Machine

/-! ### Resolving -/

@[simp] theorem resolve_ref (p : Pos) (o : Operand) (s : State) : (resolve p o s).1 = refOf p o s := rfl
@[simp] theorem resolve_state (p : Pos) (o : Operand) (s : State) :
    (resolve p o s).2 = { s with sp := spAfter p o s.sp } := rfl

@[simp] theorem spAfter_pop (sp : Word) : spAfter .a .pop sp = sp + 1 := rfl
@[simp] theorem spAfter_push (sp : Word) : spAfter .b .push sp = sp - 1 := rfl
@[simp] theorem spAfter_short (p : Pos) (k : BitVec 5) (sp : Word) : spAfter p (.short k) sp = sp := rfl
@[simp] theorem spAfter_reg (p : Pos) (r : GReg) (sp : Word) : spAfter p (.reg r) sp = sp := rfl
@[simp] theorem spAfter_pc (p : Pos) (sp : Word) : spAfter p .pc sp = sp := rfl

/-! ### Reading -/

/-- What a reference holds when no read hook answers (spec/40_operand_resolution.md R145). -/
def State.refValue (s : State) : Ref → Word
  | .reg r => s.getReg r
  | .mem addr => s.mem.read addr
  | .lit v => v

/-- Reading a reference changes nothing but the count of callbacks. -/
theorem getRef_state (r : Ref) (s : State) : (getRef r s).2 = { s with envTick := (getRef r s).2.envTick } := by
  cases r <;> rfl

@[simp] theorem getRef_noHooks {s : State} (h : s.readHooks = []) (r : Ref) : getRef r s = (s.refValue r, s) := by
  cases r
  · rfl
  · exact memRead_noHooks h _
  · rfl

@[simp] theorem getRef_regs (r : Ref) (s : State) : (getRef r s).2.regs = s.regs := by
  rw [getRef_state]
@[simp] theorem getRef_pc (r : Ref) (s : State) : (getRef r s).2.pc = s.pc := by
  rw [getRef_state]
@[simp] theorem getRef_sp (r : Ref) (s : State) : (getRef r s).2.sp = s.sp := by
  rw [getRef_state]
@[simp] theorem getRef_ex (r : Ref) (s : State) : (getRef r s).2.ex = s.ex := by
  rw [getRef_state]
@[simp] theorem getRef_ia (r : Ref) (s : State) : (getRef r s).2.ia = s.ia := by
  rw [getRef_state]
@[simp] theorem getRef_queueing (r : Ref) (s : State) : (getRef r s).2.queueing = s.queueing := by
  rw [getRef_state]
@[simp] theorem getRef_iq (r : Ref) (s : State) : (getRef r s).2.iq = s.iq := by
  rw [getRef_state]
@[simp] theorem getRef_cycle (r : Ref) (s : State) : (getRef r s).2.cycle = s.cycle := by
  rw [getRef_state]
@[simp] theorem getRef_run (r : Ref) (s : State) : (getRef r s).2.run = s.run := by
  rw [getRef_state]
@[simp] theorem getRef_mem (r : Ref) (s : State) : (getRef r s).2.mem = s.mem := by
  rw [getRef_state]
@[simp] theorem getRef_devices (r : Ref) (s : State) : (getRef r s).2.devices = s.devices := by
  rw [getRef_state]
@[simp] theorem getRef_readHooks (r : Ref) (s : State) : (getRef r s).2.readHooks = s.readHooks := by
  rw [getRef_state]
@[simp] theorem getRef_writeHooks (r : Ref) (s : State) : (getRef r s).2.writeHooks = s.writeHooks := by
  rw [getRef_state]
@[simp] theorem getRef_params (r : Ref) (s : State) : (getRef r s).2.params = s.params := by
  rw [getRef_state]
@[simp] theorem getRef_agenda (r : Ref) (s : State) : (getRef r s).2.agenda = s.agenda := by
  rw [getRef_state]
@[simp] theorem getRef_endEvents (r : Ref) (s : State) : (getRef r s).2.endEvents = s.endEvents := by
  rw [getRef_state]
@[simp] theorem getRef_skipping (r : Ref) (s : State) : (getRef r s).2.skipping = s.skipping := by
  rw [getRef_state]

/-! ### Writing -/

@[simp] theorem setRef_reg (r : RegName) (v : Word) (s : State) : setRef (.reg r) v s = s.setReg r v := rfl
@[simp] theorem setRef_mem (addr v : Word) (s : State) : setRef (.mem addr) v s = memWrite addr v s := rfl
@[simp] theorem setRef_lit (w v : Word) (s : State) : setRef (.lit w) v s = s := rfl

@[simp] theorem setRef_queueing (r : Ref) (v : Word) (s : State) : (setRef r v s).queueing = s.queueing := by
  cases r <;> simp
@[simp] theorem setRef_iq (r : Ref) (v : Word) (s : State) : (setRef r v s).iq = s.iq := by
  cases r <;> simp
@[simp] theorem setRef_cycle (r : Ref) (v : Word) (s : State) : (setRef r v s).cycle = s.cycle := by
  cases r <;> simp
@[simp] theorem setRef_run (r : Ref) (v : Word) (s : State) : (setRef r v s).run = s.run := by
  cases r <;> simp
@[simp] theorem setRef_devices (r : Ref) (v : Word) (s : State) : (setRef r v s).devices = s.devices := by
  cases r <;> simp
@[simp] theorem setRef_readHooks (r : Ref) (v : Word) (s : State) : (setRef r v s).readHooks = s.readHooks := by
  cases r <;> simp
@[simp] theorem setRef_writeHooks (r : Ref) (v : Word) (s : State) : (setRef r v s).writeHooks = s.writeHooks := by
  cases r <;> simp
@[simp] theorem setRef_params (r : Ref) (v : Word) (s : State) : (setRef r v s).params = s.params := by
  cases r <;> simp
@[simp] theorem setRef_agenda (r : Ref) (v : Word) (s : State) : (setRef r v s).agenda = s.agenda := by
  cases r <;> simp
@[simp] theorem setRef_endEvents (r : Ref) (v : Word) (s : State) : (setRef r v s).endEvents = s.endEvents := by
  cases r <;> simp
@[simp] theorem setRef_skipping (r : Ref) (v : Word) (s : State) : (setRef r v s).skipping = s.skipping := by
  cases r <;> simp

/-- A reference that is not the named register leaves that register alone. -/
theorem setRef_getReg_other {r : Ref} {n : RegName} (h : r ≠ .reg n) (v : Word) (s : State) :
    (setRef r v s).getReg n = s.getReg n := by
  cases r with
  | reg m => simp only [setRef_reg, State.getReg_setReg, if_neg (fun e : m = n => h (e ▸ rfl))]
  | mem addr => cases n <;> simp
  | lit w => rfl

/-- Writing a named register and reading it back. -/
theorem setRef_getReg_same (n : RegName) (v : Word) (s : State) : (setRef (.reg n) v s).getReg n = v := by
  rw [setRef_reg, State.getReg_setReg, if_pos rfl]

theorem setRef_mem_wf {s : State} (h : s.mem.wf = true) (r : Ref) (v : Word) : (setRef r v s).mem.wf = true := by
  cases r
  · simpa using h
  · exact memWrite_mem_wf h _ _
  · exact h

/-- A write through a reference leaves every address it does not name alone. -/
theorem setRef_read_other {s : State} (h : s.mem.wf = true) {r : Ref} (v : Word) {addr : Word}
    (hne : r ≠ .mem addr) : (setRef r v s).mem.read addr = s.mem.read addr := by
  cases r with
  | reg n => simp
  | mem addr' => exact memWrite_read_other h v (fun e => hne (e ▸ rfl))
  | lit w => rfl

theorem setRef_inv {s : State} (h : s.Inv) (r : Ref) (v : Word) : (setRef r v s).Inv :=
  h.congr (setRef_mem_wf h.memWf r v) (by simpa using h.queueBound) (by simp) (by simp) (by simp)

/-- No operand form names IA (spec/10_state.md R24). -/
theorem refOf_ne_ia (p : Pos) (o : Operand) (s : State) : refOf p o s ≠ .reg .ia := by
  cases o <;> cases p <;> simp [refOf]

/-! ### The operands of an instruction -/

theorem getRef_getRef_state (r r' : Ref) (s : State) :
    (getRef r' (getRef r s).2).2 = { s with envTick := (getRef r' (getRef r s).2).2.envTick } := by
  cases r <;> cases r' <;> rfl

/-- Handing over the operands changes SP, the cycle counter and the count of callbacks, and nothing else. -/
theorem basicOperands_state (cost : Nat) (b a : Operand) (s : State) :
    (basicOperands cost b a s).st =
      { s with sp := spAfter .b b (spAfter .a a s.sp), cycle := s.cycle + cost,
               envTick := (basicOperands cost b a s).st.envTick } := by
  exact getRef_getRef_state _ _ _

@[simp] theorem basicOperands_bref (cost : Nat) (b a : Operand) (s : State) :
    (basicOperands cost b a s).bref = refOf .b b { s with sp := spAfter .a a s.sp } := rfl

theorem basicOperands_noHooks {s : State} (h : s.readHooks = []) (cost : Nat) (b a : Operand) :
    let t := { s with sp := spAfter .b b (spAfter .a a s.sp), cycle := s.cycle + cost }
    basicOperands cost b a s =
      { bref := refOf .b b { s with sp := spAfter .a a s.sp }
        aval := t.refValue (refOf .a a s)
        bval := t.refValue (refOf .b b { s with sp := spAfter .a a s.sp })
        st := t } := by
  simp only [basicOperands, resolve]
  rw [getRef_noHooks (by exact h)]
  simp only
  rw [getRef_noHooks (by exact h)]
  rfl

/-- As `basicOperands_state`, for a special instruction. -/
theorem specialOperand_state (cost : Nat) (a : Operand) (s : State) :
    (specialOperand cost a s).st =
      { s with sp := spAfter .a a s.sp, cycle := s.cycle + cost, envTick := (specialOperand cost a s).st.envTick } := by
  exact getRef_state _ _

@[simp] theorem specialOperand_aref (cost : Nat) (a : Operand) (s : State) :
    (specialOperand cost a s).aref = refOf .a a s := rfl

theorem specialOperand_noHooks {s : State} (h : s.readHooks = []) (cost : Nat) (a : Operand) :
    let t := { s with sp := spAfter .a a s.sp, cycle := s.cycle + cost }
    specialOperand cost a s = { aref := refOf .a a s, aval := t.refValue (refOf .a a s), st := t } := by
  simp only [specialOperand, resolve]
  rw [getRef_noHooks (by exact h)]
  rfl

@[simp] theorem basicOperands_regs (cost : Nat) (b a : Operand) (s : State) :
    (basicOperands cost b a s).st.regs = s.regs := by
  rw [basicOperands_state]
@[simp] theorem basicOperands_pc (cost : Nat) (b a : Operand) (s : State) :
    (basicOperands cost b a s).st.pc = s.pc := by
  rw [basicOperands_state]
@[simp] theorem basicOperands_sp (cost : Nat) (b a : Operand) (s : State) :
    (basicOperands cost b a s).st.sp = spAfter .b b (spAfter .a a s.sp) := by
  rw [basicOperands_state]
@[simp] theorem basicOperands_ex (cost : Nat) (b a : Operand) (s : State) :
    (basicOperands cost b a s).st.ex = s.ex := by
  rw [basicOperands_state]
@[simp] theorem basicOperands_ia (cost : Nat) (b a : Operand) (s : State) :
    (basicOperands cost b a s).st.ia = s.ia := by
  rw [basicOperands_state]
@[simp] theorem basicOperands_queueing (cost : Nat) (b a : Operand) (s : State) :
    (basicOperands cost b a s).st.queueing = s.queueing := by
  rw [basicOperands_state]
@[simp] theorem basicOperands_iq (cost : Nat) (b a : Operand) (s : State) :
    (basicOperands cost b a s).st.iq = s.iq := by
  rw [basicOperands_state]
@[simp] theorem basicOperands_cycle (cost : Nat) (b a : Operand) (s : State) :
    (basicOperands cost b a s).st.cycle = s.cycle + cost := by
  rw [basicOperands_state]
@[simp] theorem basicOperands_run (cost : Nat) (b a : Operand) (s : State) :
    (basicOperands cost b a s).st.run = s.run := by
  rw [basicOperands_state]
@[simp] theorem basicOperands_mem (cost : Nat) (b a : Operand) (s : State) :
    (basicOperands cost b a s).st.mem = s.mem := by
  rw [basicOperands_state]
@[simp] theorem basicOperands_devices (cost : Nat) (b a : Operand) (s : State) :
    (basicOperands cost b a s).st.devices = s.devices := by
  rw [basicOperands_state]
@[simp] theorem basicOperands_readHooks (cost : Nat) (b a : Operand) (s : State) :
    (basicOperands cost b a s).st.readHooks = s.readHooks := by
  rw [basicOperands_state]
@[simp] theorem basicOperands_writeHooks (cost : Nat) (b a : Operand) (s : State) :
    (basicOperands cost b a s).st.writeHooks = s.writeHooks := by
  rw [basicOperands_state]
@[simp] theorem basicOperands_params (cost : Nat) (b a : Operand) (s : State) :
    (basicOperands cost b a s).st.params = s.params := by
  rw [basicOperands_state]
@[simp] theorem basicOperands_agenda (cost : Nat) (b a : Operand) (s : State) :
    (basicOperands cost b a s).st.agenda = s.agenda := by
  rw [basicOperands_state]
@[simp] theorem basicOperands_endEvents (cost : Nat) (b a : Operand) (s : State) :
    (basicOperands cost b a s).st.endEvents = s.endEvents := by
  rw [basicOperands_state]
@[simp] theorem basicOperands_skipping (cost : Nat) (b a : Operand) (s : State) :
    (basicOperands cost b a s).st.skipping = s.skipping := by
  rw [basicOperands_state]
@[simp] theorem specialOperand_regs (cost : Nat) (a : Operand) (s : State) :
    (specialOperand cost a s).st.regs = s.regs := by
  rw [specialOperand_state]
@[simp] theorem specialOperand_pc (cost : Nat) (a : Operand) (s : State) :
    (specialOperand cost a s).st.pc = s.pc := by
  rw [specialOperand_state]
@[simp] theorem specialOperand_sp (cost : Nat) (a : Operand) (s : State) :
    (specialOperand cost a s).st.sp = spAfter .a a s.sp := by
  rw [specialOperand_state]
@[simp] theorem specialOperand_ex (cost : Nat) (a : Operand) (s : State) :
    (specialOperand cost a s).st.ex = s.ex := by
  rw [specialOperand_state]
@[simp] theorem specialOperand_ia (cost : Nat) (a : Operand) (s : State) :
    (specialOperand cost a s).st.ia = s.ia := by
  rw [specialOperand_state]
@[simp] theorem specialOperand_queueing (cost : Nat) (a : Operand) (s : State) :
    (specialOperand cost a s).st.queueing = s.queueing := by
  rw [specialOperand_state]
@[simp] theorem specialOperand_iq (cost : Nat) (a : Operand) (s : State) :
    (specialOperand cost a s).st.iq = s.iq := by
  rw [specialOperand_state]
@[simp] theorem specialOperand_cycle (cost : Nat) (a : Operand) (s : State) :
    (specialOperand cost a s).st.cycle = s.cycle + cost := by
  rw [specialOperand_state]
@[simp] theorem specialOperand_run (cost : Nat) (a : Operand) (s : State) :
    (specialOperand cost a s).st.run = s.run := by
  rw [specialOperand_state]
@[simp] theorem specialOperand_mem (cost : Nat) (a : Operand) (s : State) :
    (specialOperand cost a s).st.mem = s.mem := by
  rw [specialOperand_state]
@[simp] theorem specialOperand_devices (cost : Nat) (a : Operand) (s : State) :
    (specialOperand cost a s).st.devices = s.devices := by
  rw [specialOperand_state]
@[simp] theorem specialOperand_readHooks (cost : Nat) (a : Operand) (s : State) :
    (specialOperand cost a s).st.readHooks = s.readHooks := by
  rw [specialOperand_state]
@[simp] theorem specialOperand_writeHooks (cost : Nat) (a : Operand) (s : State) :
    (specialOperand cost a s).st.writeHooks = s.writeHooks := by
  rw [specialOperand_state]
@[simp] theorem specialOperand_params (cost : Nat) (a : Operand) (s : State) :
    (specialOperand cost a s).st.params = s.params := by
  rw [specialOperand_state]
@[simp] theorem specialOperand_agenda (cost : Nat) (a : Operand) (s : State) :
    (specialOperand cost a s).st.agenda = s.agenda := by
  rw [specialOperand_state]
@[simp] theorem specialOperand_endEvents (cost : Nat) (a : Operand) (s : State) :
    (specialOperand cost a s).st.endEvents = s.endEvents := by
  rw [specialOperand_state]
@[simp] theorem specialOperand_skipping (cost : Nat) (a : Operand) (s : State) :
    (specialOperand cost a s).st.skipping = s.skipping := by
  rw [specialOperand_state]

theorem basicOperands_inv {s : State} (h : s.Inv) (cost : Nat) (b a : Operand) : (basicOperands cost b a s).st.Inv :=
  h.congr (by simpa using h.memWf) (by simpa using h.queueBound) (by simp) (by simp) (by simp)

theorem specialOperand_inv {s : State} (h : s.Inv) (cost : Nat) (a : Operand) : (specialOperand cost a s).st.Inv :=
  h.congr (by simpa using h.memWf) (by simpa using h.queueBound) (by simp) (by simp) (by simp)

end Sys2Proof.Machine
end

