-- ==== Sys2Proof/Laws/Meanings.lean ====
section
/-! SUPPORT. What the operations that the meanings share can do. -/

namespace Sys2Proof.Machine

/-! ### Storing a result -/

theorem storeResult_eq (e : BasicOperands) (v : Word) : storeResult e v = .next (setRef e.bref v e.st) := rfl

/-- The state that a result and an EX value leave: they meet only when the destination is EX, and then
`EX_DEST_ORDER` decides (spec/42_set_arithmetic.md R179, R191). -/
theorem storeResultAndEx_eq (e : BasicOperands) (r : AluResult) :
    storeResultAndEx e r =
      .next (if e.bref = .reg .ex then
          { e.st with ex := if e.st.params.exDestOrder = .flagLast then r.ex else r.value }
        else { setRef e.bref r.value e.st with ex := r.ex }) := by
  unfold storeResultAndEx
  by_cases hb : e.bref = .reg .ex
  · rw [if_pos hb, hb]
    cases ho : e.st.params.exDestOrder <;> simp
  · rw [if_neg hb]
    cases ho : e.st.params.exDestOrder
    · rfl
    · simp only [Host.Outcome.next.injEq]
      cases hr : e.bref with
      | reg n =>
        cases n with
        | ex => exact absurd hr hb
        | _ => rfl
      | mem addr =>
        simp only [setRef_mem, memWrite]
        split <;> rfl
      | lit w => rfl

theorem storeResultAndEx_inv {e : BasicOperands} {r : AluResult} {t : State} (h : e.st.Inv)
    (ht : storeResultAndEx e r = .next t) : t.Inv := by
  rw [storeResultAndEx_eq] at ht
  cases ht
  split
  · exact h.congr h.memWf h.queueBound rfl rfl rfl
  · have hi := setRef_inv h e.bref r.value
    exact hi.congr hi.memWf hi.queueBound rfl rfl rfl

/-! ### Conditionals -/

@[simp] theorem testOrSkip_true (s : State) : testOrSkip true s = .next s := rfl
@[simp] theorem testOrSkip_false (s : State) : testOrSkip false s = .next (skip s) := rfl

theorem testOrSkip_eq_next {holds : Bool} {s t : State} :
    testOrSkip holds s = .next t ↔ (holds = true ∧ t = s) ∨ (holds = false ∧ t = skip s) := by
  cases holds <;> simp [eq_comm]

theorem testOrSkip_inv {holds : Bool} {s t : State} (h : s.Inv) (ht : testOrSkip holds s = .next t) : t.Inv := by
  rcases testOrSkip_eq_next.mp ht with ⟨-, rfl⟩ | ⟨-, rfl⟩
  · exact h
  · exact skip_inv h

/-! ### Unassigned opcodes and costs -/

/-- The decode fault carries the instruction word in the machine's own numbers (spec/60_exceptions.md R320). -/
theorem decodeFault_eq (i : Instr) (s : State) :
    ∃ w, (encodeFor s.params.opMap i).head? = some w ∧ decodeFault i s = .fault (.decodeFault w) := by
  obtain ⟨w, ws, h⟩ : ∃ w ws, encode i = w :: ws := by
    unfold encode
    cases i.shape with
    | basic o b a => exact ⟨_, _, rfl⟩
    | special s a => exact ⟨_, _, rfl⟩
  exact ⟨s.params.opMap.ofTable w, by simp [encodeFor, h, onHead], by simp [decodeFault, encodeFor, h, onHead]⟩

/-- With the default `COST` every base cost is that of the table (spec/70_reset_and_hazards.md R368). -/
theorem baseCost_default {p : Config.Params} (h : p.costs = []) (i : Instr) : baseCost p i = defaultCost i := by
  simp [baseCost, h]

/-- The costs that the source states hold whatever `COST` is (R368). -/
theorem baseCost_stated (p : Config.Params) {i : Instr} (h : statedCosts.contains i.opcode = true) :
    baseCost p i = defaultCost i := by
  unfold baseCost
  split
  · rfl
  · rw [if_pos h]

/-! ### Stepping I and J -/

@[simp] theorem stepIJ_i (d : Word) (s : State) : (stepIJ d s).regs.i = s.regs.i + d := rfl
@[simp] theorem stepIJ_j (d : Word) (s : State) : (stepIJ d s).regs.j = s.regs.j + d := rfl

theorem stepIJ_get_other (d : Word) (s : State) {r : GReg} (hi : r ≠ .i) (hj : r ≠ .j) :
    (stepIJ d s).regs.get r = s.regs.get r := by
  cases r <;> first | rfl | contradiction

theorem stepIJ_inv {s : State} (h : s.Inv) (d : Word) : (stepIJ d s).Inv :=
  h.congr h.memWf h.queueBound rfl rfl rfl

/-! ### Numbers -/

theorem s16_eq_toInt (v : Word) : s16 v = v.toInt := by
  have := v.isLt
  unfold s16 BitVec.toInt
  split <;> split <;> omega

theorem u16_toNat (n : Int) : ((u16 n).toNat : Int) = n % 65536 := by
  rw [u16, BitVec.toNat_ofInt]
  omega

/-- Narrowing depends on the number modulo 65536 only (spec/00_scope.md R7). -/
theorem u16_eq_iff (m n : Int) : u16 m = u16 n ↔ m % 65536 = n % 65536 := by
  constructor
  · intro h
    rw [← u16_toNat, ← u16_toNat, h]
  · intro h
    apply BitVec.eq_of_toNat_eq
    have hm := u16_toNat m
    have hn := u16_toNat n
    omega

end Sys2Proof.Machine
end

