-- ==== Sys2Proof/Tests/Slice0.lean ====
section
/-! SUPPORT. The model's own tests: ill-formed terms refused, words written out from the encodings of
spec/30_encoding.md, one-step runs with the expected values of spec/95_test_vectors.md (the vector is named at each
test), and for every obligation with hypotheses a state and operands that meet them. -/

namespace Sys2Proof.Tests

open Sys2Proof.Machine

/-! ### Helpers -/

/-- The reset state, running, with words at an address and PC there. -/
def prog (origin : Word) (words : List Word) : State :=
  { State.reset with run := .running, pc := origin, mem := Memory.writeList [] origin words }

/-- Whether an outcome is a next state that passes a check. -/
def isNext (o : Outcome) (check : State → Bool) : Bool :=
  match o with
  | .next t => check t
  | .fault _ => false
  | .refused _ => false

/-- Whether the next step of a state is a next state that passes a check. -/
def after (s : State) (check : State → Bool) : Bool := isNext (step s) check

/-- Whether an outcome is a next state. -/
def runs (o : Outcome) : Bool := isNext o fun _ => true

theorem next_of_runs {o : Outcome} (h : runs o = true) : ∃ t, o = .next t := by
  cases o with
  | next t => exact ⟨t, rfl⟩
  | fault e => cases h
  | refused e => cases h

/-- Whether words decode, all of them, to an instruction. -/
def reads (ws : List Word) (i : Instr) : Bool := decide (decode ws = .ok (i, []))

/-! ### Well-formedness: each check refuses an ill-formed term -/

theorem test_wf_push_as_a : (Instr.set (.reg .a) .push).wellFormed = false := by decide
theorem test_wf_push_as_special_a : (Instr.jsr .push).wellFormed = false := by decide
theorem test_wf_pop_as_b : (Instr.set .pop (.reg .a)).wellFormed = false := by decide
theorem test_wf_short_as_b : (Instr.ife (.short 2) (.reg .a)).wellFormed = false := by decide
theorem test_wf_push_pop : (Instr.set .push .pop).wellFormed = true := by decide

/-! ### Decoding: words written out as their fields, a at bit 10, b or s at bit 5, o at bit 0 (R91, R92) -/

/-- `OP A, B`: a = 000001, b = 00000 (table of R100). -/
theorem test_decode_arithmetic :
    ([(0b0000010000000001, .set (.reg .a) (.reg .b)), (0b0000010000000010, .add (.reg .a) (.reg .b)),
      (0b0000010000000011, .sub (.reg .a) (.reg .b)), (0b0000010000000100, .mul (.reg .a) (.reg .b)),
      (0b0000010000000101, .mli (.reg .a) (.reg .b)), (0b0000010000000110, .div (.reg .a) (.reg .b)),
      (0b0000010000000111, .dvi (.reg .a) (.reg .b)), (0b0000010000001000, .mod (.reg .a) (.reg .b)),
      (0b0000010000001001, .mdi (.reg .a) (.reg .b)), (0b0000010000011010, .adx (.reg .a) (.reg .b)),
      (0b0000010000011011, .sbx (.reg .a) (.reg .b))] : List (Word × Instr)).all
      (fun p => reads [p.1] p.2) = true := by decide

theorem test_decode_bitwise :
    ([(0b0000010000001010, .and (.reg .a) (.reg .b)), (0b0000010000001011, .bor (.reg .a) (.reg .b)),
      (0b0000010000001100, .xor (.reg .a) (.reg .b)), (0b0000010000001101, .shr (.reg .a) (.reg .b)),
      (0b0000010000001110, .asr (.reg .a) (.reg .b)), (0b0000010000001111, .shl (.reg .a) (.reg .b))] :
      List (Word × Instr)).all (fun p => reads [p.1] p.2) = true := by decide

theorem test_decode_conditionals :
    ([(0b0000010000010000, .ifb (.reg .a) (.reg .b)), (0b0000010000010001, .ifc (.reg .a) (.reg .b)),
      (0b0000010000010010, .ife (.reg .a) (.reg .b)), (0b0000010000010011, .ifn (.reg .a) (.reg .b)),
      (0b0000010000010100, .ifg (.reg .a) (.reg .b)), (0b0000010000010101, .ifa (.reg .a) (.reg .b)),
      (0b0000010000010110, .ifl (.reg .a) (.reg .b)), (0b0000010000010111, .ifu (.reg .a) (.reg .b))] :
      List (Word × Instr)).all (fun p => reads [p.1] p.2) = true := by decide

theorem test_decode_store_and_step :
    reads [0b0000010000011110] (.sti (.reg .a) (.reg .b)) && reads [0b0000010000011111] (.std (.reg .a) (.reg .b)) =
      true := by decide

theorem test_decode_unassigned_basic :
    ([(0b0000010000011000, .unassignedBasic18 (.reg .a) (.reg .b)),
      (0b0000010000011001, .unassignedBasic19 (.reg .a) (.reg .b)),
      (0b0000010000011100, .unassignedBasic1C (.reg .a) (.reg .b)),
      (0b0000010000011101, .unassignedBasic1D (.reg .a) (.reg .b))] : List (Word × Instr)).all
      (fun p => reads [p.1] p.2) = true := by decide

/-- `OP B`: a = 000001, bits 4:0 zero (table of R102). -/
theorem test_decode_special :
    ([(0b0000010000000000, .halt0 (.reg .b)), (0b0000010000100000, .jsr (.reg .b)),
      (0b0000010001000000, .brk (.reg .b)), (0b0000010011100000, .hcf (.reg .b)),
      (0b0000010100000000, .int (.reg .b)), (0b0000010100100000, .iag (.reg .b)),
      (0b0000010101000000, .ias (.reg .b)), (0b0000010101100000, .rfi (.reg .b)),
      (0b0000010110000000, .iaq (.reg .b)), (0b0000011000000000, .hwn (.reg .b)),
      (0b0000011000100000, .hwq (.reg .b)), (0b0000011001000000, .hwi (.reg .b))] : List (Word × Instr)).all
      (fun p => reads [p.1] p.2) = true := by decide

theorem test_decode_unassigned_special :
    ([(0b0000010001100000, .unassignedSpecial03 (.reg .b)), (0b0000010010000000, .unassignedSpecial04 (.reg .b)),
      (0b0000010010100000, .unassignedSpecial05 (.reg .b)), (0b0000010011000000, .unassignedSpecial06 (.reg .b)),
      (0b0000010110100000, .unassignedSpecial0D (.reg .b)), (0b0000010111000000, .unassignedSpecial0E (.reg .b)),
      (0b0000010111100000, .unassignedSpecial0F (.reg .b)), (0b0000011001100000, .unassignedSpecial13 (.reg .b)),
      (0b0000011010000000, .unassignedSpecial14 (.reg .b)), (0b0000011010100000, .unassignedSpecial15 (.reg .b)),
      (0b0000011011000000, .unassignedSpecial16 (.reg .b)), (0b0000011011100000, .unassignedSpecial17 (.reg .b)),
      (0b0000011100000000, .unassignedSpecial18 (.reg .b)), (0b0000011100100000, .unassignedSpecial19 (.reg .b)),
      (0b0000011101000000, .unassignedSpecial1A (.reg .b)), (0b0000011101100000, .unassignedSpecial1B (.reg .b)),
      (0b0000011110000000, .unassignedSpecial1C (.reg .b)), (0b0000011110100000, .unassignedSpecial1D (.reg .b)),
      (0b0000011111000000, .unassignedSpecial1E (.reg .b)), (0b0000011111100000, .unassignedSpecial1F (.reg .b))] :
      List (Word × Instr)).all (fun p => reads [p.1] p.2) = true := by decide

/-- Every operand code of the table of R95 that is not a plain register, in position `a` of `SET A, _` and, up to 0x1F,
in position `b` of `SET _, A`. -/
theorem test_decode_operands_a :
    ([([0b0011110000000001], .regInd .j), ([0b0100010000000001, 9], .regOff .b 9), ([0b0110000000000001], .pop),
      ([0b0110010000000001], .peek), ([0b0110100000000001, 9], .pick 9), ([0b0110110000000001], .sp),
      ([0b0111000000000001], .pc), ([0b0111010000000001], .ex), ([0b0111100000000001, 9], .memAt 9),
      ([0b0111110000000001, 9], .lit 9), ([0b1000000000000001], .short 0), ([0b1111110000000001], .short 31)] :
      List (List Word × Operand)).all (fun p => reads p.1 (.set (.reg .a) p.2)) = true := by decide

theorem test_decode_operands_b :
    ([([0b0000000111100001], .regInd .j), ([0b0000001000100001, 9], .regOff .b 9), ([0b0000001100000001], .push),
      ([0b0000001100100001], .peek), ([0b0000001101000001, 9], .pick 9), ([0b0000001101100001], .sp),
      ([0b0000001110000001], .pc), ([0b0000001110100001], .ex), ([0b0000001111000001, 9], .memAt 9),
      ([0b0000001111100001, 9], .lit 9)] : List (List Word × Operand)).all
      (fun p => reads p.1 (.set p.2 (.reg .a))) = true := by decide

/-- A special word whose `s` is in 0x10..0x17 is no conditional, and a missing next word is named (R119). -/
theorem test_decode_missing_words :
    decode [0x7C01] = .error .missingNextWordA ∧ decode [0x03E1] = .error .missingNextWordB ∧
      decode [] = .error .noWord ∧ isConditionalWord 0x0200 = false := by decide

/-! ### The encoder (vectors of table 2.8) -/

theorem test_assemble_literals :
    assemble "SET" [.reg .a, .num 1] = .ok [0x8801] ∧ assemble "SET" [.reg .a, .num 0xFFFF] = .ok [0x8001] ∧
      assemble "SET" [.reg .a, .num 31] = .ok [0x7C01, 0x001F] ∧ assemble "SET" [.num 1, .reg .a] = .ok [0x03E1, 1] ∧
      assemble "SET" [.ind 1, .reg .a] = .ok [0x03C1, 1] ∧ assemble "IAS" [.label 6] = .ok [0x7D40, 6] := by decide

theorem test_assemble_forms :
    assemble "ADD" [.ind 0x2000, .regOff .a 4] = .ok [0x43C2, 4, 0x2000] ∧
      assemble "SET" [.push, .reg .x] = .ok [0x0F01] ∧ assemble "SET" [.reg .x, .pop] = .ok [0x6061] ∧
      assemble "JSR" [.num 0x10] = .ok [0xC420] ∧ assemble "BRK" [] = .ok [0x0040] ∧
      assemble "RFI" [.num 0] = .ok [0x8560] ∧ assemble "HCF" [.num 0] = .ok [0x84E0] := by decide

theorem test_assemble_errors :
    assemble "SET" [.reg .a, .num 0x10000] = .error .outOfRange ∧ assemble "SET" [.reg .a] = .error .operandCount ∧
      assemble "SET" [.reg .a, .pcInd] = .error .noCode ∧ assemble "NOP" [] = .error .unknownMnemonic := by decide

theorem test_table_word :
    decodeTableWord 48 0x2000000443C2 = some (.add (.memAt 0x2000) (.regOff .a 4)) ∧
      decodeTableWord 16 0x43C2 = some (.add (.memAt 0) (.regOff .a 0)) := by decide

/-! ### One step: operands (vectors of table 2.1) -/

theorem test_operand_offset_wraps :
    after { prog 0 [0x0E21, 2] with regs := { State.reset.regs with b := 0xFFFF, x := 0x77 } }
      (fun t => t.mem.read 1 == 0x77 && t.pc == 2 && t.cycle == 2) = true := by decide

theorem test_operand_a_word_before_b_word :
    after { prog 0 [0x6201, 0xFFFF] with
            regs := { State.reset.regs with a := 0x10 }, sp := 0xFFFE, mem := [(0, 0x6201), (1, 0xFFFF), (0xFFFE, 7)] }
      (fun t => t.mem.read 0xF == 7 && t.sp == 0xFFFF && t.pc == 2 && t.cycle == 2) = true := by decide

theorem test_operand_pick :
    after { prog 0 [0x6801, 0x20] with sp := 0xFFF0, mem := [(0, 0x6801), (1, 0x20), (0x10, 0xBEEF)] }
      (fun t => t.regs.a == 0xBEEF && t.sp == 0xFFF0 && t.pc == 2) = true := by decide

theorem test_operand_peek_pop :
    after { prog 0 [0x6321] with sp := 0xFFFE, mem := [(0, 0x6321), (0xFFFE, 0xAB), (0xFFFF, 0xCD)] }
      (fun t => t.sp == 0xFFFF && t.mem.read 0xFFFF == 0xAB) = true := by decide

theorem test_operand_literal_destination :
    after { prog 0 [0x8BE2, 0xFFFF] with ex := 7 } (fun t => t.ex == 1 && t.pc == 2 && t.mem.read 1 == 0xFFFF) =
      true := by decide

theorem test_operand_pc_reads_next : after (prog 0x10 [0x8F82]) (fun t => t.pc == 0x13 && t.ex == 0) = true := by decide

/-! ### One step: SET and arithmetic (vectors of table 2.2) -/

/-- `OP A, B` at 0 with A, B and EX as given; A and EX afterwards. -/
def abx (o : BitVec 5) (a b x ra rx : Word) : Bool :=
  after { prog 0 [basicWord 1 0 o] with regs := { State.reset.regs with a := a, b := b }, ex := x }
    fun t => t.regs.a == ra && t.ex == rx && t.pc == 1

theorem test_set : after (prog 0 [0x8801]) (fun t => t.regs.a == 1 && t.pc == 1 && t.cycle == 1) = true := by decide
theorem test_set_push_sp :
    after (prog 0 [0x6F01]) (fun t => t.sp == 0xFFFF && t.mem.read 0xFFFF == 0xFFFF) = true := by decide
theorem test_add_carries : abx 0x02 0xFFFF 1 0 0 1 = true := by decide
theorem test_add_clears : abx 0x02 0 0 5 0 0 = true := by decide
theorem test_sub_borrows : abx 0x03 0 1 0 0xFFFF 0xFFFF = true := by decide
theorem test_sub_order : abx 0x03 5 2 9 3 0 = true := by decide
theorem test_mul_high : abx 0x04 0xFFFF 0xFFFF 0 1 0xFFFE = true := by decide
theorem test_mli_negative : abx 0x05 0xFFFE 3 0 0xFFFA 0xFFFF = true := by decide
theorem test_mli_signed : abx 0x05 0xFFFF 0xFFFF 7 1 0 = true := by decide
theorem test_div_fraction : abx 0x06 7 2 0 3 0x8000 = true := by decide
theorem test_div_by_zero : abx 0x06 5 0 3 0 0 = true := by decide
theorem test_dvi_toward_zero : abx 0x07 0xFFF9 2 0 0xFFFD 0x8000 = true := by decide
theorem test_dvi_overflows : abx 0x07 0x8000 0xFFFF 5 0x8000 0 = true := by decide
theorem test_mod : abx 0x08 7 3 0x1234 1 0x1234 = true := by decide
theorem test_mod_by_zero : abx 0x08 7 0 0x1234 0 0x1234 = true := by decide
theorem test_mdi_sign_of_dividend : abx 0x09 0xFFF9 3 0x1234 0xFFFF 0x1234 = true := by decide
theorem test_mdi_negative_divisor : abx 0x09 7 0xFFFD 0 1 0 = true := by decide
theorem test_adx_carry : abx 0x1A 0xFFFF 0xFFFF 0xFFFF 0xFFFD 1 = true := by decide
theorem test_sbx_underflow : abx 0x1B 0 1 0 0xFFFF 0xFFFF = true := by decide
theorem test_sbx_overflow : abx 0x1B 5 3 0xFFFF 1 1 = true := by decide

/-- `ADD EX, A`: which write of EX stands (R191). -/
theorem test_ex_destination :
    after { prog 0 [0x03A2] with regs := { State.reset.regs with a := 5 }, ex := 0xFFFE } (fun t => t.ex == 1) &&
      after { prog 0 [0x03A2] with
              regs := { State.reset.regs with a := 5 }, ex := 0xFFFE
              params := { Config.defaultParams with exDestOrder := .resultLast } } (fun t => t.ex == 3) = true := by decide

/-! ### One step: bitwise and shifts (vectors of table 2.3) -/

theorem test_and : abx 0x0A 0x1234 0x0F 7 4 7 = true := by decide
theorem test_bor : abx 0x0B 0x1230 1 7 0x1231 7 = true := by decide
theorem test_xor : abx 0x0C 0x00FF 0xFFFF 7 0xFF00 7 = true := by decide
theorem test_shr : abx 0x0D 0x8001 4 0x1111 0x0800 0x1000 = true := by decide
theorem test_shr_far : abx 0x0D 0x8001 17 0x1111 0 0x4000 = true := by decide
theorem test_asr : abx 0x0E 0xFFFF 4 0 0xFFFF 0xF000 = true := by decide
theorem test_asr_far : abx 0x0E 0x8001 32 0x1111 0xFFFF 0xFFFF = true := by decide
theorem test_shl : abx 0x0F 0x8001 4 0x1111 0x0010 0x0008 = true := by decide
theorem test_shl_far : abx 0x0F 0x8001 31 0x1111 0 0x8000 = true := by decide

/-! ### One step: conditionals (vectors of table 2.4) -/

/-- `IFx A, B` at 0 and `SET X, 1` at 1: PC afterwards tells whether the predicate held. -/
def holdsAt (o : BitVec 5) (a b : Word) (holds : Bool) : Bool :=
  after { prog 0 [basicWord 1 0 o, 0x8861] with regs := { State.reset.regs with a := a, b := b } }
    fun t => t.pc == (if holds then 1 else 2) && t.cycle == (if holds then 2 else 3) && t.regs.x == 0

theorem test_ifb : holdsAt 0x10 5 1 true && holdsAt 0x10 4 1 false = true := by decide
theorem test_ifc : holdsAt 0x11 4 1 true && holdsAt 0x11 5 1 false = true := by decide
theorem test_ife : holdsAt 0x12 7 7 true && holdsAt 0x12 5 1 false = true := by decide
theorem test_ifn : holdsAt 0x13 5 1 true && holdsAt 0x13 7 7 false = true := by decide
theorem test_ifg : holdsAt 0x14 0xFFFF 1 true && holdsAt 0x14 1 0xFFFF false = true := by decide
theorem test_ifa : holdsAt 0x15 1 0xFFFF true && holdsAt 0x15 0xFFFF 1 false = true := by decide
theorem test_ifl : holdsAt 0x16 1 0xFFFF true && holdsAt 0x16 7 7 false = true := by decide
theorem test_ifu : holdsAt 0x17 0xFFFF 1 true && holdsAt 0x17 0x7FFF 0x8000 false = true := by decide

theorem test_skip_chain :
    after (prog 0 [0x8812, 0x8832, 0x7C54, 0x0099, 0x8861]) (fun t => t.pc == 5 && t.regs.x == 0 && t.cycle == 5) =
      true := by decide

theorem test_skip_wraps : after (prog 0xFFFE [0x8812, 0x7C01, 0x1234]) (fun t => t.pc == 1 && t.cycle == 3) =
    true := by decide

theorem test_skip_moves_no_sp :
    after { prog 0 [0x8812, 0x6301] with sp := 0x100 } (fun t => t.pc == 2 && t.sp == 0x100) &&
      after { prog 0 [0x6013, 0x8861] with sp := 0x200 } (fun t => t.pc == 2 && t.sp == 0x201) = true := by decide

/-- A skip in progress goes on in a step of its own: one more conditional, one plain instruction, nothing delivered and
nothing of the agenda carried out (R231, R169). -/
theorem test_skip_goes_on :
    after { prog 0 [0x8832, 0x8861, 0x8861] with skipping := true, ia := 0x200, iq := [5], agenda := [[.stop]] }
      (fun t => t.pc == 2 && t.regs.x == 0 && t.cycle == 1 && !t.skipping && t.iq == [5] && t.agenda == [[.stop]]) =
      true := by decide

/-! ### One step: the parameters OPMAP, OP_BRK, OP_HCF, COST (spec/00_scope.md R6) -/

/-- A machine with a parameter of its own and one instruction at 0. -/
def withParams (m : Config.OpMap) (costs : List (Opcode × Nat)) (words : List Word) : State :=
  { prog 0 words with params := { Config.defaultParams with opMap := m, costs := costs } }

/-- BRK at 0x1F and HCF at 0x13: their words stop, and 0x0040 has no table entry any more. -/
theorem test_other_halts :
    (let m := Config.OpMap.withHalts 0x1F 0x13
     after (withParams m [] [0x03E0]) (fun t => t.run == .stopped && t.pc == 1 && t.endEvents == 0) &&
      after (withParams m [] [0x0260]) (fun t => t.run == .stopped && t.endEvents == 1) &&
      (match step (withParams m [] [0x0040]) with
       | .fault (.decodeFault v) => v == 0x0040
       | _ => false)) = true := by decide

/-- ADD and IFE at each other's numbers: `o` = 0x12 adds, `o` = 0x02 tests and is passed over as a chained conditional. -/
theorem test_other_opmap :
    (let m : Config.OpMap := { basic := [(0x02, 0x12)], special := [] }
     after (withParams m [] [0x9012]) (fun t => t.regs.a == 3 && t.pc == 1) &&
      after (withParams m [] [0x9002, 0x9022, 0x8861, 0x8861]) (fun t => t.pc == 3 && t.regs.x == 0 && t.cycle == 4)) =
      true := by decide

/-- COST changes ADD's cost, and not SET's, which the source states. -/
theorem test_other_costs :
    after (withParams Config.defaultOpMap [(.basic 0x02, 7)] [0x9002]) (fun t => t.cycle == 7) &&
      after (withParams Config.defaultOpMap [(.basic 0x01, 7)] [0x8801]) (fun t => t.cycle == 1) = true := by decide

theorem test_assemble_for :
    assembleFor (Config.OpMap.withHalts 0x1F 0x13) "BRK" [] = .ok [0x03E0] := by decide

/-! ### One step: store-and-step, call, halts (vectors of table 2.5) -/

theorem test_sti_store_first :
    after { prog 0 [0x98DE] with regs := { State.reset.regs with i := 0x10, j := 0xFFFF } }
      (fun t => t.regs.i == 6 && t.regs.j == 0 && t.cycle == 2) = true := by decide

theorem test_std_copies :
    after { prog 0 [0x3DDF] with
            regs := { State.reset.regs with i := 0x2000, j := 0x3000 }, mem := [(0, 0x3DDF), (0x3000, 7)] }
      (fun t => t.mem.read 0x2000 == 7 && t.regs.i == 0x1FFF && t.regs.j == 0x2FFF) = true := by decide

theorem test_jsr :
    after (prog 0x10 [0x7C20, 0x1000])
      (fun t => t.sp == 0xFFFF && t.mem.read 0xFFFF == 0x12 && t.pc == 0x1000 && t.cycle == 4) = true := by decide

theorem test_jsr_pop :
    after { prog 0x20 [0x6020] with sp := 0x8000, mem := [(0x20, 0x6020), (0x8000, 0x300)] }
      (fun t => t.pc == 0x300 && t.sp == 0x8000 && t.mem.read 0x8000 == 0x21) = true := by decide

theorem test_brk :
    after { prog 0 [0x6040] with sp := 5 } (fun t => t.pc == 1 && t.sp == 6 && t.run == .stopped && t.cycle == 0) =
      true := by decide

theorem test_halt0 : after (prog 0 []) (fun t => t.pc == 1 && t.run == .stopped && t.cycle == 0) = true := by decide

theorem test_hcf :
    after { prog 0x30 [0x84E0] with
            regs := { State.reset.regs with a := 5 }, sp := 9, ia := 3, queueing := true, iq := [1, 2] }
      (fun t => t == { State.reset with endEvents := 1 }) = true := by decide

theorem test_unassigned :
    ([0x0018, 0x0060, 0xFFE0] : List Word).all
      (fun w => match step (prog 0 [w]) with
        | .fault (.decodeFault v) => v == w
        | _ => false) = true := by decide

/-! ### One step: interrupts (vectors of table 2.6) -/

theorem test_int_enters :
    after { prog 0x10 [0x9900] with ia := 0x200, regs := { State.reset.regs with a := 9 } }
      (fun t => t.mem.read 0xFFFF == 0x11 && t.mem.read 0xFFFE == 9 && t.sp == 0xFFFE && t.pc == 0x200 &&
        t.regs.a == 5 && t.queueing && t.cycle == 4) = true := by decide

theorem test_int_queues :
    after { prog 0x10 [0x9900] with queueing := true } (fun t => t.iq == [5] && t.pc == 0x11) = true := by decide

theorem test_iag : after { prog 0 [0x0120] with ia := 0x200 } (fun t => t.regs.a == 0x200) = true := by decide
theorem test_ias : after (prog 0 [0x7D40, 0x100]) (fun t => t.ia == 0x100 && t.cycle == 2) = true := by decide

theorem test_rfi :
    after { prog 0x200 [0x8560] with
            sp := 0xFFFE, queueing := true, mem := [(0x200, 0x8560), (0xFFFE, 9), (0xFFFF, 0x11)] }
      (fun t => t.regs.a == 9 && t.pc == 0x11 && t.sp == 0 && !t.queueing && t.cycle == 3) = true := by decide

theorem test_iaq : after (prog 0 [0x8980]) (fun t => t.queueing) = true := by decide
theorem test_iaq_zero : after { prog 0 [0x8580] with queueing := true } (fun t => !t.queueing) = true := by decide

theorem test_delivery :
    after { prog 0x40 [0x8861] with
            ia := 0x300, iq := [7, 8], regs := { State.reset.regs with a := 1 }, mem := [(0x40, 0x8861), (0x300, 0x61)] }
      (fun t => t.mem.read 0xFFFF == 0x40 && t.mem.read 0xFFFE == 1 && t.regs.a == 7 && t.regs.x == 7 &&
        t.pc == 0x301 && t.iq == [8] && t.queueing && t.cycle == 1) = true := by decide

theorem test_delivery_dropped :
    after { prog 0x40 [0x8861] with iq := [7, 8] } (fun t => t.iq == [8] && t.regs.x == 1 && !t.queueing) =
      true := by decide

/-! ### One step: devices (vectors of table 2.7) -/

/-- The device of the vectors; whether it has a handler is given. -/
def device (hasHandler : Bool) : Device :=
  { ident := 0x11112222, manufacturer := 0x44445555, version := 0x3333, hasHandler := hasHandler }

theorem test_hwn : after { prog 0 [0x0200] with devices := [device false] } (fun t => t.regs.a == 1) = true := by decide

theorem test_hwq :
    after { prog 0 [0x0220] with devices := [device false] }
      (fun t => t.regs.a == 0x2222 && t.regs.b == 0x1111 && t.regs.c == 0x3333 && t.regs.x == 0x5555 &&
        t.regs.y == 0x4444) = true := by decide

theorem test_hwq_absent :
    after { prog 0 [0x8A20] with
            devices := [device false], regs := { State.reset.regs with a := 1, b := 2, c := 3, x := 4, y := 5, z := 6 } }
      (fun t => t.regs == { State.reset.regs with z := 6 }) = true := by decide

theorem test_hwi_absent : after (prog 0 [0x8640]) (fun t => t.pc == 1 && t.cycle == 4) = true := by decide

/-! ### The host: a program comes to run from reset -/

theorem test_load_and_start :
    after { State.reset with agenda := [[.load [0x8801] 0, .start]] } (fun t => t.regs.a == 1 && t.pc == 1) =
      true := by decide

theorem test_with_fetch_word : after (State.reset.withFetchWord 16 0x8801) (fun t => t.regs.a == 1) = true := by decide

/-! ### Witnesses: states and operands that meet the hypotheses of each obligation that has any -/

/-- A running machine with a handler, words in memory, a device without and one with a handler, one message queued. -/
def rich : State :=
  { prog 0x10 [0x8801, 0x1234, 0x8861] with
    regs := { a := 0x2000, b := 2, c := 3, x := 4, y := 5, z := 6, i := 7, j := 8 }
    sp := 0x100, ex := 9, ia := 0x200, iq := [5], devices := [device false, device true] }

/-- Hooks over words 4 and 5, and over words 5 to 7. -/
def hooked : State := { rich with readHooks := [⟨4, 2, 0⟩, ⟨5, 3, 1⟩], writeHooks := [⟨4, 2, 2⟩, ⟨5, 3, 3⟩] }

theorem witness_inv_rich : rich.Inv ∧ rich.noHooks :=
  ⟨⟨by decide, by decide, by decide, by decide, by decide⟩, rfl, rfl⟩

theorem witness_inv_hooked : hooked.Inv := ⟨by decide, by decide, by decide, by decide, by decide⟩

theorem witness_StepKeepsInvariant : rich.Inv ∧ ∃ t, step rich = .next t :=
  ⟨witness_inv_rich.1, next_of_runs (by decide)⟩

theorem witness_DecodeOfEncode :
    (Instr.add (.memAt 0x2000) (.regOff .a 4)).wellFormed = true ∧ (Instr.jsr (.short 31)).wellFormed = true := by decide

theorem witness_EncodeOfDecode :
    decodeFor Config.defaultOpMap [0x43C2, 4, 0x2000, 7] = .ok (.add (.memAt 0x2000) (.regOff .a 4), [7]) ∧
      decodeFor (Config.OpMap.withHalts 0x1F 0x13) [0x03E0] = .ok (.brk (.reg .a), []) := by decide

theorem witness_EveryWordDecodes :
    extraWords 0x43C2 ≤ ([4, 0x2000] : List Word).length ∧ extraWords 0x8801 ≤ ([] : List Word).length := by decide

/-- The boundaries of R112: -1 and 0x10000 outside; 0, 30, 31, 0xFFFE, 0xFFFF inside, in both positions. -/
theorem witness_LiteralPacking :
    ((-1 : Int) < 0 ∨ 0xFFFF < (-1 : Int)) ∧ ((0x10000 : Int) < 0 ∨ 0xFFFF < (0x10000 : Int)) ∧
      asmOperand .a (.num (-1)) = .error .outOfRange ∧ asmOperand .a (.num 0x10000) = .error .outOfRange ∧
      asmOperand .a (.num 0) = .ok (.short 1) ∧ asmOperand .a (.num 30) = .ok (.short 31) ∧
      asmOperand .a (.num 31) = .ok (.lit 31) ∧ asmOperand .a (.num 0xFFFE) = .ok (.lit 0xFFFE) ∧
      asmOperand .a (.num 0xFFFF) = .ok (.short 0) ∧ asmOperand .b (.num 0) = .ok (.lit 0) := by decide

theorem witness_AssembledLinesDecode :
    assembleFor Config.defaultOpMap "SET" [.push, .num 5] = .ok [0x9B01] ∧
      assembleFor (Config.OpMap.withHalts 0x1F 0x13) "BRK" [] = .ok [0x03E0] := by decide

theorem witness_ShortLiterals : 0x20 ≤ (0x20 : BitVec 6).toNat ∧ 0x20 ≤ (0x3F : BitVec 6).toNat := by decide

theorem witness_OperandsHandedOver : rich.readHooks = [] := rfl

/-- The first and the last register number (R95). -/
theorem witness_ResolvesOperands : Claims.registers[0]? = some .a ∧ Claims.registers[7]? = some .j := ⟨rfl, rfl⟩

theorem witness_OrderOfOperands : rich.Inv ∧ rich.noHooks := witness_inv_rich

/-- No hook over 3 and 8; the first hook over 4, the last word of its range with none before it; the second over 7,
after one that does not cover it. -/
theorem witness_ReadHooksAnswer :
    (∀ h ∈ hooked.readHooks, ¬ Claims.inRange h 3) ∧ (∀ h ∈ hooked.readHooks, ¬ Claims.inRange h 8) ∧
      (hooked.readHooks = [] ++ ⟨4, 2, 0⟩ :: [⟨5, 3, 1⟩] ∧ Claims.inRange ⟨4, 2, 0⟩ 4 ∧
        Claims.inRange ⟨4, 2, 0⟩ 5) ∧
      (hooked.readHooks = [⟨4, 2, 0⟩] ++ ⟨5, 3, 1⟩ :: [] ∧ (∀ k ∈ [(⟨4, 2, 0⟩ : Hook)], ¬ Claims.inRange k 7) ∧
        Claims.inRange ⟨5, 3, 1⟩ 7) ∧
      hooked.params.fetchViaHooks = true ∧
      ({ hooked with params := { hooked.params with fetchViaHooks := false } } : State).params.fetchViaHooks = false := by
  decide

theorem witness_WriteHooksHandle :
    (∀ h ∈ hooked.writeHooks, ¬ Claims.inRange h 3) ∧ (∀ h ∈ hooked.writeHooks, ¬ Claims.inRange h 8) ∧
      (hooked.writeHooks = [] ++ ⟨4, 2, 2⟩ :: [⟨5, 3, 3⟩] ∧ Claims.inRange ⟨4, 2, 2⟩ 4) ∧
      (hooked.writeHooks = [⟨4, 2, 2⟩] ++ ⟨5, 3, 3⟩ :: [] ∧ (∀ k ∈ [(⟨4, 2, 2⟩ : Hook)], ¬ Claims.inRange k 7) ∧
        Claims.inRange ⟨5, 3, 3⟩ 7) := by decide

theorem witness_MemoryExtensionality :
    Memory.wf [(0, 1), (0xFFFF, 2)] = true ∧
      ∀ addr, Memory.read [(0, 1), (0xFFFF, 2)] addr = Memory.read (Memory.writeList [] 0xFFFF [2, 1]) addr :=
  ⟨by decide, fun _ => rfl⟩

theorem witness_SignedDivisionLaw : (0xFFFF : Word) ≠ 0 ∧ (0x8000 : Word) ≠ 0 := by decide

theorem witness_SubUndoesAdd : GReg.a ≠ GReg.b := by decide

/-- Values for each predicate, in the order of `conditionals`: one pair that it holds of, one that it fails of. -/
def pairs : List ((Word × Word) × (Word × Word)) :=
  [((5, 1), (4, 1)), ((4, 1), (5, 1)), ((7, 7), (5, 1)), ((5, 1), (7, 7)), ((0xFFFF, 1), (7, 7)),
   ((1, 0xFFFF), (7, 7)), ((1, 0xFFFF), (7, 7)), ((0xFFFF, 1), (7, 7))]

/-- What a conditional's predicate says of two literal operands. -/
def verdict (p : Claims.Conditional) (q : Word × Word) : Bool :=
  p.holds (basicOperands 2 (.lit q.1) (.lit q.2) rich).bval (basicOperands 2 (.lit q.1) (.lit q.2) rich).aval

theorem witness_ConditionalHolds :
    (Claims.conditionals.zip pairs).all (fun p => verdict p.1 p.2.1) = true := by decide

/-- All of memory holds `IFB A, A`, so that a skip never meets anything but conditionals. -/
def allConditional : State := { prog 0 [] with mem := (List.range' 0 65536).map fun k => (k, (0x0010 : Word)) }

theorem read_constant {lo n : Nat} {v addr : Word} (hl : lo ≤ addr.toNat) (hh : addr.toNat < lo + n) :
    Memory.read ((List.range' lo n).map fun k => (k, v)) addr = v := by
  induction n generalizing lo with
  | zero => omega
  | succ n ih =>
    rw [List.range'_succ, List.map_cons, Memory.read]
    split
    · rfl
    · exact ih (by omega) (by omega)

theorem atConditional_of_all {s : State} (h : ∀ addr, s.mem.read addr = 0x0010) (hr : s.readHooks = [])
    (hp : s.params = Config.defaultParams) (j : Nat) : Claims.atConditional (Claims.passed j s) := by
  induction j generalizing s with
  | zero =>
    simp only [Claims.passed, Claims.atConditional, fetchRead_noHooks hr, h, hp]
    decide
  | succ j ih =>
    simp only [Claims.passed, fetchRead_noHooks hr]
    exact ih h hr hp

theorem read_allConditional (addr : Word) : allConditional.mem.read addr = 0x0010 :=
  read_constant (Nat.zero_le _) (by have := addr.isLt; omega)

/-- Words that chain and words that do not, `o` being 0x0F, 0x10, 0x17, 0x18, a special word whose `s` is 0x10 (R231), and
one that chains only in a table with ADD and IFE exchanged. -/
theorem witness_ConditionalSkips_words :
    decodeFor Config.defaultOpMap [0x000F] = .ok (.shl (.reg .a) (.reg .a), []) ∧
      decodeFor Config.defaultOpMap [0x7C10, 9] = .ok (.ifb (.reg .a) (.lit 9), []) ∧
      decodeFor Config.defaultOpMap [0x0017] = .ok (.ifu (.reg .a) (.reg .a), []) ∧
      decodeFor Config.defaultOpMap [0x0018] = .ok (.unassignedBasic18 (.reg .a) (.reg .a), []) ∧
      decodeFor Config.defaultOpMap [0x0200] = .ok (.hwn (.reg .a), []) ∧
      decodeFor { basic := [(0x02, 0x12)], special := [] } [0x0002] = .ok (.ife (.reg .a) (.reg .a), []) := by decide

/-- Each clause. For the first `k` instructions: `k` = 0 before a plain instruction, `k` = 2 before two conditionals, the
second of two words, and conditionals without an end. For the going on: the same memories with a skip in progress. -/
theorem witness_ConditionalSkips :
    (Claims.conditionals.zip pairs).all (fun p => !verdict p.1 p.2.2) = true ∧
      (rich.readHooks = [] ∧ ¬ Claims.atConditional (Claims.passed 0 rich)) ∧
      (let s := prog 0 [0x8832, 0x7C54, 0x0099, 0x8861]
       s.readHooks = [] ∧ (∀ j < 2, Claims.atConditional (Claims.passed j s)) ∧
        ¬ Claims.atConditional (Claims.passed 2 s)) ∧
      (ifcHolds (basicOperands 2 (.lit 5) (.lit 1) allConditional).bval
          (basicOperands 2 (.lit 5) (.lit 1) allConditional).aval = false ∧
        ∀ j, Claims.atConditional (Claims.passed j (basicOperands 2 (.lit 5) (.lit 1) allConditional).st)) ∧
      (let s := { prog 0 [0x8832, 0x8861] with skipping := true }
       s.run = .running ∧ s.skipping = true ∧ (∀ j < 1, Claims.atConditional (Claims.passed j s)) ∧
        ¬ Claims.atConditional (Claims.passed 1 s)) ∧
      (let s := { allConditional with skipping := true }
       s.run = .running ∧ s.skipping = true ∧ ∀ j, Claims.atConditional (Claims.passed j s)) :=
  ⟨by decide, ⟨rfl, by unfold Claims.atConditional; decide⟩, ⟨rfl, by unfold Claims.atConditional; decide,
    by unfold Claims.atConditional; decide⟩, ⟨rfl, atConditional_of_all read_allConditional rfl rfl⟩,
    ⟨rfl, rfl, by unfold Claims.atConditional; decide, by unfold Claims.atConditional; decide⟩,
    rfl, rfl, atConditional_of_all read_allConditional rfl rfl⟩

theorem witness_ReturnAfterCall : rich.Inv ∧ rich.noHooks := witness_inv_rich

/-- Each clause: without a handler, with one, and queueing with none and with 255 messages queued. -/
theorem witness_IntCompletes :
    (State.reset.queueing = false ∧ State.reset.ia = 0) ∧ (rich.queueing = false ∧ rich.ia ≠ 0) ∧
      (let s := { rich with queueing := true, iq := [] }
       s.queueing = true ∧ s.iq.length < 256) ∧
      (let s := { rich with queueing := true, iq := List.replicate 255 1 }
       s.queueing = true ∧ s.iq.length < 256) :=
  ⟨by decide, by decide, by decide, rfl, Nat.lt_of_le_of_lt (Nat.le_of_eq List.length_replicate) (Nat.lt_succ_self 255)⟩

theorem witness_IntOverflowCatchesFire :
    let s := { rich with queueing := true, iq := List.replicate 256 1 }
    let f := { rich with run := .faultFire, agenda := [] }
    (s.queueing = true ∧ s.iq.length = 256) ∧
      (f.run = .faultFire ∧ f.agenda = [] ∧ hostAct .start f = .next f ∧ hostAct .clear f = .next f.clear) :=
  ⟨⟨rfl, List.length_replicate⟩, rfl, rfl, rfl, rfl⟩

theorem witness_RfiUndoesInt : rich.Inv ∧ rich.noHooks ∧ rich.queueing = false ∧ rich.ia ≠ 0 :=
  ⟨witness_inv_rich.1, witness_inv_rich.2, rfl, by decide⟩

/-- Index 1 is the last device, index 2 the first that does not exist. -/
theorem witness_HwqReports :
    rich.devices[(specialOperand 4 (.lit 1) rich).aval.toNat]? = some (device true) ∧
      rich.devices.length ≤ (specialOperand 4 (.lit 2) rich).aval.toNat := by decide

theorem witness_HwiInvokes :
    (∀ d, rich.devices[(specialOperand 4 (.lit 2) rich).aval.toNat]? = some d → d.hasHandler = false) ∧
      (∀ d, rich.devices[(specialOperand 4 (.lit 0) rich).aval.toNat]? = some d → d.hasHandler = false) ∧
      rich.devices[(specialOperand 4 (.lit 1) rich).aval.toNat]? = some (device true) ∧
      (device true).hasHandler = true :=
  ⟨(by intro d h; cases h), (by intro d h; cases h; rfl), rfl, rfl⟩

theorem witness_FrameOfResultWriters :
    rich.Inv ∧ ∀ i ∈ Claims.exWriters .push (.reg .b) ++ Claims.exKeepers .push (.reg .b), ∃ t, exec i rich = .next t :=
  ⟨witness_inv_rich.1, fun i hi => next_of_runs (by revert i; decide)⟩

theorem witness_FrameOfStoreAndStep :
    rich.Inv ∧ ∀ i ∈ [Instr.sti (.regInd .i) (.regInd .j), .std (.regInd .i) (.regInd .j)], ∃ t, exec i rich = .next t :=
  ⟨witness_inv_rich.1, fun i hi => next_of_runs (by revert i; decide)⟩

/-- Both outcomes of every conditional run. -/
theorem test_conditionals_run :
    (Claims.conditionals.zip pairs).all (fun p =>
      runs (exec (p.1.instr (.lit p.2.1.1) (.lit p.2.1.2)) rich) &&
        runs (exec (p.1.instr (.lit p.2.2.1) (.lit p.2.2.2)) rich)) = true := by decide

theorem witness_FrameOfSpecials :
    ∀ i ∈ [Instr.ias (.short 2), .iaq (.short 2), .rfi (.short 2), .hwq (.short 2), .brk (.short 2), .halt0 (.short 2)],
      ∃ t, exec i rich = .next t :=
  fun i hi => next_of_runs (by revert i; decide)

theorem witness_FrameOfIagAndHwn :
    rich.Inv ∧ ∀ i ∈ [Instr.iag (.regInd .a), .hwn (.regInd .a)], ∃ t, exec i rich = .next t :=
  ⟨witness_inv_rich.1, fun i hi => next_of_runs (by revert i; decide)⟩

/-- INT in each of its cases: entered, dropped, queued. -/
theorem witness_FrameOfStackWriters :
    rich.Inv ∧ (∀ i ∈ [Instr.jsr (.reg .a), .int (.reg .a)], ∃ t, exec i rich = .next t) ∧
      (∃ t, exec (.int (.reg .a)) { rich with ia := 0 } = .next t) ∧
      ∃ t, exec (.int (.reg .a)) { rich with queueing := true } = .next t :=
  ⟨witness_inv_rich.1, fun i hi => next_of_runs (by revert i; decide), next_of_runs (by decide), next_of_runs (by decide)⟩

/-- After a delivery, with a read hook over the word fetched, and with an instruction across the top of memory. -/
theorem witness_StepRunsDecoded :
    (rich.skipping = false ∧ arrivals rich = .next rich ∧ rich.run = .running ∧ (deliverQueued rich).readHooks = []) ∧
      (let s := { rich with readHooks := [⟨0x200, 1, 0⟩] }
       s.skipping = false ∧ arrivals s = .next s ∧ s.run = .running ∧ s.params.fetchViaHooks = true ∧
        Hook.covers ⟨0x200, 1, 0⟩ (deliverQueued s).pc = true) ∧
      (let s := { prog 0xFFFE [0x43C2, 4, 0x2000] with
                  params := { Config.defaultParams with fetchViaHooks := false } }
       s.skipping = false ∧ arrivals s = .next s ∧ s.run = .running ∧ s.params.fetchViaHooks = false) :=
  ⟨⟨rfl, rfl, rfl, rfl⟩, ⟨rfl, rfl, rfl, rfl, by decide⟩, rfl, rfl, rfl, rfl⟩

theorem witness_DeliveryTakesHead :
    ({ rich with queueing := true } : State).queueing = true ∧ State.reset.iq = [] ∧
      (let s := { rich with ia := 0 }
       s.queueing = false ∧ s.iq = 5 :: [] ∧ s.ia = 0) ∧
      (rich.queueing = false ∧ rich.iq = 5 :: [] ∧ rich.ia ≠ 0) := by decide

theorem witness_StepAtRest : State.reset.agenda = [] ∧ State.reset.run ≠ .running := by decide

theorem witness_PlacedInstructionRuns :
    rich.Inv ∧ decodeTableWord 48 0x2000000443C2 = some (.add (.memAt 0x2000) (.regOff .a 4)) ∧
      decodeTableWord 16 0x8801 = some (.set (.reg .a) (.short 2)) :=
  ⟨witness_inv_rich.1, by decide, by decide⟩

theorem witness_IaAndRegistryWriters :
    (∃ t, exec (.ias (.short 2)) rich = .next t ∧ t.ia ≠ rich.ia) ∧
      ∃ t, exec (.hcf (.short 2)) rich = .next t ∧ t.ia ≠ rich.ia :=
  ⟨⟨_, rfl, by decide⟩, ⟨_, rfl, by decide⟩⟩

/-- Each run state, and one in which start, stop and resume do nothing; an action that leaves a fault state as it is and the one that leaves it; one device short of a full
registry, and a full one; a hook that ends at 0xFFFF, and one that is a word longer. -/
theorem witness_HostControl :
    (State.reset.run = .stopped ∧ rich.run = .running ∧ ({ rich with run := .paused } : State).run = .paused) ∧
      (rich.run ≠ .stopped ∧ State.reset.run ≠ .running ∧ State.reset.run ≠ .paused) ∧
      (let f := { rich with run := .faultDecode }
       f.run = .faultDecode ∧ hostAct .stop f = .next f ∧ hostAct .clear f = .next f.clear) ∧
      ({ rich with devices := List.replicate 65535 (device true) } : State).devices.length < 65536 ∧
      65536 ≤ ({ rich with devices := List.replicate 65536 (device true) } : State).devices.length ∧
      (⟨0xFFFE, 2, 0⟩ : Hook).base.toNat + (⟨0xFFFE, 2, 0⟩ : Hook).length ≤ 65536 ∧
      65536 < (⟨0xFFFE, 3, 0⟩ : Hook).base.toNat + (⟨0xFFFE, 3, 0⟩ : Hook).length :=
  ⟨by decide, by decide, ⟨rfl, rfl, rfl⟩, Nat.lt_of_le_of_lt (Nat.le_of_eq List.length_replicate) (Nat.lt_succ_self 65535),
    Nat.le_of_eq List.length_replicate.symm, by decide, by decide⟩

/-- A load that ends at 0xFFFF fits; one word more does not. -/
theorem witness_LoadPlacesWords :
    rich.Inv ∧ (0xFFFE : Word).toNat + ([1, 2] : List Word).length ≤ 65536 ∧
      65536 < (0xFFFE : Word).toNat + ([1, 2, 3] : List Word).length :=
  ⟨witness_inv_rich.1, by decide, by decide⟩

end Sys2Proof.Tests
end

/-! PROOFS. The statements about the state: what reset leaves, what every step keeps, which fields an instruction
writes, and that nothing depends on the cycle counter. -/

namespace Sys2Proof.Machine

/-! ### Reset -/

@[simp] theorem reset_get (r : GReg) : State.reset.regs.get r = 0 := by
  cases r <;> rfl

/-- Settles O1: every field of `clear()` is that of the reset state, where it is zero. -/
theorem resetValues : Obligations.ResetValues := by
  intro s t ht
  have hst : s.clear.devices = s.devices ∧ s.clear.readHooks = s.readHooks ∧ s.clear.writeHooks = s.writeHooks :=
    ⟨State.clear_devices s, State.clear_readHooks s, State.clear_writeHooks s⟩
  rcases List.mem_pair.mp ht with rfl | rfl <;>
    exact ⟨reset_get, rfl, rfl, rfl, rfl, Memory.read_nil, rfl, rfl, rfl, rfl, rfl, hst⟩

/-- Settles O2: memory, the queue, the registry and both hook lists are empty after reset. -/
theorem resetMeetsInvariant : Obligations.ResetMeetsInvariant where
  memWf := Memory.wf_nil
  queueBound := Nat.zero_le _
  devBound := Nat.zero_le _
  readFit := rfl
  writeFit := rfl

/-! ### The invariant -/

theorem decodeFault_ne_next (i : Instr) (s t : State) : decodeFault i s ≠ .next t := nofun

theorem storeResult_inv {e : BasicOperands} {v : Word} {t : State} (h : e.st.Inv) (ht : storeResult e v = .next t) :
    t.Inv := by
  cases ht
  exact setRef_inv h e.bref v

/-- An HWI runs the handler of its device or does nothing more (spec/47_hardware_instructions.md R292). -/
theorem execHwi_cases {a : Operand} {s t : State} (ht : exec (.hwi a) s = .next t) :
    let e := specialOperand (baseCost s.params (.hwi a)) a s
    runHandler e.aval.toNat e.st = .next t ∨ t = e.st := by
  simp only [exec, execHwi] at ht
  split at ht
  · split at ht
    · exact .inl ht
    · cases ht
      exact .inr rfl
  · cases ht
    exact .inr rfl

/-- Every instruction keeps the invariant. -/
theorem exec_inv {i : Instr} {s t : State} (h : s.Inv) (ht : exec i s = .next t) : t.Inv := by
  have hs (a : Operand) := specialOperand_inv h (baseCost s.params i) a
  cases i with
  | set b a | mod b a | mdi b a | and b a | bor b a | xor b a =>
    exact storeResult_inv (basicOperands_inv h _ b a) ht
  | add b a | sub b a | mul b a | mli b a | div b a | dvi b a | adx b a | sbx b a | shr b a | asr b a | shl b a =>
    exact storeResultAndEx_inv (basicOperands_inv h _ b a) ht
  | ifb b a | ifc b a | ife b a | ifn b a | ifg b a | ifa b a | ifl b a | ifu b a =>
    exact testOrSkip_inv (basicOperands_inv h _ b a) ht
  | sti b a | std b a =>
    cases ht
    exact stepIJ_inv (setRef_inv (basicOperands_inv h _ b a) _ _) _
  | iag a | hwn a =>
    cases ht
    exact setRef_inv (hs a) _ _
  | halt0 a | brk a | ias a | iaq a | hwq a =>
    cases ht
    exact (hs a).congr (hs a).memWf (hs a).queueBound rfl rfl rfl
  | jsr a =>
    cases ht
    have hp := push_inv (hs a) (specialOperand (baseCost s.params (.jsr a)) a s).st.pc
    exact hp.congr hp.memWf hp.queueBound rfl rfl rfl
  | hcf a =>
    cases ht
    have hc := clear_inv (hs a)
    exact hc.congr hc.memWf hc.queueBound rfl rfl rfl
  | int a => exact interrupt_inv (hs a) ht
  | rfi a =>
    cases ht
    exact returnFromInterrupt_inv (hs a)
  | hwi a =>
    rcases execHwi_cases ht with hr | rfl
    · exact runHandler_inv (hs a) hr
    · exact hs a
  | _ => exact absurd ht (decodeFault_ne_next _ _ _) -- the unassigned opcodes

theorem runInstr_inv {s t : State} (h : s.Inv) (ht : runInstr s = .next t) : t.Inv := by
  simp only [runInstr] at ht
  split at ht
  · exact exec_inv (fetchInstr_inv h) ht
  · cases ht

theorem cpuStep_inv {s t : State} (h : s.Inv) (ht : cpuStep s = .next t) : t.Inv := by
  unfold cpuStep at ht
  split at ht
  · exact runInstr_inv (deliverQueued_inv h) ht
  · cases ht
    exact h

/-- Settles O3: a step is a skip that goes on, or what arrives and then the CPU's step, and each keeps the invariant. -/
theorem stepKeepsInvariant : Obligations.StepKeepsInvariant := by
  intro s t h ht
  unfold step at ht
  split at ht
  · cases ht
    exact goOnSkipping_inv h
  · obtain ⟨u, hu, ht⟩ := andThen_eq_next.mp ht
    exact cpuStep_inv (arrivals_inv h hu) ht

/-! ### What a result leaves alone -/

/-- A result never goes to IA, because no operand form names it (spec/10_state.md R24). -/
@[simp] theorem setRef_refOf_ia (p : Pos) (o : Operand) (v : Word) (u s : State) :
    (setRef (refOf p o u) v s).ia = s.ia :=
  setRef_getReg_other (refOf_ne_ia p o u) v s

/-- An instruction that leaves EX alone writes its destination and nothing else (spec/42_set_arithmetic.md R179). -/
theorem exec_exKeeper {b a : Operand} {i : Instr} (hi : i ∈ Claims.exKeepers b a) (s : State) :
    let e := basicOperands (baseCost s.params i) b a s
    ∃ v, exec i s = .next (setRef e.bref v e.st) := by
  simp only [Claims.exKeepers, List.mem_cons, List.not_mem_nil, or_false] at hi
  rcases hi with rfl | rfl | rfl | rfl | rfl | rfl <;> exact ⟨_, rfl⟩

/-- Whichever write of EX stands, a result and an EX value leave the destination and EX written and nothing else
(R179, R191). -/
theorem storeResultAndEx_next (e : BasicOperands) (r : AluResult) :
    ∃ x, storeResultAndEx e r = .next { setRef e.bref r.value e.st with ex := x } := by
  rw [storeResultAndEx_eq]
  split
  · next hb => exact ⟨_, by rw [hb]; rfl⟩
  · exact ⟨_, rfl⟩

/-- An instruction that sets EX writes its destination and EX and nothing else (R179). -/
theorem exec_exWriter {b a : Operand} {i : Instr} (hi : i ∈ Claims.exWriters b a) (s : State) :
    let e := basicOperands (baseCost s.params i) b a s
    ∃ v x, exec i s = .next { setRef e.bref v e.st with ex := x } := by
  simp only [Claims.exWriters, List.mem_cons, List.not_mem_nil, or_false] at hi
  rcases hi with rfl | rfl | rfl | rfl | rfl | rfl | rfl | rfl | rfl | rfl | rfl <;>
    exact ⟨_, storeResultAndEx_next _ _⟩

/-- The two lists together: the destination is written, and EX, perhaps with the value it had. -/
theorem exec_resultWriter {b a : Operand} {i : Instr} (hi : i ∈ Claims.exWriters b a ++ Claims.exKeepers b a)
    {s t : State} (ht : exec i s = .next t) :
    let e := basicOperands (baseCost s.params i) b a s
    ∃ v x, t = { setRef e.bref v e.st with ex := x } := by
  rcases List.mem_append.mp hi with hi | hi
  · obtain ⟨v, x, hx⟩ := exec_exWriter hi s
    exact ⟨v, x, by cases ht.symm.trans hx; rfl⟩
  · obtain ⟨v, hv⟩ := exec_exKeeper hi s
    exact ⟨v, _, by cases ht.symm.trans hv; rfl⟩

section ResultWritten

variable (cost : Nat) (b a : Operand) (v x : Word) (s : State)

/-- The frame of a result in the registers and in memory. -/
theorem result_onlyDestination (h : s.mem.wf = true) :
    let e := basicOperands cost b a s
    Claims.onlyDestination s { setRef e.bref v e.st with ex := x } e.bref (spAfter .b b (spAfter .a a s.sp)) := by
  intro e
  have hmem : e.st.mem = s.mem := basicOperands_mem cost b a s
  refine ⟨fun r hr => ?_, fun hsp => ?_, fun hpc => ?_, fun addr ha => ?_⟩
  · exact (setRef_getReg_other hr v e.st).trans (congrArg (·.get r) (basicOperands_regs cost b a s))
  · exact (setRef_getReg_other hsp v e.st).trans (basicOperands_sp cost b a s)
  · exact (setRef_getReg_other hpc v e.st).trans (basicOperands_pc cost b a s)
  · rw [← hmem] at h ⊢
    exact setRef_read_other h v ha

/-- A result leaves every control field alone. -/
theorem result_sameControl :
    let e := basicOperands cost b a s
    Claims.sameControl s { setRef e.bref v e.st with ex := x } := by
  simp [Claims.sameControl]

end ResultWritten

/-- Settles O47: the state after is that of the operands with the destination, and perhaps EX, written. -/
theorem frameOfResultWriters : Obligations.FrameOfResultWriters := by
  intro b a s t h i hi ht d
  have hex (hk : i ∈ Claims.exKeepers b a) (hd : d ≠ .reg .ex) : t.ex = s.ex := by
    obtain ⟨v, hv⟩ := exec_exKeeper hk s
    cases ht.symm.trans hv
    exact (setRef_getReg_other hd v _).trans (basicOperands_ex _ b a s)
  obtain ⟨v, x, rfl⟩ := exec_resultWriter hi ht
  exact ⟨result_onlyDestination _ b a v x s h.memWf, hex, result_sameControl _ b a v x s, by simp⟩

/-! ### Writers of IA and of the device registry -/

/-- Neither a test nor a skip writes IA or registers a device. -/
theorem testOrSkip_ia_devices {holds : Bool} {s t : State} (ht : testOrSkip holds s = .next t) :
    t.ia = s.ia ∧ t.devices = s.devices := by
  rcases testOrSkip_eq_next.mp ht with ⟨-, rfl⟩ | ⟨-, rfl⟩
  · exact ⟨rfl, rfl⟩
  · rw [skip_state]
    exact ⟨rfl, rfl⟩

/-- Interrupt entry reads IA and does not write it (spec/60_exceptions.md R314). -/
theorem interrupt_ia_devices {msg : Word} {s t : State} (ht : interrupt msg s = .next t) :
    t.ia = s.ia ∧ t.devices = s.devices := by
  rcases interrupt_eq_next.mp ht with ⟨-, -, rfl⟩ | ⟨-, rfl⟩
  · exact ⟨rfl, rfl⟩
  · exact ⟨trigger_ia msg s, trigger_devices msg s⟩

/-- An instruction keeps IA, unless it is IAS, HCF or HWI, and the device registry (spec/10_state.md R24,
spec/60_exceptions.md R325). -/
theorem exec_ia_devices {i : Instr} {s t : State} (ht : exec i s = .next t) :
    ((∃ a, i ∈ [Instr.ias a, .hcf a, .hwi a]) ∨ t.ia = s.ia) ∧ t.devices = s.devices := by
  cases i with
  | set b a | mod b a | mdi b a | and b a | bor b a | xor b a
  | add b a | sub b a | mul b a | mli b a | div b a | dvi b a | adx b a | sbx b a | shr b a | asr b a | shl b a =>
    obtain ⟨v, x, rfl⟩ := exec_resultWriter (b := b) (a := a) (by simp [Claims.exWriters, Claims.exKeepers]) ht
    exact ⟨.inr (by simp), by simp⟩
  | ifb b a | ifc b a | ife b a | ifn b a | ifg b a | ifa b a | ifl b a | ifu b a =>
    obtain ⟨hia, hd⟩ := testOrSkip_ia_devices ht
    exact ⟨.inr (by simpa using hia), by simpa using hd⟩
  | sti b a | std b a | iag a | hwn a | halt0 a | brk a | iaq a | hwq a | jsr a | rfi a =>
    cases ht
    exact ⟨.inr (by simp [stepIJ]), by simp [stepIJ]⟩
  | int a =>
    obtain ⟨hia, hd⟩ := interrupt_ia_devices ht
    exact ⟨.inr (by simpa using hia), by simpa using hd⟩
  | ias a | hcf a =>
    cases ht
    exact ⟨.inl ⟨a, by simp⟩, by simp⟩
  | hwi a =>
    refine ⟨.inl ⟨a, by simp⟩, ?_⟩
    rcases execHwi_cases ht with hr | rfl
    · simpa using runHandler_devices hr
    · simp
  | _ => exact absurd ht (decodeFault_ne_next _ _ _) -- the unassigned opcodes

/-- Settles O58: what `exec_ia_devices` says of the instructions, read the other way round. -/
theorem iaAndRegistryWriters : Obligations.IaAndRegistryWriters := by
  intro i s t ht
  obtain ⟨hia, hd⟩ := exec_ia_devices ht
  exact ⟨fun hne => hia.resolve_right hne, hd⟩

/-! ### The cycle counter is not read -/

/-- The state with another number in its cycle counter, as the statement of O57 writes it. -/
def State.withCycle (s : State) (n : Nat) : State := { s with cycle := n }

@[simp] theorem withCycle_regs (s : State) (n : Nat) : (s.withCycle n).regs = s.regs := rfl
@[simp] theorem withCycle_pc (s : State) (n : Nat) : (s.withCycle n).pc = s.pc := rfl
@[simp] theorem withCycle_iq (s : State) (n : Nat) : (s.withCycle n).iq = s.iq := rfl
@[simp] theorem withCycle_queueing (s : State) (n : Nat) : (s.withCycle n).queueing = s.queueing := rfl
@[simp] theorem withCycle_ia (s : State) (n : Nat) : (s.withCycle n).ia = s.ia := rfl
@[simp] theorem withCycle_run (s : State) (n : Nat) : (s.withCycle n).run = s.run := rfl
@[simp] theorem withCycle_devices (s : State) (n : Nat) : (s.withCycle n).devices = s.devices := rfl
@[simp] theorem withCycle_writeHooks (s : State) (n : Nat) : (s.withCycle n).writeHooks = s.writeHooks := rfl
@[simp] theorem withCycle_envTick (s : State) (n : Nat) : (s.withCycle n).envTick = s.envTick := rfl
@[simp] theorem withCycle_params (s : State) (n : Nat) : (s.withCycle n).params = s.params := rfl
@[simp] theorem withCycle_skipping (s : State) (n : Nat) : (s.withCycle n).skipping = s.skipping := rfl
@[simp] theorem withCycle_agenda (s : State) (n : Nat) : (s.withCycle n).agenda = s.agenda := rfl

/-! #### Outcomes that differ in the counter alone -/

theorem sameButCycle_refl (o : Outcome) : Claims.sameButCycle o o := by
  cases o <;> rfl

theorem sameButCycle_next (t : State) (n : Nat) : Claims.sameButCycle (.next t) (.next (t.withCycle n)) := rfl

/-- Two sequences differ in the counter alone when their first parts do and their second parts do from there on. -/
theorem sameButCycle_andThen {o o' : Outcome} {f f' : State → Outcome} (ho : Claims.sameButCycle o o')
    (hf : ∀ t n, Claims.sameButCycle (f t) (f' (t.withCycle n))) :
    Claims.sameButCycle (andThen o f) (andThen o' f') := by
  match o, o', ho with
  | .next t, .next u, ho =>
    have ht : u.withCycle t.cycle = t := ho
    have hu : u = t.withCycle u.cycle := calc
      u = (u.withCycle t.cycle).withCycle u.cycle := rfl
      _ = t.withCycle u.cycle := by rw [ht]
    rw [hu]
    exact hf t u.cycle
  | .fault _, .fault _, ho => exact ho
  | .refused _, .refused _, ho => exact ho

/-! #### The operations, each with another number in the counter -/

section WithCycle

variable (s : State) (n : Nat)

@[simp] theorem addCycles_withCycle (k : Nat) : (s.withCycle n).addCycles k = (s.addCycles k).withCycle (n + k) := rfl

@[simp] theorem clear_withCycle : (s.withCycle n).clear = s.clear := rfl

@[simp] theorem setReg_withCycle (r : RegName) (v : Word) :
    (s.withCycle n).setReg r v = (s.setReg r v).withCycle n := by
  cases r <;> rfl

theorem memRead_withCycle (addr : Word) :
    memRead addr (s.withCycle n) = ((memRead addr s).1, (memRead addr s).2.withCycle n) := rfl

@[simp] theorem memWrite_withCycle (addr v : Word) :
    memWrite addr v (s.withCycle n) = (memWrite addr v s).withCycle n := by
  unfold memWrite
  rw [withCycle_writeHooks, withCycle_envTick]
  dsimp only
  split <;> rfl

theorem fetchRead_withCycle (addr : Word) :
    fetchRead addr (s.withCycle n) = ((fetchRead addr s).1, (fetchRead addr s).2.withCycle n) := by
  unfold fetchRead
  rw [withCycle_params]
  split
  · exact memRead_withCycle s n addr
  · rfl

theorem fetchWord_withCycle :
    fetchWord (s.withCycle n) = ((fetchWord s).1, (fetchWord s).2.withCycle n) := by
  simp only [fetchWord, withCycle_pc, fetchRead_withCycle]
  rfl

theorem nextIf_withCycle (needed : Bool) :
    nextIf needed (s.withCycle n) =
      ((nextIf needed s).1, (nextIf needed s).2.withCycle (n + if needed then 1 else 0)) := by
  cases needed
  · rfl
  · simp only [nextIf, nextWord, fetchWord_withCycle]
    rfl

theorem fetchInstr_withCycle :
    ∃ m, fetchInstr (s.withCycle n) = ((fetchInstr s).1, (fetchInstr s).2.withCycle m) := by
  simp only [fetchInstr, fetchWord_withCycle, nextIf_withCycle]
  exact ⟨_, rfl⟩

theorem skipLoop_withCycle (k : Nat) : ∃ m, skipLoop k (s.withCycle n) = (skipLoop k s).withCycle m := by
  induction k generalizing s n with
  | zero => exact ⟨n, rfl⟩
  | succ k ih =>
    simp only [skipLoop_succ, fetchWord_withCycle, withCycle_params]
    split
    · exact ih (State.addCycles { (fetchWord s).2 with pc := _ } 1) (n + 1)
    · exact ⟨n, rfl⟩

theorem goOnSkipping_withCycle : ∃ m, goOnSkipping (s.withCycle n) = (goOnSkipping s).withCycle m :=
  skipLoop_withCycle s n _

theorem push_withCycle (v : Word) : push v (s.withCycle n) = (push v s).withCycle n :=
  memWrite_withCycle { s with sp := s.sp - 1 } n _ v

@[simp] theorem trigger_withCycle (msg : Word) : trigger msg (s.withCycle n) = (trigger msg s).withCycle n := by
  unfold trigger
  rw [withCycle_ia, withCycle_pc, withCycle_regs, push_withCycle, push_withCycle]
  split <;> rfl

theorem deliverQueued_withCycle : deliverQueued (s.withCycle n) = (deliverQueued s).withCycle n := by
  unfold deliverQueued
  rw [withCycle_queueing, withCycle_iq]
  split
  · rfl
  · split
    · rfl
    · next msg rest _ => exact trigger_withCycle { s with iq := rest } n msg

theorem returnFromInterrupt_withCycle :
    returnFromInterrupt (s.withCycle n) = (returnFromInterrupt s).withCycle n := rfl

theorem getRef_withCycle (r : Ref) :
    getRef r (s.withCycle n) = ((getRef r s).1, (getRef r s).2.withCycle n) := by
  cases r with
  | reg m => cases m <;> rfl
  | mem addr => exact memRead_withCycle s n addr
  | lit v => rfl

@[simp] theorem setRef_withCycle (r : Ref) (v : Word) :
    setRef r v (s.withCycle n) = (setRef r v s).withCycle n := by
  cases r with
  | reg m => exact setReg_withCycle s n m v
  | mem addr => exact memWrite_withCycle s n addr v
  | lit w => rfl

theorem refOf_withCycle (p : Pos) (o : Operand) : refOf p o (s.withCycle n) = refOf p o s := by
  cases o <;> rfl

theorem resolve_withCycle (p : Pos) (o : Operand) :
    resolve p o (s.withCycle n) = ((resolve p o s).1, (resolve p o s).2.withCycle n) := by
  rw [resolve, refOf_withCycle]
  rfl

/-- Operands are handed over alike: the references, the values, and the state but for its counter. -/
theorem basicOperands_withCycle (cost : Nat) (b a : Operand) :
    basicOperands cost b a (s.withCycle n) =
      { basicOperands cost b a s with st := (basicOperands cost b a s).st.withCycle (n + cost) } := by
  simp only [basicOperands, resolve_withCycle, addCycles_withCycle, getRef_withCycle]

theorem specialOperand_withCycle (cost : Nat) (a : Operand) :
    specialOperand cost a (s.withCycle n) =
      { specialOperand cost a s with st := (specialOperand cost a s).st.withCycle (n + cost) } := by
  simp only [specialOperand, resolve_withCycle, addCycles_withCycle, getRef_withCycle]

theorem addDevice_withCycle (d : Device) : addDevice d (s.withCycle n) = (addDevice d s).withCycle n := by
  unfold addDevice
  rw [withCycle_devices]
  split <;> rfl

theorem resume_withCycle : resume (s.withCycle n) = (resume s).withCycle n := by
  unfold resume
  rw [withCycle_run]
  split <;> rfl

theorem hostStart_withCycle : hostStart (s.withCycle n) = (hostStart s).withCycle n := by
  unfold hostStart
  rw [withCycle_run]
  split <;> rfl

theorem hostStop_withCycle : hostStop (s.withCycle n) = (hostStop s).withCycle n := by
  unfold hostStop
  rw [withCycle_run]
  split <;> rfl

end WithCycle

/-! #### The meanings, the devices and the host -/

theorem storeResult_sameButCycle (e : BasicOperands) (v : Word) (n : Nat) :
    Claims.sameButCycle (storeResult e v) (storeResult { e with st := e.st.withCycle n } v) := by
  simp only [storeResult, setRef_withCycle]
  exact sameButCycle_next _ n

theorem storeResultAndEx_sameButCycle (e : BasicOperands) (r : AluResult) (n : Nat) :
    Claims.sameButCycle (storeResultAndEx e r) (storeResultAndEx { e with st := e.st.withCycle n } r) := by
  simp only [storeResultAndEx_eq, setRef_withCycle, withCycle_params]
  split <;> exact sameButCycle_next _ n

theorem testOrSkip_sameButCycle (holds : Bool) (s : State) (n : Nat) :
    Claims.sameButCycle (testOrSkip holds s) (testOrSkip holds (s.withCycle n)) := by
  cases holds with
  | true => exact sameButCycle_next s n
  | false =>
    obtain ⟨m, hm⟩ := goOnSkipping_withCycle (s.addCycles 1) (n + 1)
    rw [testOrSkip_false, testOrSkip_false, skip, skip, addCycles_withCycle, hm]
    exact sameButCycle_next _ m

theorem interrupt_sameButCycle (msg : Word) (s : State) (n : Nat) :
    Claims.sameButCycle (interrupt msg s) (interrupt msg (s.withCycle n)) := by
  unfold interrupt
  rw [withCycle_queueing, withCycle_iq, trigger_withCycle]
  split
  · split
    · exact sameButCycle_refl _
    · exact sameButCycle_next _ n
  · exact sameButCycle_next _ n

theorem deviceAct_sameButCycle (d : DeviceAction) (s : State) (n : Nat) :
    Claims.sameButCycle (deviceAct d s) (deviceAct d (s.withCycle n)) := by
  cases d with
  | setReg r v =>
    simp only [deviceAct, setReg_withCycle]
    exact sameButCycle_next _ n
  | setMem addr v =>
    simp only [deviceAct, memWrite_withCycle]
    exact sameButCycle_next _ n
  | getMem addr => exact sameButCycle_next (memRead addr s).2 n
  | irq msg => exact interrupt_sameButCycle msg s n
  | onGet h | onSet h =>
    simp only [deviceAct]
    split
    · exact sameButCycle_next _ n
    · exact sameButCycle_refl _
  | resume =>
    simp only [deviceAct, resume_withCycle]
    exact sameButCycle_next _ n

theorem deviceActs_sameButCycle (ds : List DeviceAction) (s : State) (n : Nat) :
    Claims.sameButCycle (deviceActs ds s) (deviceActs ds (s.withCycle n)) := by
  induction ds generalizing s n with
  | nil => exact sameButCycle_next s n
  | cons d ds ih => exact sameButCycle_andThen (deviceAct_sameButCycle d s n) ih

/-- The handler of a device sees registers and memory and no counter (spec/60_exceptions.md R329). -/
theorem runHandler_sameButCycle (index : Nat) (s : State) (n : Nat) :
    Claims.sameButCycle (runHandler index s) (runHandler index (s.withCycle n)) :=
  sameButCycle_andThen (deviceActs_sameButCycle _ { s with envTick := s.envTick + 1 } n)
    fun t m => sameButCycle_next (endHandler _ _ t) (m + _)

theorem hostAct_sameButCycle (h : HostAction) (s : State) (n : Nat) :
    Claims.sameButCycle (hostAct h s) (hostAct h (s.withCycle n)) := by
  cases h with
  | act d => exact deviceAct_sameButCycle d s n
  | addDevice d =>
    simp only [hostAct, addDevice_withCycle]
    exact sameButCycle_next _ n
  | clear => exact sameButCycle_refl _
  | load words origin =>
    simp only [hostAct, hostLoad]
    split
    · exact sameButCycle_next _ n
    · exact sameButCycle_refl _
  | start =>
    simp only [hostAct, hostStart_withCycle]
    exact sameButCycle_next _ n
  | stop =>
    simp only [hostAct, hostStop_withCycle]
    exact sameButCycle_next _ n

theorem hostActs_sameButCycle (hs : List HostAction) (s : State) (n : Nat) :
    Claims.sameButCycle (hostActs hs s) (hostActs hs (s.withCycle n)) := by
  induction hs generalizing s n with
  | nil => exact sameButCycle_next s n
  | cons h hs ih => exact sameButCycle_andThen (hostAct_sameButCycle h s n) ih

theorem arrivals_sameButCycle (s : State) (n : Nat) :
    Claims.sameButCycle (arrivals s) (arrivals (s.withCycle n)) := by
  unfold arrivals
  rw [withCycle_agenda]
  split
  · exact sameButCycle_next s n
  · next now later _ => exact hostActs_sameButCycle now { s with agenda := later } n

theorem execHwi_sameButCycle (a : Operand) (s : State) (n : Nat) :
    Claims.sameButCycle (execHwi a s) (execHwi a (s.withCycle n)) := by
  simp only [execHwi, withCycle_params, specialOperand_withCycle, withCycle_devices]
  split
  · split
    · exact runHandler_sameButCycle _ _ _
    · exact sameButCycle_next _ _
  · exact sameButCycle_next _ _

/-- No instruction's meaning reads the counter (spec/10_state.md R27). -/
theorem exec_sameButCycle (i : Instr) (s : State) (n : Nat) :
    Claims.sameButCycle (exec i s) (exec i (s.withCycle n)) := by
  cases i with
  | set b a | mod b a | mdi b a | and b a | bor b a | xor b a =>
    simp only [exec, execSet, execMod, execMdi, execAnd, execBor, execXor, withCycle_params, basicOperands_withCycle]
    exact storeResult_sameButCycle _ _ _
  | add b a | sub b a | mul b a | mli b a | div b a | dvi b a | adx b a | sbx b a | shr b a | asr b a | shl b a =>
    simp only [exec, execAdd, execSub, execMul, execMli, execDiv, execDvi, execAdx, execSbx, execShr, execAsr, execShl,
      withCycle_params, basicOperands_withCycle]
    exact storeResultAndEx_sameButCycle _ _ _
  | ifb b a | ifc b a | ife b a | ifn b a | ifg b a | ifa b a | ifl b a | ifu b a =>
    simp only [exec, execIfb, execIfc, execIfe, execIfn, execIfg, execIfa, execIfl, execIfu,
      withCycle_params, basicOperands_withCycle]
    exact testOrSkip_sameButCycle _ _ _
  | sti b a | std b a =>
    simp only [exec, execSti, execStd, withCycle_params, basicOperands_withCycle, setRef_withCycle]
    exact sameButCycle_next (stepIJ _ _) _
  | halt0 a | brk a | ias a | iaq a | hwq a | rfi a | iag a | hwn a | jsr a =>
    simp only [exec, execHalt0, execBrk, execIas, execIaq, execHwq, execRfi, execIag, execHwn, execJsr,
      withCycle_params, specialOperand_withCycle, setRef_withCycle, push_withCycle, withCycle_pc, withCycle_ia,
      withCycle_devices, withCycle_regs, returnFromInterrupt_withCycle]
    exact sameButCycle_next _ _
  | hcf a =>
    simp only [exec, execHcf, withCycle_params, specialOperand_withCycle, clear_withCycle]
    exact sameButCycle_refl _
  | int a =>
    simp only [exec, execInt, withCycle_params, specialOperand_withCycle]
    exact interrupt_sameButCycle _ _ _
  | hwi a => exact execHwi_sameButCycle a s n
  | _ => exact sameButCycle_refl _ -- the unassigned opcodes

theorem runInstr_sameButCycle (s : State) (n : Nat) :
    Claims.sameButCycle (runInstr s) (runInstr (s.withCycle n)) := by
  obtain ⟨m, hm⟩ := fetchInstr_withCycle s n
  simp only [runInstr, hm, withCycle_params]
  split
  · exact exec_sameButCycle _ _ m
  · exact sameButCycle_refl _

theorem cpuStep_sameButCycle (s : State) (n : Nat) :
    Claims.sameButCycle (cpuStep s) (cpuStep (s.withCycle n)) := by
  unfold cpuStep
  rw [withCycle_run, deliverQueued_withCycle]
  split
  · exact runInstr_sameButCycle _ n
  · exact sameButCycle_next s n

/-- Settles O57: a skip that goes on, what arrives, and the CPU's step each leave the counter unread. -/
theorem cycleUnobservable : Obligations.CycleUnobservable := by
  intro s n
  change Claims.sameButCycle (step s) (step (s.withCycle n))
  unfold step
  rw [withCycle_skipping, withCycle_run]
  split
  · obtain ⟨m, hm⟩ := goOnSkipping_withCycle s n
    rw [hm]
    exact sameButCycle_next _ m
  · exact sameButCycle_andThen (arrivals_sameButCycle s n) cpuStep_sameButCycle

end Sys2Proof.Machine

/-! PROOFS. The statements about memory: which hook answers a read, which one takes a write, and that memory in
canonical form is what it reads. -/

namespace Sys2Proof.Machine

/-! ### The hooks that are asked -/

theorem covers_iff_inRange (k : Hook) (addr : Word) : k.covers addr = true ↔ Claims.inRange k addr := by
  simp [Hook.covers]

section Hooks

variable {addr : Word} {before after : List Hook} {k : Hook} {t : Nat}

/-- Read hooks that do not cover the address are passed over, and no callback is called. -/
theorem askReadHooks_append (hb : ∀ k ∈ before, ¬ Claims.inRange k addr) :
    askReadHooks (before ++ after) addr t = askReadHooks after addr t := by
  induction before with
  | nil => rfl
  | cons k ks ih =>
    obtain ⟨hk, hks⟩ := List.forall_mem_cons.mp hb
    rw [List.cons_append, askReadHooks, if_neg (mt (covers_iff_inRange k addr).mp hk), ih hks]

theorem askReadHooks_uncovered (hb : ∀ k ∈ before, ¬ Claims.inRange k addr) :
    askReadHooks before addr t = (none, t) := by
  simpa [askReadHooks] using askReadHooks_append (after := []) hb

theorem askReadHooks_answered (hc : Claims.inRange k addr) {r : Int}
    (hr : Config.readHookReply k.callback (k.offset addr) t = some r) :
    askReadHooks (k :: after) addr t = (some (BitVec.ofInt 16 r), t + 1) := by
  rw [askReadHooks, if_pos ((covers_iff_inRange k addr).mpr hc), hr]

theorem askReadHooks_unanswered (hc : Claims.inRange k addr)
    (hr : Config.readHookReply k.callback (k.offset addr) t = none) :
    askReadHooks (k :: after) addr t = askReadHooks after addr (t + 1) := by
  rw [askReadHooks, if_pos ((covers_iff_inRange k addr).mpr hc), hr]

/-- Write hooks that do not cover the address are passed over, and no callback is called. -/
theorem askWriteHooks_append (v : Word) (hb : ∀ k ∈ before, ¬ Claims.inRange k addr) :
    askWriteHooks (before ++ after) addr v t = askWriteHooks after addr v t := by
  induction before with
  | nil => rfl
  | cons k ks ih =>
    obtain ⟨hk, hks⟩ := List.forall_mem_cons.mp hb
    rw [List.cons_append, askWriteHooks, if_neg (mt (covers_iff_inRange k addr).mp hk), ih hks]

theorem askWriteHooks_uncovered (v : Word) (hb : ∀ k ∈ before, ¬ Claims.inRange k addr) :
    askWriteHooks before addr v t = (false, t) := by
  simpa [askWriteHooks] using askWriteHooks_append (after := []) v hb

theorem askWriteHooks_handled {v : Word} (hc : Claims.inRange k addr)
    (hw : Config.writeHookHandled k.callback (k.offset addr) v t = true) :
    askWriteHooks (k :: after) addr v t = (true, t + 1) := by
  rw [askWriteHooks, if_pos ((covers_iff_inRange k addr).mpr hc), if_pos hw]

theorem askWriteHooks_unhandled {v : Word} (hc : Claims.inRange k addr)
    (hw : Config.writeHookHandled k.callback (k.offset addr) v t = false) :
    askWriteHooks (k :: after) addr v t = askWriteHooks after addr v (t + 1) := by
  rw [askWriteHooks, if_pos ((covers_iff_inRange k addr).mpr hc), hw, if_neg Bool.false_ne_true]

end Hooks

/-- Settles O15: hooks that do not cover the address are passed over, and the first that does answers or leaves the read
to the ones after it. -/
theorem readHooksAnswer : Obligations.ReadHooksAnswer := by
  intro s addr
  refine ⟨fun hon => if_pos hon, fun hoff => fetchRead_raw hoff addr, fun hnone => ?_, ?_⟩
  · rw [memRead, askReadHooks_uncovered hnone]
    rfl
  · intro before after k hs hb hc
    have first : askReadHooks s.readHooks addr s.envTick = askReadHooks (k :: after) addr s.envTick := by
      rw [hs, askReadHooks_append hb]
    rw [memRead, first]
    cases hr : Config.readHookReply k.callback (addr.toNat - k.base.toNat) s.envTick with
    | some r =>
      rw [askReadHooks_answered hc hr]
      rfl
    | none =>
      rw [askReadHooks_unanswered hc hr]
      rfl

/-- Settles O16: hooks that do not cover the address are passed over, and the first that does handles the write or
leaves it to the ones after it. -/
theorem writeHooksHandle : Obligations.WriteHooksHandle := by
  intro s addr v
  constructor
  · intro hnone
    rw [memWrite, askWriteHooks_uncovered v hnone]
    rfl
  · intro before after k hs hb hc
    have first : askWriteHooks s.writeHooks addr v s.envTick = askWriteHooks (k :: after) addr v s.envTick := by
      rw [hs, askWriteHooks_append v hb]
    rw [memWrite, first]
    cases hw : Config.writeHookHandled k.callback (addr.toNat - k.base.toNat) v s.envTick with
    | true =>
      rw [askWriteHooks_handled hc hw]
      rfl
    | false =>
      rw [askWriteHooks_unhandled hc hw]
      dsimp only [memWrite]
      split <;> rfl

/-! ### Memory is what it reads -/

theorem Memory.read_head {k : Nat} (hk : k < 65536) (v : Word) (rest : Memory) :
    Memory.read ((k, v) :: rest) (BitVec.ofNat 16 k) = v := by
  rw [Memory.read, if_pos (by rw [BitVec.toNat_ofNat, Nat.mod_eq_of_lt hk])]

/-- A memory from `lo'` on that reads like one with a cell at `k` cannot start later than `k`: it would read 0 there. -/
theorem Memory.start_le_head {m n : Memory} {lo lo' k : Nat} {v : Word} (hm : Memory.wfFrom lo ((k, v) :: m) = true)
    (hn : Memory.wfFrom lo' n = true) (h : ∀ addr, Memory.read ((k, v) :: m) addr = n.read addr) : lo' ≤ k := by
  obtain ⟨-, hk, hv, -⟩ := Memory.wfFrom_cons.mp hm
  by_contra hlt
  have hbelow : n.read (BitVec.ofNat 16 k) = 0 :=
    Memory.read_below hn (by rw [BitVec.toNat_ofNat, Nat.mod_eq_of_lt hk]; omega)
  exact hv (by rw [← hbelow, ← h, Memory.read_head hk])

/-- Canonical memories with the same first key that read alike have tails that read alike: at that key and below, both
tails read as unlisted. -/
theorem Memory.read_tail_congr {m n : Memory} {k : Nat} {v w : Word} (hm : Memory.wfFrom (k + 1) m = true)
    (hn : Memory.wfFrom (k + 1) n = true)
    (h : ∀ addr, Memory.read ((k, v) :: m) addr = Memory.read ((k, w) :: n) addr) (addr : Word) :
    m.read addr = n.read addr := by
  by_cases ha : k = addr.toNat
  · rw [Memory.read_below hm (by omega), Memory.read_below hn (by omega)]
  · simpa only [Memory.read, if_neg ha] using h addr

theorem Memory.wfFrom_ext {m n : Memory} {lo : Nat} (hm : Memory.wfFrom lo m = true) (hn : Memory.wfFrom lo n = true)
    (h : ∀ addr, m.read addr = n.read addr) : m = n := by
  induction m generalizing n lo with
  | nil =>
    cases n with
    | nil => rfl
    | cons d ns =>
      obtain ⟨-, hk, -⟩ := Memory.wfFrom_cons.mp hn
      have hle : 65536 ≤ d.1 := Memory.start_le_head hn rfl fun addr => (h addr).symm
      omega
  | cons c ms ih =>
    obtain ⟨k, v⟩ := c
    obtain ⟨-, hk, hv, hms⟩ := Memory.wfFrom_cons.mp hm
    cases n with
    | nil =>
      have hle : 65536 ≤ k := Memory.start_le_head hm rfl h
      omega
    | cons d ns =>
      obtain ⟨k', v'⟩ := d
      obtain ⟨-, hk', hv', hns⟩ := Memory.wfFrom_cons.mp hn
      have hle : k' ≤ k := Memory.start_le_head hm (Memory.wfFrom_cons.mpr ⟨le_rfl, hk', hv', hns⟩) h
      have hge : k ≤ k' :=
        Memory.start_le_head hn (Memory.wfFrom_cons.mpr ⟨le_rfl, hk, hv, hms⟩) fun addr => (h addr).symm
      obtain rfl : k = k' := le_antisymm hge hle
      have hword : v = v' := by simpa only [Memory.read_head hk] using h (BitVec.ofNat 16 k)
      rw [hword, ih hms hns (Memory.read_tail_congr hms hns h)]

/-- Settles O17: the first keys agree, since neither memory starts later than the other, and then the tails do. -/
theorem memoryExtensionality : Obligations.MemoryExtensionality :=
  fun _ _ => Memory.wfFrom_ext

end Sys2Proof.Machine

/-! PROOFS. The statements about the encoding: the decoder and the encoder are inverse to one another, every word is an
instruction, the word encoder of a line, the operand forms, and the opcodes with no table entry. -/

namespace Sys2Proof

/-! ### Decoding what the encoder gives -/

namespace Laws.ShapeNamesInstr

/-- Every instruction's shape leads back to it: the laws of the single instructions, in the order of the table. -/
theorem all (i : Instr) : Statement i :=
  i.casesOn (motive := Statement)
    set add sub mul mli div dvi mod mdi and bor xor shr asr shl ifb ifc ife ifn ifg ifa ifl ifu adx sbx sti std
    unassignedBasic18 unassignedBasic19 unassignedBasic1C unassignedBasic1D
    halt0 jsr brk hcf int iag ias rfi iaq hwn hwq hwi
    unassignedSpecial03 unassignedSpecial04 unassignedSpecial05 unassignedSpecial06 unassignedSpecial0D
    unassignedSpecial0E unassignedSpecial0F unassignedSpecial13 unassignedSpecial14 unassignedSpecial15
    unassignedSpecial16 unassignedSpecial17 unassignedSpecial18 unassignedSpecial19 unassignedSpecial1A
    unassignedSpecial1B unassignedSpecial1C unassignedSpecial1D unassignedSpecial1E unassignedSpecial1F

end Laws.ShapeNamesInstr

/-- A shape names an instruction: the decoder's tables give it, and it has the shape's operands. -/
theorem instr_of_shape_basic {i : Instr} {o : BitVec 5} {b a : Operand} (h : i.shape = .basic o b a) :
    o ≠ 0 ∧ basicInstr o b a = some i ∧ i.operands = (a, some b) := by
  simpa only [Laws.ShapeNamesInstr.Statement, h] using Laws.ShapeNamesInstr.all i

theorem instr_of_shape_special {i : Instr} {s : BitVec 5} {a : Operand} (h : i.shape = .special s a) :
    specialInstr s a = i ∧ i.operands = (a, none) := by
  simpa only [Laws.ShapeNamesInstr.Statement, h] using Laws.ShapeNamesInstr.all i

theorem wellFormed_of_operands_basic {i : Instr} {b a : Operand} (h : i.operands = (a, some b)) :
    i.wellFormed = true ↔ a.okA = true ∧ b.okB = true := by
  rw [Instr.wellFormed, h, Bool.and_eq_true]

theorem wellFormed_of_operands_special {i : Instr} {a : Operand} (h : i.operands = (a, none)) :
    i.wellFormed = true ↔ a.okA = true := by
  rw [Instr.wellFormed, h, Bool.and_true]

/-- The words of a basic shape decode to the instruction that its opcode names (spec/30_encoding.md R91, R93, R113). -/
theorem decode_words_basic {o : BitVec 5} {b a : Operand} {i : Instr} (ho : o ≠ 0) (hi : basicInstr o b a = some i)
    (ha : a.okA = true) (hb : b.okB = true) (rest : List Word) :
    decode ((Shape.basic o b a).words ++ rest) = .ok (i, rest) := by
  simp only [Shape.words, List.cons_append, List.append_assoc, decode, fieldA_basicWord, fieldB_basicWord,
    fieldO_basicWord, takeNext_next, if_neg ho, codeOfB_setWidth (code_lt_of_okB hb), operandOf_code_a ha,
    operandOf_code_b hb, hi]

/-- As `decode_words_basic`, for the special format (R92, R93, R114). -/
theorem decode_words_special {s : BitVec 5} {a : Operand} (ha : a.okA = true) (rest : List Word) :
    decode ((Shape.special s a).words ++ rest) = .ok (specialInstr s a, rest) := by
  simp only [Shape.words, List.cons_append, decode, fieldA_specialWord, fieldB_specialWord, fieldO_specialWord,
    takeNext_next, if_true, operandOf_code_a ha]

/-- The decoder is a left inverse of the encoder on well-formed instructions (R110, R116). -/
theorem decode_encode {i : Instr} (h : i.wellFormed = true) (rest : List Word) :
    decode (encode i ++ rest) = .ok (i, rest) := by
  unfold encode
  cases hs : i.shape with
  | basic o b a =>
    obtain ⟨ho, hi, hops⟩ := instr_of_shape_basic hs
    obtain ⟨ha, hb⟩ := (wellFormed_of_operands_basic hops).mp h
    exact decode_words_basic ho hi ha hb rest
  | special s a =>
    obtain ⟨hi, hops⟩ := instr_of_shape_special hs
    rw [decode_words_special ((wellFormed_of_operands_special hops).mp h), hi]

/-- As `decode_encode`, in the opcode table of a machine. -/
theorem decodeFor_encodeFor_of_wellFormed (m : Config.OpMap) {i : Instr} (h : i.wellFormed = true)
    (rest : List Word) : decodeFor m (encodeFor m i ++ rest) = .ok (i, rest) :=
  (decodeFor_encodeFor m i rest).trans (decode_encode h rest)

/-- Settles O4: the round trip of the default table, carried over to the table of a machine. -/
theorem decodeOfEncode : Obligations.DecodeOfEncode :=
  ⟨fun _ rest h => decode_encode h rest, fun m _ rest h => decodeFor_encodeFor_of_wellFormed m h rest,
    decodeFor_default⟩

/-! ### Encoding what the decoder reads -/

theorem setWidth_codeOfB (b : BitVec 5) : (codeOfB b).setWidth 5 = b := by
  apply BitVec.eq_of_toNat_eq
  simp only [codeOfB, BitVec.toNat_setWidth]
  omega

/-- The operand made from a next word gives the word back in front of the words left (R95, R119). -/
theorem next_append_of_takeNext {c : BitVec 6} {e : DecodeError} {ws rest : List Word} {n : Word}
    (h : takeNext c e ws = .ok (n, rest)) (p : Pos) : (operandOf p c n).next ++ rest = ws := by
  rw [next_operandOf]
  rcases takeNext_eq_ok.mp h with ⟨hc, rfl⟩ | ⟨hc, -, rfl⟩ <;> rw [hc] <;> rfl

/-- What the decoder can answer: a special instruction, or a basic one, with the operands of the word's fields. -/
theorem decode_eq_ok {w : Word} {ws rest : List Word} {i : Instr} (h : decode (w :: ws) = .ok (i, rest)) :
    ∃ na wsa, takeNext (fieldA w) .missingNextWordA ws = .ok (na, wsa) ∧
      ((fieldO w = 0 ∧ i = specialInstr (fieldB w) (operandOf .a (fieldA w) na) ∧ rest = wsa) ∨
        (fieldO w ≠ 0 ∧ ∃ nb, takeNext (codeOfB (fieldB w)) .missingNextWordB wsa = .ok (nb, rest) ∧
          basicInstr (fieldO w) (operandOf .b (codeOfB (fieldB w)) nb) (operandOf .a (fieldA w) na) = some i)) := by
  rw [decode] at h
  split at h
  · cases h
  · next na wsa ha =>
    refine ⟨na, wsa, ha, ?_⟩
    split at h
    · next ho =>
      cases h
      exact .inl ⟨ho, rfl, rfl⟩
    · next ho =>
      split at h
      · cases h
      · next nb wsb hb =>
        split at h
        · next hi =>
          cases h
          exact .inr ⟨ho, nb, hb, hi⟩
        · cases h

/-- The encoder gives back the words that the decoder read, all their bits (R116). -/
theorem encode_decode {ws rest : List Word} {i : Instr} (h : decode ws = .ok (i, rest)) :
    i.wellFormed = true ∧ encode i ++ rest = ws := by
  cases ws with
  | nil => cases h
  | cons w ws =>
    obtain ⟨na, wsa, ha, ⟨ho, rfl, rfl⟩ | ⟨-, nb, hb, hi⟩⟩ := decode_eq_ok h
    · obtain ⟨hs, hops⟩ := shape_of_specialInstr (fieldB w) (operandOf .a (fieldA w) na)
      refine ⟨(wellFormed_of_operands_special hops).mpr (operandOf_okA _ _), ?_⟩
      rw [encode, hs, Shape.words, code_operandOf, specialWord_eq, ← ho, basicWord_fields, List.cons_append,
        next_append_of_takeNext ha]
    · obtain ⟨hs, hops⟩ := shape_of_basicInstr hi
      refine ⟨(wellFormed_of_operands_basic hops).mpr ⟨operandOf_okA _ _, operandOf_okB (codeOfB_lt _) _⟩, ?_⟩
      rw [encode, hs, Shape.words, code_operandOf, code_operandOf, setWidth_codeOfB, basicWord_fields,
        List.cons_append, List.append_assoc, next_append_of_takeNext hb, next_append_of_takeNext ha]

/-- Settles O5: the words in the default table's numbers are encoded back, and the machine's numbers with them. -/
theorem encodeOfDecode : Obligations.EncodeOfDecode := by
  intro m ws rest i h
  obtain ⟨hwf, hws⟩ := encode_decode h
  refine ⟨hwf, ?_⟩
  rw [encodeFor_append, hws, onHead_onHead (ofTable_toTable m)]

/-! ### Every word is an instruction -/

theorem extraWords_special {w : Word} (h : fieldO w = 0) :
    extraWords w = if consumesNext (fieldA w) then 1 else 0 := by
  rw [extraWords, h]
  rfl

theorem extraWords_basic {w : Word} (h : fieldO w ≠ 0) :
    extraWords w = (if consumesNext (fieldA w) then 1 else 0) +
      (if consumesNext (codeOfB (fieldB w)) then 1 else 0) := by
  rw [extraWords, decide_eq_true h, Bool.true_and]

theorem extraWords_le (w : Word) : extraWords w ≤ 2 := by
  unfold extraWords
  split <;> split <;> decide

/-- A next word is taken wherever there are as many words as the code consumes. -/
theorem takeNext_of_le {c : BitVec 6} {ws : List Word} (e : DecodeError)
    (h : (if consumesNext c then 1 else 0) ≤ ws.length) :
    ∃ n, takeNext c e ws = .ok (n, ws.drop (if consumesNext c then 1 else 0)) := by
  unfold takeNext
  cases hc : consumesNext c with
  | false => exact ⟨0, rfl⟩
  | true =>
    cases ws with
    | nil => simp [hc] at h
    | cons n rest => exact ⟨n, rfl⟩

/-- Every word decodes, given the words that its fields ask for (R90, R94, R116). -/
theorem decode_of_extraWords_le {w : Word} {ws : List Word} (h : extraWords w ≤ ws.length) :
    ∃ i, decode (w :: ws) = .ok (i, ws.drop (extraWords w)) := by
  by_cases ho : fieldO w = 0
  · rw [extraWords_special ho] at h ⊢
    obtain ⟨na, ha⟩ := takeNext_of_le .missingNextWordA h
    exact ⟨_, by rw [decode, ha]; exact if_pos ho⟩
  · rw [extraWords_basic ho] at h ⊢
    obtain ⟨na, ha⟩ := takeNext_of_le .missingNextWordA (Nat.le_of_add_right_le h)
    obtain ⟨nb, hb⟩ := takeNext_of_le (c := codeOfB (fieldB w)) .missingNextWordB
      (ws := ws.drop (if consumesNext (fieldA w) then 1 else 0)) (by rw [List.length_drop]; omega)
    obtain ⟨i, hi⟩ := basicInstr_isSome ho (operandOf .b (codeOfB (fieldB w)) nb) (operandOf .a (fieldA w) na)
    exact ⟨i, by simp only [decode, ha, if_neg ho, hb, hi, List.drop_drop]⟩

/-- Settles O6: renumbering an instruction word for the default table leaves its length alone. -/
theorem everyWordDecodes : Obligations.EveryWordDecodes := by
  refine fun m w ws => ⟨extraWords_le w, fun h => ?_⟩
  rw [← extraWords_toTable m] at h ⊢
  exact decode_of_extraWords_le h

/-! ### Bare literals -/

theorem asmWord_error {n : Int} (h : n < 0 ∨ 0xFFFF < n) : asmWord n = .error .outOfRange := by
  refine if_neg fun hn => ?_
  simp only [Bool.and_eq_true, decide_eq_true_eq] at hn
  omega

theorem asmWord_ok {n : Int} (h : 0 ≤ n ∧ n ≤ 0xFFFF) : asmWord n = .ok (BitVec.ofInt 16 n) :=
  if_pos (by rw [decide_eq_true h.1, decide_eq_true h.2]; rfl)

/-- A literal is packed short exactly as the `a` operand with value 0..30 or 0xFFFF, which stands for -1, and code
0x20 + k then stands for the literal; else it is a next word (spec/30_encoding.md R95, R112, decision D24). -/
theorem packLiteral_cases (p : Pos) (v : Word) :
    ((p = .a ∧ (v.toNat ≤ 30 ∨ v = 0xFFFF)) ∧ ∃ k, packLiteral p v = .short k ∧ Machine.shortValue k = v) ∨
      (¬ (p = .a ∧ (v.toNat ≤ 30 ∨ v = 0xFFFF)) ∧ packLiteral p v = .lit v) := by
  cases p with
  | b => exact .inr ⟨nofun, rfl⟩
  | a =>
    rw [packLiteral]
    split
    · next hv => exact .inl ⟨⟨rfl, .inr hv⟩, 0, rfl, hv ▸ rfl⟩
    · next hv =>
      split
      · next hle =>
        refine .inl ⟨⟨rfl, .inl hle⟩, _, rfl, ?_⟩
        unfold Machine.shortValue
        bv_omega
      · next hgt => exact .inr ⟨fun h => h.2.elim hgt hv, rfl⟩

theorem packLiteral_next_eq_nil (p : Pos) (v : Word) :
    (packLiteral p v).next = [] ↔ p = .a ∧ (v.toNat ≤ 30 ∨ v = 0xFFFF) := by
  obtain ⟨hshort, k, hk, -⟩ | ⟨hlong, hk⟩ := packLiteral_cases p v <;> rw [hk]
  · exact iff_of_true rfl hshort
  · exact iff_of_false (List.cons_ne_nil _ _) hlong

theorem packLiteral_of_next_ne_nil {p : Pos} {v : Word} (h : (packLiteral p v).next ≠ []) :
    packLiteral p v = .lit v := by
  obtain ⟨hshort, -⟩ | ⟨-, hk⟩ := packLiteral_cases p v
  · exact absurd ((packLiteral_next_eq_nil p v).mpr hshort) h
  · exact hk

/-- However it is packed, a literal is itself (spec/40_operand_resolution.md R144). -/
theorem refOf_packLiteral (p : Pos) (v : Word) (s : Machine.State) : Machine.refOf p (packLiteral p v) s = .lit v := by
  obtain ⟨-, k, hk, hv⟩ | ⟨-, hk⟩ := packLiteral_cases p v <;> rw [hk]
  · exact congrArg _ hv
  · rfl

/-- Settles O8: an integer in range is its word, and `packLiteral` packs the word. -/
theorem literalPacking : Obligations.LiteralPacking := by
  intro p n s
  refine ⟨fun h => ?_, fun h => ?_⟩
  · rw [asmOperand, asmWord_error h]
    rfl
  · have hshort : (BitVec.ofInt 16 n).toNat ≤ 30 ∨ BitVec.ofInt 16 n = 0xFFFF ↔ n ≤ 30 ∨ n = 0xFFFF := by
      have hn : ((BitVec.ofInt 16 n).toNat : Int) = n := by
        rw [BitVec.toNat_ofInt]
        omega
      rw [← BitVec.toNat_inj, show (0xFFFF : Word).toNat = 0xFFFF from rfl]
      omega
    refine ⟨packLiteral p (BitVec.ofInt 16 n), ?_, refOf_packLiteral p _ s, ?_, packLiteral_of_next_ne_nil⟩
    · rw [asmOperand, asmWord_ok h]
      rfl
    · rw [packLiteral_next_eq_nil, hshort]

/-! ### Instruction lines -/

theorem except_map_eq_ok {ε α β : Type} {f : α → β} {x : Except ε α} {b : β} :
    x.map f = .ok b ↔ ∃ a, x = .ok a ∧ f a = b := by
  cases x <;> simp [Except.map]

/-- Whether an operand exists in a position (spec/40_operand_resolution.md R135, R136, R144). -/
def Operand.okAt : Pos → Operand → Bool
  | .a => Operand.okA
  | .b => Operand.okB

theorem okAt_packLiteral (p : Pos) (v : Word) : (packLiteral p v).okAt p = true := by
  obtain ⟨⟨rfl, -⟩, k, hk, -⟩ | ⟨-, hk⟩ := packLiteral_cases p v <;> rw [hk]
  · rfl
  · cases p <;> rfl

/-- An operand form is packed as an operand of its position: either keyword of code 0x18 takes the position's meaning,
and only the `a` operand is packed short (spec/30_encoding.md R111, R112). -/
theorem okAt_of_asmOperand {p : Pos} {x : AsmArg} {o : Operand} (h : asmOperand p x = .ok o) : o.okAt p = true := by
  cases x with
  | regOff r n | spOff n | ind n =>
    obtain ⟨v, -, rfl⟩ := except_map_eq_ok.mp h
    cases p <;> rfl
  | num n =>
    obtain ⟨v, -, rfl⟩ := except_map_eq_ok.mp h
    exact okAt_packLiteral p v
  | pcInd | exInd | pcOff n | exOff n => cases h
  | _ =>
    cases h
    cases p <;> rfl

/-- A shape that is the shape of a well-formed instruction. -/
def Shape.isInstr (sh : Shape) : Prop := ∃ i : Instr, i.wellFormed = true ∧ i.shape = sh

theorem Shape.isInstr_basic {o : BitVec 5} {b a : Operand} (ho : o ≠ 0) (hb : b.okB = true) (ha : a.okA = true) :
    (Shape.basic o b a).isInstr := by
  obtain ⟨i, hi⟩ := basicInstr_isSome ho b a
  obtain ⟨hs, hops⟩ := shape_of_basicInstr hi
  exact ⟨i, (wellFormed_of_operands_basic hops).mpr ⟨ha, hb⟩, hs⟩

theorem Shape.isInstr_special {s : BitVec 5} {a : Operand} (ha : a.okA = true) : (Shape.special s a).isInstr := by
  obtain ⟨hs, hops⟩ := shape_of_specialInstr s a
  exact ⟨specialInstr s a, (wellFormed_of_operands_special hops).mpr ha, hs⟩

section Lines

variable {args : List AsmArg} {sh : Shape}

theorem isInstr_of_asmBasic {o : BitVec 5} (ho : o ≠ 0) (h : asmBasic o args = .ok sh) : sh.isInstr := by
  unfold asmBasic at h
  split at h
  · split at h
    · next hb ha =>
      cases h
      exact Shape.isInstr_basic ho (okAt_of_asmOperand hb) (okAt_of_asmOperand ha)
    · cases h
    · cases h
  · cases h

theorem isInstr_of_asmSpecial {s : BitVec 5} (h : asmSpecial s args = .ok sh) : sh.isInstr := by
  unfold asmSpecial at h
  split at h
  · obtain ⟨a, ha, rfl⟩ := except_map_eq_ok.mp h
    exact Shape.isInstr_special (okAt_of_asmOperand ha)
  · cases h

theorem isInstr_of_asmBare {s : BitVec 5} (h : asmBare s args = .ok sh) : sh.isInstr := by
  unfold asmBare at h
  split at h
  · cases h
    exact Shape.isInstr_special rfl
  · cases h

/-- A mnemonic's line is packed in one of the three ways of R113 to R115; no basic mnemonic has number 0. -/
theorem asmShape_eq_ok {mnemonic : String} (h : asmShape mnemonic args = .ok sh) :
    (∃ o, asmBasic o args = .ok sh ∧ o ≠ 0) ∨ (∃ s, asmSpecial s args = .ok sh) ∨
      ∃ s, asmBare s args = .ok sh := by
  unfold asmShape at h
  split at h
  all_goals first
    | exact .inr (.inl ⟨_, h⟩) -- JSR, HCF to HWI
    | exact .inr (.inr ⟨_, h⟩) -- BRK
    | refine .inl ⟨_, h, ?_⟩ -- SET to STD
    | cases h -- no mnemonic
  all_goals decide

/-- A line without an error is a well-formed instruction (R111 to R115). -/
theorem isInstr_of_asmShape {mnemonic : String} (h : asmShape mnemonic args = .ok sh) : sh.isInstr := by
  obtain ⟨o, h, ho⟩ | ⟨s, h⟩ | ⟨s, h⟩ := asmShape_eq_ok h
  · exact isInstr_of_asmBasic ho h
  · exact isInstr_of_asmSpecial h
  · exact isInstr_of_asmBare h

end Lines

/-- Settles O9: the line is a well-formed instruction, and the round trip `decodeFor_encodeFor_of_wellFormed` gives it
back. -/
theorem assembledLinesDecode : Obligations.AssembledLinesDecode := by
  intro m mnemonic args ws h
  obtain ⟨_, hws, rfl⟩ := except_map_eq_ok.mp h
  obtain ⟨_, hsh, rfl⟩ := except_map_eq_ok.mp hws
  obtain ⟨i, hwf, rfl⟩ := isInstr_of_asmShape hsh
  refine ⟨i, ?_, hsh⟩
  have hround := decodeFor_encodeFor_of_wellFormed m hwf []
  rwa [List.append_nil] at hround

/-! ### Words written out -/

/-- Settles O7: each word decodes by computation. -/
theorem decodesWrittenWords : Obligations.DecodesWrittenWords := by
  refine ⟨?_, ?_, ?_, ?_, ?_, ?_, ?_, ?_, ?_, ?_, ?_⟩ <;> decide

end Sys2Proof

namespace Sys2Proof.Machine

/-! ### Operand forms -/

/-- The other columns of an operand's row follow from the operand of the code (spec/30_encoding.md R94, R95). -/
theorem operandRow_of_operandOf {p : Pos} {code : Nat} {n : Word} {o : Operand}
    (h : operandOf p (BitVec.ofNat 6 code) n = o) : Claims.operandRow p code n o o.next := by
  subst h
  refine ⟨rfl, code_operandOf p _ n, rfl, ?_⟩
  rw [next_operandOf]
  cases consumesNext (BitVec.ofNat 6 code) <;> simp

theorem num_of_registers {k : Nat} {r : GReg} (h : Claims.registers[k]? = some r) : k = r.num.toNat := by
  have hk : k < 8 := (List.getElem?_eq_some_iff.mp h).1
  interval_cases k <;> cases h <;> rfl

theorem operandOf_reg (p : Pos) (n : Word) (r : GReg) : operandOf p (BitVec.ofNat 6 r.num.toNat) n = .reg r := by
  cases r <;> rfl

theorem operandOf_regInd (p : Pos) (n : Word) (r : GReg) :
    operandOf p (BitVec.ofNat 6 (0x08 + r.num.toNat)) n = .regInd r := by
  cases r <;> rfl

theorem operandOf_regOff (p : Pos) (n : Word) (r : GReg) :
    operandOf p (BitVec.ofNat 6 (0x10 + r.num.toNat)) n = .regOff r n := by
  cases r <;> rfl

/-- Settles O10: the rows of the registers by their numbers, the other rows and the references by computation. -/
theorem resolvesOperands : Obligations.ResolvesOperands := by
  refine ⟨fun k r n p hk => ?_, fun n p => ?_, fun s r n => ⟨fun p => ?_, rfl, rfl⟩⟩
  · obtain rfl := num_of_registers hk
    exact ⟨operandRow_of_operandOf (operandOf_reg p n r), operandRow_of_operandOf (operandOf_regInd p n r),
      operandRow_of_operandOf (operandOf_regOff p n r)⟩
  · refine ⟨?_, ?_, ?_, ?_, ?_, ?_, ?_, ?_, ?_⟩ <;> exact operandRow_of_operandOf rfl
  · exact ⟨rfl, rfl, rfl, rfl, rfl, rfl, rfl, rfl, rfl, rfl⟩

/-! ### Unassigned opcodes -/

/-- Settles O46: every unassigned opcode's meaning is the decode fault of its own instruction word. -/
theorem unassignedFault : Obligations.UnassignedFault := by
  intro b a s i hi
  have hexec : exec i s = decodeFault i s := by
    fin_cases hi <;> rfl
  obtain ⟨w, hw, hf⟩ := decodeFault_eq i s
  exact ⟨w, hw, hexec.trans hf, rfl⟩

end Sys2Proof.Machine

/-! PROOFS. The statements about operands: what a short literal code stands for, reading and writing through a reference,
and what the order of resolution makes of operands that touch one another. -/

namespace Sys2Proof.Machine

/-! ### Short literals -/

/-- The codes from 0x20 on are the short literals: every other form has a code below (spec/30_encoding.md R95). -/
theorem operandOf_short {c : BitVec 6} (h : 0x20 ≤ c.toNat) (n : Word) :
    ∃ k : BitVec 5, operandOf .a c n = .short k ∧ c.toNat = 0x20 + k.toNat := by
  have hcode : (operandOf .a c n).code = c := code_operandOf .a c n
  cases ho : operandOf .a c n with
  | short k =>
    refine ⟨k, rfl, ?_⟩
    rw [← hcode, ho, Operand.code, BitVec.toNat_append, ← Nat.shiftLeft_add_eq_or_of_lt k.isLt]
    rfl
  | pop =>
    rw [← hcode, ho] at h
    exact absurd h (by decide)
  | _ =>
    rw [← hcode, ho] at h
    exact absurd (code_lt_of_okB rfl) (Nat.not_lt.mpr h)

theorem shortValue_eq_ofInt (k : BitVec 5) : shortValue k = BitVec.ofInt 16 (((0x20 + k.toNat : Nat) : Int) - 0x21) := by
  have hsub : ((0x20 + k.toNat : Nat) : Int) - 0x21 = k.toNat + -1 := by omega
  rw [hsub, BitVec.ofInt_add, BitVec.ofInt_natCast, shortValue, BitVec.sub_eq_add_neg, BitVec.ofNat_toNat]
  rfl

/-- Settles O11: the operand of the code is a short literal, which has no next word and is resolved to its value. -/
theorem shortLiterals : Obligations.ShortLiterals := by
  intro c n v s hc
  obtain ⟨k, hk, hck⟩ := operandOf_short hc n
  have hnext : consumesNext c = false := by
    rw [← code_operandOf .a c n, hk, consumesNext_code]
    rfl
  rw [hk, hck, ← shortValue_eq_ofInt]
  exact ⟨hnext, rfl, setRef_lit _ v s⟩

/-! ### References -/

/-- Settles O12: a case for each kind of reference, by the definitions of `Get` and `Set`. -/
theorem referencesReadAndWrite : Obligations.ReferencesReadAndWrite := by
  intro s r addr v w
  exact ⟨rfl, rfl, rfl, rfl, rfl, rfl, setRef_reg _ v s, setRef_reg _ v s, setRef_reg _ v s, setRef_reg _ v s,
    setRef_mem addr v s, setRef_lit w v s⟩

/-! ### Order of resolution -/

/-- The value of `a` when no read hook answers: read after both operands have moved SP, through the reference that `a` had
before `b` moved it (spec/40_operand_resolution.md R147). -/
def State.valueOfA (s : State) (b a : Operand) : Word :=
  { s with sp := spAfter .b b (spAfter .a a s.sp) }.refValue (refOf .a a s)

section Order

variable {s : State} {b a : Operand}

theorem basicOperands_aval_noHooks (h : s.readHooks = []) (cost : Nat) :
    (basicOperands cost b a s).aval = s.valueOfA b a := by
  rw [basicOperands_noHooks h, State.valueOfA]
  cases refOf .a a s <;> rfl

/-- SET writes the value of `a` through the reference of `b` (spec/42_set_arithmetic.md R180). -/
theorem exec_set (b a : Operand) (s : State) :
    let e := basicOperands (baseCost s.params (.set b a)) b a s
    exec (.set b a) s = .next (setRef e.bref e.aval e.st) := rfl

theorem exec_set_reg (h : s.readHooks = []) {n : RegName}
    (hb : refOf .b b { s with sp := spAfter .a a s.sp } = .reg n) :
    ∃ t, exec (.set b a) s = .next t ∧ t.getReg n = s.valueOfA b a := by
  refine ⟨_, exec_set b a s, ?_⟩
  rw [basicOperands_bref, hb, setRef_getReg_same, basicOperands_aval_noHooks h]

/-- SET to a word of memory leaves SP where the two resolutions moved it. -/
theorem exec_set_mem (h : s.noHooks) {addr : Word}
    (hb : refOf .b b { s with sp := spAfter .a a s.sp } = .mem addr) :
    ∃ t, exec (.set b a) s = .next t ∧ t.sp = spAfter .b b (spAfter .a a s.sp) ∧
      t.mem = s.mem.write addr (s.valueOfA b a) := by
  obtain ⟨hread, hwrite⟩ := h
  refine ⟨_, exec_set b a s, ?_, ?_⟩ <;> rw [basicOperands_bref, hb, setRef_mem]
  · rw [memWrite_sp, basicOperands_sp]
  · rw [basicOperands_aval_noHooks hread, memWrite_noHooks (by rw [basicOperands_writeHooks, hwrite])]
    exact congrArg (Memory.write · addr _) (basicOperands_mem _ b a s)

theorem exec_set_mem_read (hi : s.Inv) (h : s.noHooks) {addr : Word}
    (hb : refOf .b b { s with sp := spAfter .a a s.sp } = .mem addr) :
    ∃ t, exec (.set b a) s = .next t ∧ t.sp = spAfter .b b (spAfter .a a s.sp) ∧
      t.mem.read addr = s.valueOfA b a := by
  obtain ⟨t, ht, hsp, hmem⟩ := exec_set_mem h hb
  exact ⟨t, ht, hsp, hmem ▸ Memory.read_write_same hi.memWf addr _⟩

end Order

/-- Writing back the word that an address holds changes no word. -/
theorem Memory.read_write_read {m : Memory} (h : m.wf = true) (addr addr' : Word) :
    (m.write addr (m.read addr)).read addr' = m.read addr' := by
  rw [Memory.read_write h]
  split
  · next e => rw [e]
  · rfl

/-- The result of ADD is the sum in 16 bits (spec/42_set_arithmetic.md R181). -/
theorem addResult_value (b a : Word) : (addResult b a).value = b + a := by
  simp [addResult, u16, BitVec.ofInt_add]

/-- A result that goes to another register than EX stands there, whatever `EX_DEST_ORDER` (R191). -/
theorem storeResultAndEx_getReg {e : BasicOperands} {n : RegName} (hb : e.bref = .reg n) (hn : n ≠ .ex)
    (r : AluResult) : ∃ t, storeResultAndEx e r = .next t ∧ t.getReg n = r.value := by
  have hne : e.bref ≠ .reg .ex := by simpa [hb] using hn
  refine ⟨_, storeResultAndEx_eq e r, ?_⟩
  rw [if_neg hne, hb]
  cases n with
  | ex => exact absurd rfl hn
  | gen g => exact setRef_getReg_same (.gen g) r.value e.st
  | _ => rfl

/-- ADD to PC adds to the PC that the fetch of the whole instruction left (spec/40_operand_resolution.md R147). -/
theorem exec_add_pc (k : BitVec 5) (s : State) :
    ∃ t, exec (.add .pc (.short k)) s = .next t ∧ t.pc = s.pc + shortValue k := by
  let e := basicOperands (baseCost s.params (.add .pc (.short k))) .pc (.short k) s
  obtain ⟨t, ht, hpc⟩ := storeResultAndEx_getReg (e := e) (n := .pc) rfl nofun (addResult e.bval e.aval)
  refine ⟨t, ht, ?_⟩
  rw [← State.getReg_pc, hpc, addResult_value]
  rfl

/-- Settles O14: each example is a SET to a register or to a word of memory, or the ADD to PC; where two operands move SP,
the second starts from what the first left. -/
theorem orderOfOperands : Obligations.OrderOfOperands := by
  intro s hinv hh
  have hr : s.readHooks = [] := hh.1
  refine ⟨exec_set_reg hr (n := .gen .a) rfl, ?_, exec_add_pc 3 s, exec_set_mem_read hinv hh rfl,
    exec_set_reg hr (n := .sp) rfl, exec_set_mem_read hinv hh rfl, ?_, ?_⟩
  · obtain ⟨t, ht, -, hval⟩ := exec_set_mem_read (b := .regInd .a) (a := .reg .a) hinv hh rfl
    exact ⟨t, ht, hval⟩
  · have hback : s.sp + 1 - 1 = s.sp := BitVec.add_sub_cancel _ _
    obtain ⟨t, ht, hsp, hmem⟩ := exec_set_mem (b := .push) (a := .pop) hh (congrArg Ref.mem hback)
    exact ⟨t, ht, hsp.trans hback, fun addr => hmem ▸ Memory.read_write_read hinv.memWf s.sp addr⟩
  · obtain ⟨t, ht, -, hval⟩ := exec_set_mem_read (b := .memAt 0x1000) (a := .pc) hinv hh rfl
    exact ⟨t, ht, hval⟩

end Sys2Proof.Machine

/-! PROOFS. The statements about the step cycle: what a meaning is handed, that a step fetches and runs one instruction,
and that nothing happens when the CPU is not running. -/

namespace Sys2Proof.Machine

/-! ### Operands as they are handed over -/

/-- Settles O13: the two hand-overs are the reads in their order, by definition; with no read hooks a read leaves the
state alone, so that each value can be read again in the state handed over. -/
theorem operandsHandedOver : Obligations.OperandsHandedOver := by
  intro cost b a s
  refine ⟨rfl, rfl, rfl, rfl, rfl, rfl, rfl, basicOperands_state cost b a s, specialOperand_state cost a s,
    fun h => ?_⟩
  have he := basicOperands_noHooks h cost b a
  have hd := specialOperand_noHooks h cost a
  refine ⟨congrArg (·.st.envTick) he, congrArg (·.st.envTick) hd, ?_, ?_, ?_⟩
  · rw [getRef_noHooks (by rw [basicOperands_readHooks, h]), he]
    rfl
  · rw [getRef_noHooks (by rw [basicOperands_readHooks, h]), he]
    rfl
  · rw [getRef_noHooks (by rw [specialOperand_readHooks, h]), hd]
    rfl

/-! ### Fetching is reading words in order -/

theorem addr_add_succ (addr : Word) (j : Nat) :
    addr + BitVec.ofNat 16 (j + 1) = addr + 1 + BitVec.ofNat 16 j := by
  rw [Nat.add_comm j, BitVec.ofNat_add, ← BitVec.add_assoc]
  rfl

/-- The state with PC and the cycle counter as a fetch has left them. -/
def State.atFetch (s : State) (pc : Word) (cycle : Nat) : State := { s with pc := pc, cycle := cycle }

@[simp] theorem State.atFetch_pc (s : State) (p : Word) (c : Nat) : (s.atFetch p c).pc = p := rfl

/-- A fetch's read sees neither PC nor the cycle counter, and keeps both. -/
theorem fetchRead_atFetch (addr p : Word) (c : Nat) (s : State) :
    fetchRead addr (s.atFetch p c) = ((fetchRead addr s).1, (fetchRead addr s).2.atFetch p c) := by
  unfold State.atFetch fetchRead
  split <;> rfl

/-- Words read in order are the first of them and then, in the state that these left, the rest. -/
theorem fetched_add (j k : Nat) (addr : Word) (s : State) :
    Claims.fetched (j + k) addr s =
      let f := Claims.fetched j addr s
      let g := Claims.fetched k (addr + BitVec.ofNat 16 j) f.2
      (f.1 ++ g.1, g.2) := by
  induction j generalizing addr s with
  | zero => simp [Claims.fetched]
  | succ j ih =>
    rw [Nat.add_right_comm]
    simp only [Claims.fetched, ih, addr_add_succ, List.cons_append]

/-- Reading words changes nothing but the count of callbacks. -/
theorem fetched_state (k : Nat) (addr : Word) (s : State) :
    (Claims.fetched k addr s).2 = { s with envTick := (Claims.fetched k addr s).2.envTick } := by
  induction k generalizing addr s with
  | zero => rfl
  | succ k ih =>
    simp only [Claims.fetched]
    rw [ih, fetchRead_state]

/-- Where fetches see no read hooks, the words read are those of raw memory (spec/20_memory.md R64). -/
theorem fetched_raw {s : State} (h : s.readHooks = [] ∨ s.params.fetchViaHooks = false) (k : Nat) (addr : Word) :
    Claims.fetched k addr s = ((List.range k).map fun j => s.mem.read (addr + BitVec.ofNat 16 j), s) := by
  have hread (addr : Word) : fetchRead addr s = (s.mem.read addr, s) :=
    h.elim (fetchRead_noHooks · addr) (fetchRead_raw · addr)
  induction k generalizing addr with
  | zero => rfl
  | succ k ih =>
    simp only [Claims.fetched, hread, ih, List.range_succ_eq_map, List.map_cons, List.map_map, Function.comp_def,
      Nat.succ_eq_add_one, addr_add_succ]
    rw [BitVec.add_zero]

theorem fetchWord_eq_fetchRead (s : State) :
    fetchWord s = ((fetchRead s.pc s).1, (fetchRead s.pc s).2.atFetch (s.pc + 1) s.cycle) := by
  rw [State.atFetch, ← fetchRead_cycle s.pc s]
  rfl

/-- The next word of an operand is the next of the words read, and costs one cycle
(spec/40_operand_resolution.md R131). -/
theorem nextIf_atFetch (needed : Bool) (p : Word) (c : Nat) (s : State) :
    nextIf needed (s.atFetch p c) =
      let f := Claims.fetched needed.toNat p s
      (f.1, f.2.atFetch (p + BitVec.ofNat 16 needed.toNat) (c + needed.toNat)) := by
  cases needed with
  | false => simp [nextIf, Claims.fetched]
  | true =>
    simp only [nextIf, nextWord, fetchWord, State.atFetch_pc, fetchRead_atFetch]
    rfl

theorem extraWords_eq_toNat (w : Word) :
    extraWords w = (consumesNext (fieldA w)).toNat + (bConsumesNext w).toNat := by
  rw [extraWords_eq, Bool.toNat, Bool.toNat, Bool.cond_eq_ite, Bool.cond_eq_ite]

/-- Fetching an instruction reads its words in order, moves PC past them, and costs one cycle for each next word
(spec/30_encoding.md R93; spec/41_step_cycle.md R162; spec/70_reset_and_hazards.md R367). -/
theorem fetchInstr_eq_fetched (s : State) :
    let n := extraWords (fetchRead s.pc s).1
    let f := Claims.fetched (1 + n) s.pc s
    fetchInstr s = (f.1, f.2.atFetch (s.pc + 1 + BitVec.ofNat 16 n) (s.cycle + n)) := by
  simp only [fetchInstr, fetchWord_eq_fetchRead, nextIf_atFetch, extraWords_eq_toNat, fetched_add, BitVec.ofNat_add,
    BitVec.add_assoc, Nat.add_assoc]
  rfl

/-- The words fetched are always those of one instruction (spec/30_encoding.md R116). -/
theorem runInstr_decodes (s : State) :
    ∃ i, decodeFor s.params.opMap (fetchInstr s).1 = .ok (i, []) ∧ runInstr s = exec i (fetchInstr s).2 := by
  obtain ⟨-, hdec⟩ := everyWordDecodes s.params.opMap (fetchWord s).1 (fetchInstr s).1.tail
  have hlen : (fetchInstr s).1.tail.length = extraWords (fetchWord s).1 := by
    rw [List.length_tail, fetchInstr_length, Nat.add_sub_cancel_left]
  obtain ⟨i, hi⟩ := hdec hlen.ge
  have hone : decodeFor s.params.opMap (fetchInstr s).1 = .ok (i, []) :=
    hi.trans (by rw [← hlen, List.drop_length])
  exact ⟨i, hone, by simp only [runInstr, hone]⟩

/-! ### The step -/

/-- Unless a skip goes on, a step is the CPU's step in the state that what arrives has left
(spec/41_step_cycle.md R169). -/
theorem step_of_arrivals {s v : State} (h : s.skipping = false ∨ s.run ≠ .running) (ha : arrivals s = .next v) :
    step s = cpuStep v := by
  have hskip : ¬(s.skipping && s.run == .running) = true := by
    rcases h with hs | hr
    · simp [hs]
    · simp [hr]
  rw [step, if_neg hskip, ha, andThen_next]

/-- Settles O53: the CPU's step is the delivery and one instruction, whose fetch is a reading of its words in order. -/
theorem stepRunsDecoded : Obligations.StepRunsDecoded := by
  intro s v hs ha hv u n f
  refine ⟨?_, fetched_state _ _ u, fun h => ?_⟩
  · obtain ⟨i, hdec, hrun⟩ := runInstr_decodes u
    have hstep : step s = runInstr u := (step_of_arrivals (.inl hs) ha).trans (if_pos hv)
    rw [fetchInstr_eq_fetched] at hdec hrun
    exact ⟨i, hdec, hstep.trans hrun⟩
  · have hraw := fetched_raw h (1 + n) u.pc
    exact ⟨congrArg Prod.snd hraw, congrArg Prod.fst hraw⟩

/-- Settles O55: nothing arrives from an empty agenda, and the CPU's step does nothing unless it runs. -/
theorem stepAtRest : Obligations.StepAtRest := by
  intro s hagenda hrun
  exact (step_of_arrivals (.inr hrun) (arrivals_none hagenda)).trans (if_neg hrun)

end Sys2Proof.Machine

/-! PROOFS. The statements about SET and arithmetic: the words that the exact integers of the model narrow to, what each
instruction writes, and how quotients fit remainders and differences fit sums. -/

namespace Sys2Proof.Machine

/-! ### Rows and results -/

/-- A row of the default table, from its number and its default cost. -/
theorem row_of_defaultCost {i : Instr} {sh : Shape} {cost : Nat} (hs : i.shape = sh) (hc : defaultCost i = cost) :
    Claims.row i sh cost :=
  ⟨hs, fun _ hp => (baseCost_default hp i).trans hc⟩

/-- A result and its EX value, written as `EX_DEST_ORDER` says (spec/42_set_arithmetic.md R179, R191). -/
theorem storeResultAndEx_withResultAndEx (e : BasicOperands) (r : AluResult) :
    storeResultAndEx e r = .next (Claims.withResultAndEx e r.value r.ex) := by
  rw [storeResultAndEx_eq, Claims.withResultAndEx]
  cases e.st.params.exDestOrder <;> rfl

theorem storeResultAndEx_of_eq {e : BasicOperands} {r : AluResult} {v x : Word} (hv : r.value = v) (hx : r.ex = x) :
    storeResultAndEx e r = .next (Claims.withResultAndEx e v x) := by
  rw [storeResultAndEx_withResultAndEx, hv, hx]

/-! ### Narrowing to 16 bits (spec/00_scope.md R7) -/

@[simp] theorem u16_n16 (v : Word) : u16 (n16 v) = v := by
  rw [u16, BitVec.ofInt_natCast, BitVec.ofNat_toNat, BitVec.setWidth_eq]

@[simp] theorem u16_s16 (v : Word) : u16 (s16 v) = v := by
  rw [s16_eq_toInt, u16, BitVec.ofInt_toInt]

theorem u16_add (m n : Int) : u16 (m + n) = u16 m + u16 n := BitVec.ofInt_add m n

theorem u16_mul (m n : Int) : u16 (m * n) = u16 m * u16 n := BitVec.ofInt_mul m n

theorem u16_sub (m n : Int) : u16 (m - n) = u16 m - u16 n := by
  rw [eq_comm, BitVec.sub_eq_iff_eq_add, ← u16_add, Int.sub_add_cancel]

theorem u16_natCast (n : Nat) : u16 n = BitVec.ofNat 16 n := BitVec.ofInt_natCast 16 n

/-- The high half of a 32-bit number is the word of its floor by 65536. -/
theorem extractLsb'_ofInt_high (p : Int) : (BitVec.ofInt 32 p).extractLsb' 16 16 = u16 (p / 65536) := by
  apply BitVec.eq_of_toNat_eq
  rw [BitVec.extractLsb'_toNat, BitVec.toNat_ofInt, u16, BitVec.toNat_ofInt, Nat.shiftRight_eq_div_pow]
  omega

/-! ### Sums and differences -/

theorem addResult_ex (b a : Word) : (addResult b a).ex = if b.toNat + a.toNat > 0xFFFF then 1 else 0 := by
  have hcarry : (b.toNat : Int) + a.toNat > 0xFFFF ↔ b.toNat + a.toNat > 0xFFFF := by omega
  simp only [addResult, n16, hcarry]

theorem subResult_value (b a : Word) : (subResult b a).value = b - a := by
  simp [subResult, u16_sub]

theorem subResult_ex (b a : Word) : (subResult b a).ex = if b.toNat < a.toNat then 0xFFFF else 0 := by
  have hborrow : (b.toNat : Int) - a.toNat < 0 ↔ b.toNat < a.toNat := by omega
  simp only [subResult, n16, hborrow]

theorem adxResult_value (b a ex : Word) : (adxResult b a ex).value = b + a + ex := by
  simp [adxResult, u16_add]

theorem adxResult_ex (b a ex : Word) :
    (adxResult b a ex).ex = if b.toNat + a.toNat + ex.toNat > 0xFFFF then 1 else 0 := by
  have hcarry : (b.toNat : Int) + a.toNat + ex.toNat > 0xFFFF ↔ b.toNat + a.toNat + ex.toNat > 0xFFFF := by omega
  simp only [adxResult, n16, hcarry]

theorem sbxResult_value (b a ex : Word) : (sbxResult b a ex).value = b - a + ex := by
  simp [sbxResult, u16_add, u16_sub]

theorem sbxResult_ex (b a ex : Word) :
    (sbxResult b a ex).ex =
      if b.toNat + ex.toNat < a.toNat then 0xFFFF else if b.toNat + ex.toNat > a.toNat + 0xFFFF then 1 else 0 := by
  have hborrow : (b.toNat : Int) - a.toNat + ex.toNat < 0 ↔ b.toNat + ex.toNat < a.toNat := by omega
  have hcarry : (b.toNat : Int) - a.toNat + ex.toNat > 0xFFFF ↔ b.toNat + ex.toNat > a.toNat + 0xFFFF := by omega
  simp only [sbxResult, n16, hborrow, hcarry]

/-! ### Products -/

theorem mulResult_value (b a : Word) : (mulResult b a).value = b * a := by
  simp [mulResult, u16_mul]

theorem mliResult_value (b a : Word) : (mliResult b a).value = b * a := by
  simp [mliResult, u16_mul]

theorem mulResult_ex (b a : Word) :
    (mulResult b a).ex = (b.setWidth 32 * a.setWidth 32).extractLsb' 16 16 := by
  have hprod : b.setWidth 32 * a.setWidth 32 = BitVec.ofInt 32 (n16 b * n16 a) := by
    rw [BitVec.ofInt_mul, BitVec.ofInt_natCast, BitVec.ofInt_natCast, BitVec.ofNat_toNat, BitVec.ofNat_toNat]
  rw [hprod, extractLsb'_ofInt_high, mulResult]

theorem mliResult_ex (b a : Word) :
    (mliResult b a).ex = (b.signExtend 32 * a.signExtend 32).extractLsb' 16 16 := by
  have hprod : b.signExtend 32 * a.signExtend 32 = BitVec.ofInt 32 (s16 b * s16 a) := by
    rw [BitVec.ofInt_mul, s16_eq_toInt, s16_eq_toInt, BitVec.signExtend, BitVec.signExtend]
  rw [hprod, extractLsb'_ofInt_high, mliResult]

/-! ### Unsigned division -/

theorem divResult_zero (b : Word) : divResult b 0 = ⟨0, 0⟩ := if_pos rfl

theorem divResult_value {a : Word} (ha : a ≠ 0) (b : Word) : (divResult b a).value = b / a := by
  rw [divResult, if_neg ha, ← Int.natCast_ediv, u16_natCast, ← BitVec.toNat_udiv, BitVec.ofNat_toNat,
    BitVec.setWidth_eq]

/-- The dividend shifted left by 16 fits in 32 bits, so that the quotient is exact (spec/92_eei_decisions.md D9). -/
theorem divResult_ex {a : Word} (ha : a ≠ 0) (b : Word) :
    (divResult b a).ex = ((b.setWidth 32 <<< 16) / a.setWidth 32).setWidth 16 := by
  have hb := b.isLt
  have hshift : (b.setWidth 32 <<< 16).toNat = b.toNat * 65536 := by
    rw [BitVec.toNat_shiftLeft, BitVec.toNat_setWidth, Nat.shiftLeft_eq]
    omega
  have hcast : n16 b * 65536 / n16 a = ((b.toNat * 65536 / a.toNat : Nat) : Int) := by push_cast; rfl
  rw [divResult, if_neg ha, hcast, u16_natCast, ← BitVec.ofNat_toNat, BitVec.toNat_udiv, hshift,
    BitVec.toNat_setWidth_of_le (by decide)]

theorem modValue_eq (b a : Word) : modValue b a = if a = 0 then 0 else b % a := by
  rw [modValue, ← Int.natCast_emod, u16_natCast, ← BitVec.toNat_umod, BitVec.ofNat_toNat, BitVec.setWidth_eq]

/-! ### Signed division -/

theorem dviResult_zero (r : Config.DviRound) (b : Word) : dviResult r b 0 = ⟨0, 0⟩ := if_pos rfl

theorem dviResult_value {a : Word} (ha : a ≠ 0) (r : Config.DviRound) (b : Word) :
    (dviResult r b a).value = BitVec.ofInt 16 (signedQuotient r b.toInt a.toInt) := by
  rw [dviResult, if_neg ha, s16_eq_toInt, s16_eq_toInt]
  rfl

theorem dviResult_ex {a : Word} (ha : a ≠ 0) (r : Config.DviRound) (b : Word) :
    (dviResult r b a).ex = BitVec.ofInt 16 (signedQuotient r (b.toInt * 65536) a.toInt) := by
  rw [dviResult, if_neg ha, s16_eq_toInt, s16_eq_toInt]
  rfl

/-- The quotient toward zero is `sdiv`, which wraps -32768 by -1 as the narrowing does
(spec/42_set_arithmetic.md R186). -/
theorem dviResult_towardZero_value {a : Word} (ha : a ≠ 0) (b : Word) :
    (dviResult .towardZero b a).value = b.sdiv a := by
  apply BitVec.eq_of_toInt_eq
  rw [dviResult_value ha, BitVec.toInt_ofInt, BitVec.toInt_sdiv, signedQuotient]

/-- The remainder that belongs to each rounding of the signed quotient (R188, R192). -/
def signedRemainder (r : Config.DviRound) (x y : Int) : Int :=
  match r with
  | .towardZero => x.tmod y
  | .towardMinusInf => x.fmod y

theorem sub_mul_signedQuotient (r : Config.DviRound) (x y : Int) :
    x - y * signedQuotient r x y = signedRemainder r x y := by
  cases r
  · exact (Int.tmod_def x y).symm
  · exact (Int.fmod_def x y).symm

theorem natAbs_fmod_lt (x : Int) {y : Int} (hy : y ≠ 0) : (x.fmod y).natAbs < y.natAbs := by
  have hpos (m n : Int) (hn : 0 < n) : (m.fmod n).natAbs < n.natAbs := by
    have hge := Int.fmod_nonneg_of_pos m hn
    have hlt := Int.fmod_lt_of_pos m hn
    omega
  rcases Int.lt_or_gt_of_ne hy with hneg | h
  · have hopp := hpos (-x) (-y) (Int.neg_pos_of_neg hneg)
    rwa [Int.neg_fmod_neg, Int.natAbs_neg, Int.natAbs_neg] at hopp
  · exact hpos x y h

theorem natAbs_signedRemainder_lt (r : Config.DviRound) (x : Int) {y : Int} (hy : y ≠ 0) :
    (signedRemainder r x y).natAbs < y.natAbs := by
  cases r with
  | towardZero =>
    rw [signedRemainder, Int.natAbs_tmod]
    exact Nat.mod_lt _ (Int.natAbs_pos.mpr hy)
  | towardMinusInf => exact natAbs_fmod_lt x hy

theorem mdiValue_zero (r : Config.DviRound) (b : Word) : mdiValue r b 0 = 0 := if_pos rfl

theorem mdiValue_of_ne_zero {a : Word} (ha : a ≠ 0) (r : Config.DviRound) (b : Word) :
    mdiValue r b a = u16 (signedRemainder r b.toInt a.toInt) := by
  rw [mdiValue, if_neg ha, sub_mul_signedQuotient, s16_eq_toInt, s16_eq_toInt]

theorem mdiValue_towardZero {a : Word} (ha : a ≠ 0) (b : Word) : mdiValue .towardZero b a = b.srem a := by
  rw [mdiValue_of_ne_zero ha, signedRemainder, ← BitVec.toInt_srem, u16, BitVec.ofInt_toInt]

theorem mdiValue_towardMinusInf {a : Word} (ha : a ≠ 0) (b : Word) : mdiValue .towardMinusInf b a = b.smod a := by
  rw [mdiValue_of_ne_zero ha, signedRemainder, ← BitVec.toInt_smod, u16, BitVec.ofInt_toInt]

theorem toInt_ne_zero {a : Word} (ha : a ≠ 0) : a.toInt ≠ 0 :=
  fun h => ha (BitVec.eq_of_toInt_eq h)

/-- The remainder is one of a word's signed values, so that narrowing keeps it. -/
theorem mdiValue_toInt {a : Word} (ha : a ≠ 0) (r : Config.DviRound) (b : Word) :
    (mdiValue r b a).toInt = signedRemainder r b.toInt a.toInt := by
  cases r
  · rw [mdiValue_towardZero ha, BitVec.toInt_srem, signedRemainder]
  · rw [mdiValue_towardMinusInf ha, BitVec.toInt_smod, signedRemainder]

/-! ### Adding and subtracting registers -/

/-- A result in a general register stands beside its EX value, whatever `EX_DEST_ORDER` (R191). -/
theorem storeResultAndEx_gen {e : BasicOperands} {q : GReg} (hb : e.bref = .reg (.gen q)) (r : AluResult) :
    ∃ t, storeResultAndEx e r = .next t ∧ t.regs = e.st.regs.set q r.value ∧ t.ex = r.ex := by
  refine ⟨_, storeResultAndEx_withResultAndEx e r, ?_⟩
  rw [Claims.withResultAndEx, hb, if_neg nofun]
  exact ⟨rfl, rfl⟩

theorem exec_add_gen (q r : GReg) (s : State) :
    ∃ t, exec (.add (.reg q) (.reg r)) s = .next t ∧
      t.regs = s.regs.set q (addResult (s.regs.get q) (s.regs.get r)).value ∧
      t.ex = (addResult (s.regs.get q) (s.regs.get r)).ex :=
  storeResultAndEx_gen rfl _

theorem exec_sub_gen (q r : GReg) (s : State) :
    ∃ t, exec (.sub (.reg q) (.reg r)) s = .next t ∧
      t.regs = s.regs.set q (subResult (s.regs.get q) (s.regs.get r)).value ∧
      t.ex = (subResult (s.regs.get q) (s.regs.get r)).ex :=
  storeResultAndEx_gen rfl _

/-- Writing a register's first value back undoes a write of it. -/
theorem Regs.set_set_get (g : Regs) (r : GReg) (v : Word) : (g.set r v).set r (g.get r) = g := by
  refine Regs.ext_get fun r' => ?_
  rw [Regs.get_set, Regs.get_set]
  split
  · next h => rw [h]
  · rfl

/-- A sum in 16 bits is below one of its terms exactly when it has carried. -/
theorem add_toNat_lt_iff_carry (x y : Word) : (x + y).toNat < y.toNat ↔ x.toNat + y.toNat > 0xFFFF := by
  have hx := x.isLt
  have hy := y.isLt
  rw [BitVec.toNat_add]
  omega

/-! ### The statements

They have a namespace of their own, because `addResult` and its like name the model's functions. -/

namespace SetArithmetic

/-- Settles O18: the number and the cost of SET stand in every table, and its meaning is the write. -/
theorem setStores : Obligations.SetStores := by
  intro b a s
  have hcost : baseCost s.params (.set b a) = 1 := baseCost_stated s.params rfl
  refine ⟨row_of_defaultCost rfl rfl, hcost, ?_⟩
  rw [← hcost]
  exact exec_set b a s

/-- Settles O19: the word of the sum, and its carry. -/
theorem addResult : Obligations.AddResult := fun _ _ _ =>
  ⟨row_of_defaultCost rfl rfl, storeResultAndEx_of_eq (addResult_value _ _) (addResult_ex _ _)⟩

/-- Settles O20: the word of the difference, and its borrow. -/
theorem subResult : Obligations.SubResult := fun _ _ _ =>
  ⟨row_of_defaultCost rfl rfl, storeResultAndEx_of_eq (subResult_value _ _) (subResult_ex _ _)⟩

/-- Settles O21: the word of the product, and the high half of the unsigned or the signed product of 32 bits. -/
theorem productResults : Obligations.ProductResults := fun _ _ _ =>
  ⟨row_of_defaultCost rfl rfl, row_of_defaultCost rfl rfl,
    storeResultAndEx_of_eq (mulResult_value _ _) (mulResult_ex _ _),
    storeResultAndEx_of_eq (mliResult_value _ _) (mliResult_ex _ _)⟩

/-- Settles O22: a zero divisor gives 0 and 0, any other the two quotients. -/
theorem divResult : Obligations.DivResult := by
  intro b a s
  refine ⟨row_of_defaultCost rfl rfl, ?_⟩
  intro e
  refine (storeResultAndEx_withResultAndEx e _).trans ?_
  split
  · next h => rw [h, divResult_zero]
  · next h => rw [divResult_value h, divResult_ex h]

/-- Settles O23: a zero divisor gives 0 and 0, any other the quotients of the machine's rounding. -/
theorem dviResult : Obligations.DviResult := by
  intro b a s
  refine ⟨row_of_defaultCost rfl rfl, ?_⟩
  intro e
  refine (storeResultAndEx_withResultAndEx e _).trans ?_
  rw [basicOperands_params]
  split
  · next h => rw [h, dviResult_zero]
  · next h =>
    cases s.params.dviRound with
    | towardZero => rw [dviResult_towardZero_value h, dviResult_ex h, signedQuotient]
    | towardMinusInf => rw [dviResult_value h, dviResult_ex h, signedQuotient, signedQuotient]

/-- Settles O24: the unsigned remainder, and the signed one that belongs to the machine's rounding. -/
theorem remainderResults : Obligations.RemainderResults := by
  intro b a s
  refine ⟨row_of_defaultCost rfl rfl, row_of_defaultCost rfl rfl, ?_, ?_⟩ <;> intro e
  · rw [← modValue_eq]
    exact storeResult_eq e _
  · refine (storeResult_eq e _).trans ?_
    rw [basicOperands_params]
    split
    · next h => rw [h, mdiValue_zero]
    · next h =>
      cases s.params.dviRound with
      | towardZero => rw [mdiValue_towardZero h]
      | towardMinusInf => rw [mdiValue_towardMinusInf h]

/-- Settles O25: the EX that is added is that of the state before, which handing over the operands keeps. -/
theorem carryResults : Obligations.CarryResults := by
  intro b a s
  have hex (cost : Nat) : (basicOperands cost b a s).st.ex = s.ex := basicOperands_ex cost b a s
  refine ⟨row_of_defaultCost rfl rfl, row_of_defaultCost rfl rfl, ?_, ?_⟩ <;> intro e <;>
    rw [← hex (baseCost s.params _)]
  · exact storeResultAndEx_of_eq (adxResult_value _ _ _) (adxResult_ex _ _ _)
  · exact storeResultAndEx_of_eq (sbxResult_value _ _ _) (sbxResult_ex _ _ _)

/-- Settles O26: the law holds of the exact integers, and narrowing keeps sums and products. -/
theorem signedDivisionLaw : Obligations.SignedDivisionLaw := by
  intro rounding b a ha
  constructor
  · let q := signedQuotient rounding (s16 b) (s16 a)
    calc a * (Machine.dviResult rounding b a).value + mdiValue rounding b a
        = a * u16 q + u16 (s16 b - s16 a * q) := by rw [Machine.dviResult, mdiValue, if_neg ha, if_neg ha]
      _ = u16 (s16 a * q + (s16 b - s16 a * q)) := by rw [u16_add, u16_mul, u16_s16]
      _ = b := by rw [add_sub_cancel, u16_s16]
  · rw [mdiValue_toInt ha]
    exact natAbs_signedRemainder_lt rounding b.toInt (toInt_ne_zero ha)

/-- Settles O27: SUB reads the sum that ADD left, so that it writes the first value back and borrows as ADD carried. -/
theorem subUndoesAdd : Obligations.SubUndoesAdd := by
  intro q r s hne
  obtain ⟨t, ht, htregs, htex⟩ := exec_add_gen q r s
  obtain ⟨u, hu, huregs, huex⟩ := exec_sub_gen q r t
  have hq : t.regs.get q = s.regs.get q + s.regs.get r := by rw [htregs, Regs.get_set_same, addResult_value]
  have hr : t.regs.get r = s.regs.get r := by rw [htregs, Regs.get_set_other _ _ hne]
  refine ⟨t, u, ht, hu, ?_, ?_⟩
  · rw [huregs, subResult_value, hq, hr, BitVec.add_sub_cancel, htregs, Regs.set_set_get]
  · rw [huex, htex, subResult_ex, addResult_ex, hq, hr]
    simp only [add_toNat_lt_iff_carry]
    split <;> decide

end SetArithmetic

end Sys2Proof.Machine

/-! PROOFS. The statements about the bitwise and the shift instructions: the words that the shifted integers of the model
narrow to, the word itself and the 16 bits beyond it that EX takes. -/

namespace Sys2Proof.Machine

/-! ### The bitwise instructions -/

/-- Settles O28: the word of the operation is all that is stored, and EX takes nothing beside it. -/
theorem bitwiseResults : Obligations.BitwiseResults := fun _ _ _ =>
  ⟨row_of_defaultCost rfl rfl, row_of_defaultCost rfl rfl, row_of_defaultCost rfl rfl,
    storeResult_eq _ (andValue _ _), storeResult_eq _ (borValue _ _), storeResult_eq _ (xorValue _ _)⟩

/-! ### Shift counts and 32-bit words (spec/43_bitwise_shift.md R216) -/

theorem claims_count_eq (e : BasicOperands) : Claims.count e = shiftCount e.st.params.shiftAmount e.aval := rfl

/-- A word above 16 zero bits fits in 32 bits. -/
theorem toNat_setWidth_shiftLeft (b : Word) : (b.setWidth 32 <<< 16).toNat = b.toNat * 65536 := by
  have hb := b.isLt
  rw [BitVec.toNat_shiftLeft, BitVec.toNat_setWidth, Nat.shiftLeft_eq]
  omega

/-- A signed word above 16 zero bits keeps its sign in 32 bits. -/
theorem toInt_signExtend_shiftLeft (b : Word) : (b.signExtend 32 <<< 16).toInt = b.toInt * 65536 := by
  have hlow := BitVec.le_toInt b
  have hhigh := BitVec.toInt_lt (x := b)
  have hprod : b.signExtend 32 <<< 16 = BitVec.ofInt 32 (b.toInt * 65536) := by
    rw [BitVec.shiftLeft_eq_mul_twoPow, BitVec.signExtend, BitVec.ofInt_mul]
    rfl
  rw [hprod, BitVec.toInt_ofInt]
  exact Int.bmod_eq_of_le (by omega) (by omega)

/-- The low half of a 32-bit number is the word that its signed reading narrows to. -/
theorem setWidth_eq_u16_toInt (x : BitVec 32) : x.setWidth 16 = u16 x.toInt :=
  (BitVec.signExtend_eq_setWidth_of_le x (by decide)).symm

/-! ### The shifts -/

theorem shrResult_value (b : Word) (n : Nat) : (shrResult b n).value = b >>> n := by
  rw [shrResult, ← BitVec.toNat_ushiftRight, BitVec.ofNat_toNat, BitVec.setWidth_eq]

/-- Of the word above 16 zero bits, a right shift leaves in the low half what it has moved out of the high half. -/
theorem shrResult_ex (b : Word) (n : Nat) :
    (shrResult b n).ex = ((b.setWidth 32 <<< 16) >>> n).setWidth 16 := by
  rw [← BitVec.ofNat_toNat, BitVec.toNat_ushiftRight, toNat_setWidth_shiftLeft, shrResult]

theorem asrResult_value (b : Word) (n : Nat) : (asrResult b n).value = b.sshiftRight n := by
  rw [asrResult, s16_eq_toInt, ← BitVec.toInt_sshiftRight, u16, BitVec.ofInt_toInt]

theorem asrResult_ex (b : Word) (n : Nat) :
    (asrResult b n).ex = ((b.signExtend 32 <<< 16).sshiftRight n).setWidth 16 := by
  rw [setWidth_eq_u16_toInt, BitVec.toInt_sshiftRight, toInt_signExtend_shiftLeft, ← s16_eq_toInt, asrResult]

theorem shlResult_value (b : Word) (n : Nat) : (shlResult b n).value = b <<< n := by
  apply BitVec.eq_of_toNat_eq
  rw [shlResult, BitVec.toNat_ofNat, BitVec.toNat_shiftLeft]

/-- The bits that a 32-bit word drops at the top lie above the 16 bits of EX. -/
theorem shlResult_ex (b : Word) (n : Nat) :
    (shlResult b n).ex = ((b.setWidth 32 <<< n) >>> 16).setWidth 16 := by
  apply BitVec.eq_of_toNat_eq
  rw [shlResult, BitVec.toNat_ofNat, BitVec.toNat_setWidth, BitVec.toNat_ushiftRight, BitVec.toNat_shiftLeft,
    BitVec.toNat_setWidth_of_le (by decide), Nat.shiftRight_eq_div_pow, Nat.shiftRight_eq_div_pow]
  omega

/-- Settles O29: for every count, each shift of integers narrows to the shifted word and to the bits beyond it. -/
theorem shiftResults : Obligations.ShiftResults := by
  intro b a s
  refine ⟨row_of_defaultCost rfl rfl, row_of_defaultCost rfl rfl, row_of_defaultCost rfl rfl, ?_, ?_, ?_⟩ <;>
    intro e <;> simp only [claims_count_eq]
  · exact storeResultAndEx_of_eq (shrResult_value _ _) (shrResult_ex _ _)
  · exact storeResultAndEx_of_eq (asrResult_value _ _) (asrResult_ex _ _)
  · exact storeResultAndEx_of_eq (shlResult_value _ _) (shlResult_ex _ _)

end Sys2Proof.Machine

/-! PROOFS. The statements about the conditionals: their rows and predicates, the words that chain, and the skip as a
passing over of instructions, one at a time. -/

namespace Sys2Proof.Machine

/-! ### The eight conditionals (spec/44_conditionals.md R230, R232 to R239) -/

section Predicates

variable (b a : Word)

theorem ifbHolds_eq : ifbHolds b a = (b &&& a != 0) := by
  rw [ifbHolds, bne, beq_eq_decide, decide_not]

theorem ifcHolds_eq : ifcHolds b a = (b &&& a == 0) := (beq_eq_decide ..).symm

theorem ifeHolds_eq : ifeHolds b a = (b == a) := (beq_eq_decide ..).symm

theorem ifnHolds_eq : ifnHolds b a = (b != a) := by
  rw [ifnHolds, bne, beq_eq_decide, decide_not]

theorem ifgHolds_eq_ult : ifgHolds b a = a.ult b := rfl

theorem iflHolds_eq_ult : iflHolds b a = b.ult a := rfl

/-- The order of the signed readings is the signed order of words (decision D10). -/
theorem ifaHolds_eq_slt : ifaHolds b a = a.slt b := by
  rw [ifaHolds, s16_eq_toInt, s16_eq_toInt]
  rfl

theorem ifuHolds_eq_slt : ifuHolds b a = b.slt a := by
  rw [ifuHolds, s16_eq_toInt, s16_eq_toInt]
  rfl

end Predicates

section Conditionals

variable {p : Claims.Conditional} (hp : p ∈ Claims.conditionals)

include hp

theorem conditional_row (b a : Operand) : Claims.row (p.instr b a) (.basic p.opcode b a) 2 := by
  fin_cases hp <;> exact row_of_defaultCost rfl rfl

/-- A conditional is the test of its predicate on its two values, and the skip when that fails (R230). -/
theorem exec_conditional (b a : Operand) (s : State) :
    let e := basicOperands (baseCost s.params (p.instr b a)) b a s
    exec (p.instr b a) s = testOrSkip (p.holds e.bval e.aval) e.st := by
  simp only [Claims.conditionals, List.mem_cons, List.not_mem_nil, or_false] at hp
  rcases hp with rfl | rfl | rfl | rfl | rfl | rfl | rfl | rfl <;> intro e
  · exact congrArg (testOrSkip · e.st) (ifbHolds_eq _ _)
  · exact congrArg (testOrSkip · e.st) (ifcHolds_eq _ _)
  · exact congrArg (testOrSkip · e.st) (ifeHolds_eq _ _)
  · exact congrArg (testOrSkip · e.st) (ifnHolds_eq _ _)
  · exact congrArg (testOrSkip · e.st) (ifgHolds_eq_ult _ _)
  · exact congrArg (testOrSkip · e.st) (ifaHolds_eq_slt _ _)
  · exact congrArg (testOrSkip · e.st) (iflHolds_eq_ult _ _)
  · exact congrArg (testOrSkip · e.st) (ifuHolds_eq_slt _ _)

end Conditionals

/-- Settles O30: a test that holds leaves the state of the operands. -/
theorem conditionalHolds : Obligations.ConditionalHolds := by
  intro p hp b a s
  refine ⟨conditional_row hp b a, fun hholds => ?_⟩
  rw [exec_conditional hp, hholds, testOrSkip_true]

/-! ### The frame -/

/-- A test answers a next state, in which nothing but PC, the cycle counter, the count of callbacks and whether a skip
is in progress differs (R230, R231). -/
theorem testOrSkip_frame (holds : Bool) (s : State) :
    ∃ t, testOrSkip holds s = .next t ∧ s.cycle ≤ t.cycle ∧
      t = { s with pc := t.pc, cycle := t.cycle, envTick := t.envTick, skipping := t.skipping } := by
  cases holds with
  | true => exact ⟨s, testOrSkip_true s, Nat.le_refl _, rfl⟩
  | false => exact ⟨skip s, testOrSkip_false s, Nat.le_of_succ_le (skip_cycle s), skip_state s⟩

/-- Settles O49: what the operands leave, and then what a test leaves. -/
theorem frameOfConditionals : Obligations.FrameOfConditionals := by
  intro p hp b a s
  rw [exec_conditional hp]
  obtain ⟨t, ht, hcycle, hframe⟩ := testOrSkip_frame _ _
  rw [basicOperands_cycle] at hcycle
  refine ⟨t, ht, ?_⟩
  rw [hframe, basicOperands_state]
  exact ⟨rfl, rfl, rfl, rfl, ⟨rfl, rfl, rfl, rfl, rfl, rfl, rfl, rfl, rfl, rfl, rfl⟩, hcycle⟩

/-! ### Words that chain (R231) -/

theorem opcode_mem_conditionals (o : BitVec 5) :
    (∃ p ∈ Claims.conditionals, p.opcode = o) ↔ 0x10 ≤ o.toNat ∧ o.toNat ≤ 0x17 := by
  revert o
  decide

theorem conditional_opcode_ne_zero : ∀ p ∈ Claims.conditionals, p.opcode ≠ 0 := by decide

theorem isConditionalWord_iff (w : Word) :
    isConditionalWord w = true ↔ ∃ p ∈ Claims.conditionals, p.opcode = fieldO w := by
  rw [opcode_mem_conditionals, isConditionalWord, Bool.and_eq_true, decide_eq_true_iff, decide_eq_true_iff]

/-- The instruction of a conditional's opcode is that conditional (spec/30_encoding.md R100). -/
theorem conditional_iff_shape {i : Instr} :
    (∃ p ∈ Claims.conditionals, ∃ b a, i = p.instr b a) ↔
      ∃ p ∈ Claims.conditionals, ∃ b a, i.shape = .basic p.opcode b a := by
  refine exists_congr fun p => and_congr_right fun hp => exists₂_congr fun b a => ⟨?_, fun hs => ?_⟩
  · rintro rfl
    exact (conditional_row hp b a).1
  · obtain ⟨-, hi, -⟩ := instr_of_shape_basic hs
    obtain ⟨-, hc, -⟩ := instr_of_shape_basic (conditional_row hp b a).1
    exact Option.some.inj (hi.symm.trans hc)

/-- A word is a conditional's in the default table exactly when it decodes to one. -/
theorem isConditionalWord_of_decode {w : Word} {ws rest : List Word} {i : Instr}
    (h : decode (w :: ws) = .ok (i, rest)) :
    isConditionalWord w = true ↔ ∃ p ∈ Claims.conditionals, ∃ b a, i = p.instr b a := by
  rw [isConditionalWord_iff, conditional_iff_shape]
  obtain ⟨na, wsa, -, ⟨ho, rfl, -⟩ | ⟨-, nb, -, hi⟩⟩ := decode_eq_ok h
  · simpa [ho, (shape_of_specialInstr _ _).1] using conditional_opcode_ne_zero
  · simp [(shape_of_basicInstr hi).1, eq_comm]

theorem isConditionalFor_default (w : Word) :
    isConditionalFor Config.defaultOpMap w = true ↔ 0x10 ≤ w.toNat % 32 ∧ w.toNat % 32 ≤ 0x17 := by
  rw [isConditionalFor, toTable_default, isConditionalWord_iff, opcode_mem_conditionals, fieldO_toNat]

/-! ### The skip is a passing over of instructions (R231, R240) -/

theorem passed_succ (k : Nat) (s : State) : Claims.passed (k + 1) s = Claims.passed 1 (Claims.passed k s) := by
  induction k generalizing s with
  | zero => rfl
  | succ k ih => exact ih _

/-- One turn of the skip's loop, the cycle counter standing at `c`: a conditional is passed for a cycle and another
turn. -/
theorem skipLoop_of_atConditional {s : State} (h : Claims.atConditional s) (n c : Nat) :
    skipLoop (n + 1) (s.withCycle c) = skipLoop n ((Claims.passed 1 s).withCycle (c + 1)) := by
  rw [skipLoop_succ, fetchWord_withCycle]
  exact if_pos h

/-- The last turn passes an instruction that is no conditional, for no cycle. -/
theorem skipLoop_of_not_atConditional {s : State} (h : ¬ Claims.atConditional s) (n c : Nat) :
    skipLoop (n + 1) (s.withCycle c) = { Claims.passed 1 s with cycle := c, skipping := false } := by
  rw [skipLoop_succ, fetchWord_withCycle]
  exact if_neg h

section Chain

variable {s : State} {k : Nat} (hchain : ∀ j < k, Claims.atConditional (Claims.passed j s))

include hchain

/-- A chain of conditionals is passed over at one cycle each (spec/70_reset_and_hazards.md R369). -/
theorem skipLoop_chain (n c : Nat) :
    skipLoop (n + k) (s.withCycle c) = skipLoop n ((Claims.passed k s).withCycle (c + k)) := by
  induction k generalizing n with
  | zero => rfl
  | succ k ih =>
    have hk : Claims.atConditional (Claims.passed k s) := hchain k (Nat.lt_succ_self k)
    have hbefore := ih (fun j hj => hchain j (Nat.lt_succ_of_lt hj)) (n + 1)
    rw [Nat.add_right_comm] at hbefore
    rw [passed_succ]
    exact hbefore.trans (skipLoop_of_atConditional hk n (c + k))

/-- The loop ends after the first instruction that is no conditional. -/
theorem skipLoop_ends {n : Nat} (hn : k < n) (hend : ¬ Claims.atConditional (Claims.passed k s)) (c : Nat) :
    skipLoop n (s.withCycle c) = { Claims.passed (k + 1) s with cycle := c + k, skipping := false } := by
  obtain ⟨m, rfl⟩ : ∃ m, n = m + 1 + k := ⟨n - k - 1, by omega⟩
  rw [passed_succ, skipLoop_chain hchain]
  exact skipLoop_of_not_atConditional hend m (c + k)

/-- The loop is left in progress when all its turns have met conditionals (log 17). -/
theorem skipLoop_in_progress (c : Nat) :
    skipLoop k (s.withCycle c) = { Claims.passed k s with cycle := c + k, skipping := true } := by
  have h := skipLoop_chain hchain 0 c
  rwa [Nat.zero_add] at h

end Chain

/-- A skip in progress goes on, and nothing else happens in its step (spec/41_step_cycle.md R169, log 17). -/
theorem step_of_skipping {s : State} (hrun : s.run = .running) (hskip : s.skipping = true) :
    step s = .next (goOnSkipping s) := by
  rw [step, hskip, hrun]
  rfl

/-! ### Instructions passed over in raw memory (spec/20_memory.md R64) -/

theorem fetchRead_of_unhooked {s : State} (h : s.readHooks = [] ∨ s.params.fetchViaHooks = false) (addr : Word) :
    fetchRead addr s = (s.mem.read addr, s) :=
  h.elim (fetchRead_noHooks · addr) (fetchRead_raw · addr)

theorem passed_of_unhooked {s : State} (h : s.readHooks = [] ∨ s.params.fetchViaHooks = false) (k : Nat) :
    Claims.passed k s = { s with pc := Claims.pcPast s.mem k s.pc } := by
  induction k generalizing s with
  | zero => rfl
  | succ k ih =>
    rw [Claims.passed, fetchRead_of_unhooked h]
    exact ih h

/-- Settles O31: a failing test and a step that finds a skip in progress run the same loop, the first with the cycle of
the test added. -/
theorem conditionalSkips : Obligations.ConditionalSkips := by
  refine ⟨fun m w ws rest i h => isConditionalWord_of_decode h, isConditionalFor_default,
    fun s k => ⟨fun p hp b a => ?_, fun hrun hskip => ?_, fun h => ⟨passed_of_unhooked h k, ?_⟩⟩⟩
  · intro e hfails
    rw [exec_conditional hp, hfails, testOrSkip_false]
    exact ⟨fun hk hchain hend => congrArg _ (skipLoop_ends hchain hk hend _),
      fun hchain => congrArg _ (skipLoop_in_progress hchain _)⟩
  · rw [step_of_skipping hrun hskip]
    exact ⟨fun hk hchain hend => congrArg _ (skipLoop_ends hchain hk hend s.cycle),
      fun hchain => congrArg _ (skipLoop_in_progress hchain s.cycle)⟩
  · rw [Claims.atConditional, fetchRead_of_unhooked h]

end Sys2Proof.Machine

/-! PROOFS. The statements about store-and-step, call and halt: what each leaves, that a return undoes a call, and the
frames of the instructions that store and step or that store to the stack. -/

namespace Sys2Proof.Machine

/-! ### Store-and-step (spec/45_move_control.md R250, R251) -/

section StoreAndStep

variable (b a : Operand) (s : State)

theorem exec_sti :
    let e := basicOperands (baseCost s.params (.sti b a)) b a s
    exec (.sti b a) s = .next (stepIJ 1 (setRef e.bref e.aval e.st)) := rfl

theorem exec_std :
    let e := basicOperands (baseCost s.params (.std b a)) b a s
    exec (.std b a) s = .next (stepIJ (-1) (setRef e.bref e.aval e.st)) := rfl

end StoreAndStep

/-- Stepping I and J is a write of each register. -/
theorem stepIJ_eq_set (d : Word) (s : State) :
    stepIJ d s = { s with regs := (s.regs.set .i (s.regs.get .i + d)).set .j (s.regs.get .j + d) } := rfl

/-- Settles O32: the step by the word -1 is the subtraction of 1. -/
theorem storeAndStep : Obligations.StoreAndStep := by
  intro b a s
  refine ⟨row_of_defaultCost rfl rfl, row_of_defaultCost rfl rfl, exec_sti b a s, ?_⟩
  intro e u
  rw [exec_std, stepIJ_eq_set, ← BitVec.sub_eq_add_neg, ← BitVec.sub_eq_add_neg]

/-- STI and STD store the value of `a`, and step I and J by some word after that. -/
theorem exec_storeAndStep {b a : Operand} {i : Instr} (hi : i ∈ [Instr.sti b a, .std b a]) (s : State) :
    let e := basicOperands (baseCost s.params i) b a s
    ∃ d, exec i s = .next (stepIJ d (setRef e.bref e.aval e.st)) := by
  rcases List.mem_pair.mp hi with rfl | rfl
  · exact ⟨1, exec_sti b a s⟩
  · exact ⟨-1, exec_std b a s⟩

/-- Settles O48: the store is that of a result, and the step after it writes I and J alone. -/
theorem frameOfStoreAndStep : Obligations.FrameOfStoreAndStep := by
  intro b a s t h i hi ht d
  obtain ⟨w, hw⟩ := exec_storeAndStep hi s
  cases ht.symm.trans hw
  let e := basicOperands (baseCost s.params i) b a s
  let u := setRef d e.aval e.st
  obtain ⟨hregs, hsp, hpc, hmem⟩ := result_onlyDestination (baseCost s.params i) b a e.aval u.ex s h.memWf
  have hex (hd : d ≠ .reg .ex) : u.ex = s.ex :=
    (setRef_getReg_other hd e.aval e.st).trans (basicOperands_ex _ b a s)
  exact ⟨fun r hri hrj hd => (stepIJ_get_other w u hri hrj).trans (hregs r hd), hsp, hpc, hex, hmem,
    result_sameControl _ b a e.aval u.ex s, by simp [stepIJ]⟩

/-! ### Call and return (R252, R256) -/

/-- With no write hooks, the word pushed is at the new top of the stack. -/
theorem push_read_same {s : State} (hm : s.mem.wf = true) (hw : s.writeHooks = []) (v : Word) :
    (push v s).mem.read (push v s).sp = v := by
  rw [push_noHooks hw]
  exact Memory.read_write_same hm (s.sp - 1) v

theorem exec_jsr (a : Operand) (s : State) :
    let e := specialOperand (baseCost s.params (.jsr a)) a s
    exec (.jsr a) s = .next { push e.st.pc e.st with pc := e.aval } := rfl

/-- Settles O33: the meaning of JSR, with the push written out. -/
theorem jsrCalls : Obligations.JsrCalls := fun a s => ⟨row_of_defaultCost rfl rfl, exec_jsr a s⟩

/-- `SET PC, POP` goes to the word at the top of the stack and takes it off. -/
theorem exec_set_pc_pop {s : State} (h : s.readHooks = []) :
    exec (.set .pc .pop) s =
      .next { s with pc := s.mem.read s.sp, sp := s.sp + 1,
                     cycle := s.cycle + baseCost s.params (.set .pc .pop) } := by
  rw [exec_set, basicOperands_noHooks h]
  rfl

/-- Settles O34: the word that the return takes off the stack is the one that the call has pushed. -/
theorem returnAfterCall : Obligations.ReturnAfterCall := by
  intro a s hinv hh
  obtain ⟨hread, hwrite⟩ := hh
  let e := specialOperand (baseCost s.params (.jsr a)) a s
  let t : State := { push e.st.pc e.st with pc := e.aval }
  have ht : t.readHooks = [] := by simp [t, e, hread]
  have htop : t.mem.read t.sp = e.st.pc :=
    push_read_same (specialOperand_inv hinv _ a).memWf ((specialOperand_writeHooks _ a s).trans hwrite) _
  have hsp : t.sp + 1 = e.st.sp := by simp [t]
  refine ⟨t, _, exec_jsr a s, exec_set_pc_pop ht, ?_, ?_, ?_, ?_⟩
  · exact htop.trans (specialOperand_pc _ a s)
  · exact hsp.trans (specialOperand_sp _ a s)
  · exact (push_regs _ e.st).trans (specialOperand_regs _ a s)
  · exact (push_ex _ e.st).trans (specialOperand_ex _ a s)

/-! ### Halts (R253 to R255) -/

/-- Settles O35: both meanings write the run state, and the cost of special opcode 0 stands in every table. -/
theorem haltsStop : Obligations.HaltsStop := by
  intro a s
  have hcost : baseCost s.params (.halt0 a) = 0 := baseCost_stated s.params rfl
  refine ⟨row_of_defaultCost rfl rfl, row_of_defaultCost rfl rfl, hcost, rfl, ?_⟩
  rw [← hcost]
  rfl

/-- Of what resolving and reading an operand changes, only the count of callbacks outlives a reset. -/
theorem clear_specialOperand (cost : Nat) (a : Operand) (s : State) :
    (specialOperand cost a s).st.clear = { s.clear with envTick := (specialOperand cost a s).st.envTick } := by
  rw [specialOperand_state]
  rfl

theorem exec_hcf (a : Operand) (s : State) :
    let e := specialOperand (baseCost s.params (.hcf a)) a s
    exec (.hcf a) s = .next { e.st.clear with run := .stopped, endEvents := e.st.endEvents + 1 } := rfl

/-- Settles O36: HCF clears the state that its operand leaves, and `clear()` keeps what the statement lists. -/
theorem hcfResets : Obligations.HcfResets := by
  intro a s
  refine ⟨row_of_defaultCost rfl rfl, ?_⟩
  rw [exec_hcf, clear_specialOperand, specialOperand_endEvents]
  rfl

/-! ### Writers of the stack (spec/60_exceptions.md R314) -/

/-- Interrupt entry writes A, PC, SP, the stack and the queueing flag. -/
theorem trigger_state (msg : Word) (s : State) :
    trigger msg s =
      { s with regs := (trigger msg s).regs, pc := (trigger msg s).pc, sp := (trigger msg s).sp,
               queueing := (trigger msg s).queueing, mem := (trigger msg s).mem,
               envTick := (trigger msg s).envTick } := by
  ext : 1 <;> simp

theorem trigger_get_other (msg : Word) (s : State) {r : GReg} (hr : r ≠ .a) :
    (trigger msg s).regs.get r = s.regs.get r := by
  by_cases hia : s.ia = 0
  · rw [trigger_noHandler hia]
  · rw [trigger_handler hia]
    exact Regs.get_set_other _ msg hr.symm

/-- Interrupt entry stores to the two words below SP and to no other. -/
theorem trigger_read_other (msg : Word) {s : State} (h : s.mem.wf = true) {addr : Word} (h1 : addr ≠ s.sp - 1)
    (h2 : addr ≠ s.sp - 2) : (trigger msg s).mem.read addr = s.mem.read addr := by
  by_cases hia : s.ia = 0
  · rw [trigger_noHandler hia]
  · rw [trigger_handler hia]
    have hbelow : addr ≠ (push s.pc s).sp - 1 := by
      rw [push_sp]
      bv_omega
    exact (push_read_other (push_mem_wf h s.pc) s.regs.a hbelow).trans (push_read_other h s.pc h1)

section Interrupt

variable {msg : Word} {s t : State} (ht : interrupt msg s = .next t)

include ht

/-- Whether it enters or queues, `Interrupt(msg)` writes no more than an entry and the queue. -/
theorem interrupt_state :
    t = { s with regs := t.regs, pc := t.pc, sp := t.sp, queueing := t.queueing, iq := t.iq, mem := t.mem,
                 envTick := t.envTick } := by
  rcases interrupt_eq_next.mp ht with ⟨-, -, rfl⟩ | ⟨-, rfl⟩
  · rfl
  · rw [trigger_iq]
    exact trigger_state msg s

theorem interrupt_get_other {r : GReg} (hr : r ≠ .a) : t.regs.get r = s.regs.get r := by
  rcases interrupt_eq_next.mp ht with ⟨-, -, rfl⟩ | ⟨-, rfl⟩
  · rfl
  · exact trigger_get_other msg s hr

theorem interrupt_read_other (h : s.mem.wf = true) {addr : Word} (h1 : addr ≠ s.sp - 1) (h2 : addr ≠ s.sp - 2) :
    t.mem.read addr = s.mem.read addr := by
  rcases interrupt_eq_next.mp ht with ⟨-, -, rfl⟩ | ⟨-, rfl⟩
  · rfl
  · exact trigger_read_other msg h h1 h2

/-- A message that is queued, or dropped for want of a handler, touches neither the stack nor the registers. -/
theorem interrupt_queued_or_dropped (hq : s.queueing = true ∨ s.ia = 0) :
    t.mem = s.mem ∧ t.regs = s.regs ∧ t.sp = s.sp := by
  rcases interrupt_eq_next.mp ht with ⟨-, -, rfl⟩ | ⟨hdel, rfl⟩
  · exact ⟨rfl, rfl, rfl⟩
  · have hia : s.ia = 0 := hq.resolve_left (by simp [hdel])
    rw [trigger_noHandler hia]
    exact ⟨rfl, rfl, rfl⟩

end Interrupt

section StackWriters

variable {a : Operand} {i : Instr} {s t : State}

/-- What JSR and INT may write; all else is as before, but for the cycle counter. -/
theorem exec_stackWriter_state (hi : i ∈ [Instr.jsr a, .int a]) (ht : exec i s = .next t) :
    t = { s with regs := t.regs, pc := t.pc, sp := t.sp, queueing := t.queueing, iq := t.iq,
                 cycle := s.cycle + baseCost s.params i, mem := t.mem, envTick := t.envTick } := by
  rcases List.mem_pair.mp hi with rfl | rfl
  · cases ht
    ext : 1 <;> simp
  · have hst := interrupt_state ht
    rw [specialOperand_state] at hst
    exact hst

/-- JSR stores to the word below SP, INT to that and the next one below, both from where the operand leaves SP. -/
theorem exec_stackWriter_read_other (hi : i ∈ [Instr.jsr a, .int a]) (ht : exec i s = .next t)
    (h : s.mem.wf = true) {addr : Word} (h1 : addr ≠ (specialOperand (baseCost s.params i) a s).st.sp - 1)
    (h2 : i = .int a → addr ≠ (specialOperand (baseCost s.params i) a s).st.sp - 2) :
    t.mem.read addr = s.mem.read addr := by
  rw [← specialOperand_mem (baseCost s.params i) a s] at h ⊢
  rcases List.mem_pair.mp hi with rfl | rfl
  · cases ht
    exact push_read_other h _ h1
  · exact interrupt_read_other ht h h1 (h2 rfl)

theorem exec_stackWriter_get_other (hi : i ∈ [Instr.jsr a, .int a]) (ht : exec i s = .next t) {r : GReg}
    (hr : i = .int a → r ≠ .a) : t.regs.get r = s.regs.get r := by
  rw [← specialOperand_regs (baseCost s.params i) a s]
  rcases List.mem_pair.mp hi with rfl | rfl
  · cases ht
    exact congrArg (·.get r) (push_regs _ _)
  · exact interrupt_get_other ht (hr rfl)

theorem exec_int_queued_or_dropped (ht : exec (.int a) s = .next t) (hq : s.queueing = true ∨ s.ia = 0) :
    t.mem = s.mem ∧ t.regs = s.regs ∧ t.sp = (specialOperand (baseCost s.params (.int a)) a s).st.sp := by
  obtain ⟨hmem, hregs, hsp⟩ := interrupt_queued_or_dropped ht (by simpa using hq)
  exact ⟨hmem.trans (specialOperand_mem _ a s), hregs.trans (specialOperand_regs _ a s), hsp⟩

theorem exec_jsr_queue (ht : exec (.jsr a) s = .next t) : t.queueing = s.queueing ∧ t.iq = s.iq := by
  cases ht
  simp

end StackWriters

/-- Settles O52: the words and registers that may change, case by case; every other field stands in the state that
`exec_stackWriter_state` writes out. -/
theorem frameOfStackWriters : Obligations.FrameOfStackWriters := by
  intro a s t h i hi ht sp
  have hfixed : t.ex = s.ex ∧ t.ia = s.ia ∧ t.run = s.run ∧ t.devices = s.devices ∧ t.readHooks = s.readHooks ∧
      t.writeHooks = s.writeHooks ∧ t.params = s.params ∧ t.agenda = s.agenda ∧ t.endEvents = s.endEvents ∧
      t.skipping = s.skipping ∧ t.cycle = s.cycle + baseCost s.params i := by
    rw [exec_stackWriter_state hi ht]
    exact ⟨rfl, rfl, rfl, rfl, rfl, rfl, rfl, rfl, rfl, rfl, rfl⟩
  obtain ⟨hex, hia, hrun, hdevices, hread, hwrite, hparams, hagenda, hend, hskip, hcycle⟩ := hfixed
  refine ⟨fun addr => exec_stackWriter_read_other hi ht h.memWf, ?_, fun r => exec_stackWriter_get_other hi ht,
    hex, hia, hrun, hdevices, hread, hwrite, hparams, hagenda, hend, hskip, hcycle, ?_⟩
  · rintro rfl
    exact exec_int_queued_or_dropped ht
  · rintro rfl
    exact exec_jsr_queue ht

end Sys2Proof.Machine

/-! PROOFS. The statements about the interrupt instructions: INT in its three cases, the access to IA, the return and the
queueing flag; and the frames of the special instructions that store nothing and of those whose operand is the
destination. -/

namespace Sys2Proof.Machine

/-! ### What each instruction runs (spec/46_interrupt_instructions.md, spec/47_hardware_instructions.md) -/

section Meanings

variable (a : Operand) (s : State)

theorem exec_int :
    let e := specialOperand (baseCost s.params (.int a)) a s
    exec (.int a) s = interrupt e.aval e.st := rfl

theorem exec_iag :
    let e := specialOperand (baseCost s.params (.iag a)) a s
    exec (.iag a) s = .next (setRef e.aref e.st.ia e.st) := rfl

theorem exec_ias :
    let e := specialOperand (baseCost s.params (.ias a)) a s
    exec (.ias a) s = .next { e.st with ia := e.aval } := rfl

theorem exec_iaq :
    let e := specialOperand (baseCost s.params (.iaq a)) a s
    exec (.iaq a) s = .next { e.st with queueing := e.aval != 0 } := rfl

theorem exec_rfi :
    let e := specialOperand (baseCost s.params (.rfi a)) a s
    exec (.rfi a) s = .next (returnFromInterrupt e.st) := rfl

theorem exec_hwn :
    let e := specialOperand (baseCost s.params (.hwn a)) a s
    exec (.hwn a) s = .next (setRef e.aref (BitVec.ofNat 16 e.st.devices.length) e.st) := rfl

end Meanings

/-! ### INT (spec/46_interrupt_instructions.md R270) -/

/-- A controller that delivers enters the handler or drops the message (spec/60_exceptions.md R313). -/
theorem interrupt_delivering {s : State} (h : s.queueing = false) (msg : Word) :
    interrupt msg s = .next (trigger msg s) :=
  interrupt_eq_next.mpr (.inr ⟨h, rfl⟩)

/-- A controller that queues appends the message while there is room, whatever IA holds (R313, D15). -/
theorem interrupt_queueing {s : State} (h : s.queueing = true) (hroom : s.iq.length < Config.iqMax) (msg : Word) :
    interrupt msg s = .next { s with iq := s.iq ++ [msg] } :=
  interrupt_eq_next.mpr (.inl ⟨h, hroom, rfl⟩)

/-- Two pushes store to the two words below SP, and leave SP at the second. -/
theorem push_push (w v : Word) (s : State) :
    push w (push v s) =
      memWrite (s.sp - 2) w { memWrite (s.sp - 1) v { s with sp := s.sp - 1 } with sp := s.sp - 2 } := by
  have hsp : s.sp - 1 - 1 = s.sp - 2 := by bv_omega
  rw [push, push_sp, hsp, push]

/-- Settles O37: the controller is in the operand's state as it was before, so that state decides the case. -/
theorem intCompletes : Obligations.IntCompletes := by
  intro a s
  have hcost : baseCost s.params (.int a) = 4 := baseCost_stated s.params rfl
  refine ⟨row_of_defaultCost rfl rfl, hcost, ?_⟩
  intro e u v
  have hint : exec (.int a) s = interrupt e.aval e.st := by rw [exec_int, hcost]
  have hqueueing : e.st.queueing = s.queueing := specialOperand_queueing 4 a s
  have hia : e.st.ia = s.ia := specialOperand_ia 4 a s
  have hiq : e.st.iq = s.iq := specialOperand_iq 4 a s
  refine ⟨fun hq h0 => ?_, fun hq h0 => ?_, fun hq hroom => ?_⟩
  · rw [hint, interrupt_delivering (hqueueing.trans hq), trigger_noHandler (hia.trans h0)]
  · have hpushes : push e.st.regs.a (push e.st.pc e.st) = v := by
      rw [specialOperand_pc, specialOperand_regs, push_push]
    rw [hint, interrupt_delivering (hqueueing.trans hq), trigger_handler (hia.symm ▸ h0), hpushes, hia,
      specialOperand_regs]
  · rw [hint, interrupt_queueing (hqueueing.trans hq) (hiq.symm ▸ hroom), hiq]

/-! ### Access to IA and to the queueing flag (R271, R272, R274) -/

/-- Settles O39: resolving the operand leaves the IA that IAG reads. -/
theorem iagAndIas : Obligations.IagAndIas := by
  intro a s
  refine ⟨row_of_defaultCost rfl rfl, row_of_defaultCost rfl rfl, ?_, exec_ias a s⟩
  rw [exec_iag, specialOperand_ia]

/-- Settles O41: the meaning of IAQ. -/
theorem iaqSetsQueueing : Obligations.IaqSetsQueueing := fun a s => ⟨row_of_defaultCost rfl rfl, exec_iaq a s⟩

/-! ### RFI (R273) -/

/-- A return's two pops, as the two reads they make one after the other (spec/40_operand_resolution.md R149). -/
theorem returnFromInterrupt_reads (s : State) :
    let first := memRead s.sp s
    let second := memRead (s.sp + 1) first.2
    returnFromInterrupt s =
      { second.2 with queueing := false, regs := s.regs.set .a first.1, pc := second.1, sp := s.sp + 2 } := by
  have hsp : s.sp + 2 = s.sp + 1 + 1 := by bv_omega
  rw [hsp]
  rfl

/-- Settles O40: A is written over the registers that the operand leaves, which are those of before. -/
theorem rfiReturns : Obligations.RfiReturns := by
  intro a s
  refine ⟨row_of_defaultCost rfl rfl, ?_⟩
  rw [exec_rfi, returnFromInterrupt_reads, specialOperand_regs]

/-- A return writes A and no other general register. -/
theorem returnFromInterrupt_get_other (s : State) {r : GReg} (hr : r ≠ .a) :
    (returnFromInterrupt s).regs.get r = s.regs.get r := by
  rw [returnFromInterrupt_reads]
  exact Regs.get_set_other s.regs _ hr.symm

/-! ### Frames -/

/-- HWQ spreads a device's fields over A, B, C, X, Y alone (spec/47_hardware_instructions.md R291). -/
theorem queryRegs_get_other (d : Option Device) (g : Regs) {r : GReg} (hr : r ∈ [GReg.z, .i, .j]) :
    (queryRegs d g).get r = g.get r := by
  simp only [List.mem_cons, List.not_mem_nil, or_false] at hr
  cases d <;> rcases hr with rfl | rfl | rfl <;> rfl

section StoringNothing

variable {a : Operand} {i : Instr} {s t : State}

/-- What each special instruction that stores nothing writes over the state that its operand leaves. -/
theorem exec_storingNothing_cases (hi : i ∈ [Instr.ias a, .iaq a, .rfi a, .hwq a, .brk a, .halt0 a])
    (ht : exec i s = .next t) :
    let e := specialOperand (baseCost s.params i) a s
    (i = .ias a ∧ t = { e.st with ia := e.aval }) ∨ (i = .iaq a ∧ t = { e.st with queueing := e.aval != 0 }) ∨
      (i = .rfi a ∧ t = returnFromInterrupt e.st) ∨
      (i = .hwq a ∧ t = { e.st with regs := queryRegs e.st.devices[e.aval.toNat]? e.st.regs }) ∨
      (i ∈ [Instr.brk a, .halt0 a] ∧ t = { e.st with run := .stopped }) := by
  simp only [List.mem_cons, List.not_mem_nil, or_false] at hi
  rcases hi with rfl | rfl | rfl | rfl | rfl | rfl <;> cases ht
  · exact .inl ⟨rfl, rfl⟩
  · exact .inr (.inl ⟨rfl, rfl⟩)
  · exact .inr (.inr (.inl ⟨rfl, rfl⟩))
  · exact .inr (.inr (.inr (.inl ⟨rfl, rfl⟩)))
  · exact .inr (.inr (.inr (.inr ⟨by simp, rfl⟩)))
  · exact .inr (.inr (.inr (.inr ⟨by simp, rfl⟩)))

/-- Together they may write these fields, and the cycle counter grows by the base cost. -/
theorem exec_storingNothing_state (hi : i ∈ [Instr.ias a, .iaq a, .rfi a, .hwq a, .brk a, .halt0 a])
    (ht : exec i s = .next t) :
    t = { s with regs := t.regs, pc := t.pc, sp := t.sp, ia := t.ia, queueing := t.queueing, run := t.run,
                 cycle := s.cycle + baseCost s.params i, envTick := t.envTick } := by
  rcases exec_storingNothing_cases hi ht with ⟨-, rfl⟩ | ⟨-, rfl⟩ | ⟨-, rfl⟩ | ⟨-, rfl⟩ | ⟨-, rfl⟩ <;>
    ext : 1 <;> simp

end StoringNothing

/-- Settles O50: the fields that none of them writes stand in the state that `exec_storingNothing_state` writes out; of
the others each instruction writes its own. -/
theorem frameOfSpecials : Obligations.FrameOfSpecials := by
  intro a s t i hi ht
  have hfixed : t.mem = s.mem ∧ t.ex = s.ex ∧ t.iq = s.iq ∧ t.devices = s.devices ∧ t.readHooks = s.readHooks ∧
      t.writeHooks = s.writeHooks ∧ t.params = s.params ∧ t.agenda = s.agenda ∧ t.endEvents = s.endEvents ∧
      t.skipping = s.skipping ∧ t.cycle = s.cycle + baseCost s.params i := by
    rw [exec_storingNothing_state hi ht]
    exact ⟨rfl, rfl, rfl, rfl, rfl, rfl, rfl, rfl, rfl, rfl, rfl⟩
  obtain ⟨hmem, hex, hiq, hdevices, hread, hwrite, hparams, hagenda, hend, hskip, hcycle⟩ := hfixed
  refine ⟨hmem, hex, hiq, hdevices, hread, hwrite, hparams, hagenda, hend, hskip, hcycle, ?_⟩
  rcases exec_storingNothing_cases hi ht with ⟨rfl, rfl⟩ | ⟨rfl, rfl⟩ | ⟨rfl, rfl⟩ | ⟨rfl, rfl⟩ | ⟨hhalt, rfl⟩
  · simp
  · simp
  · simp +contextual [returnFromInterrupt_get_other]
  · simp [queryRegs_get_other]
  · rcases List.mem_pair.mp hhalt with rfl | rfl <;> simp

/-- IAG and HWN write a word through their operand's reference. -/
theorem exec_iag_or_hwn {a : Operand} {i : Instr} (hi : i ∈ [Instr.iag a, .hwn a]) (s : State) :
    let e := specialOperand (baseCost s.params i) a s
    ∃ v, exec i s = .next (setRef e.aref v e.st) := by
  rcases List.mem_pair.mp hi with rfl | rfl
  · exact ⟨_, exec_iag a s⟩
  · exact ⟨_, exec_hwn a s⟩

/-- A write through a reference, as the frame of its destination. -/
theorem setRef_onlyDestination {s : State} (h : s.mem.wf = true) (d : Ref) (v : Word) :
    Claims.onlyDestination s (setRef d v s) d s.sp :=
  ⟨fun _ hr => setRef_getReg_other hr v s, fun hsp => setRef_getReg_other hsp v s,
    fun hpc => setRef_getReg_other hpc v s, fun _ ha => setRef_read_other h v ha⟩

/-- The same of the state that an operand leaves, which differs in SP from the one before it. -/
theorem specialOperand_setRef_onlyDestination {s : State} (h : s.Inv) (cost : Nat) (a : Operand) (d : Ref) (v : Word) :
    Claims.onlyDestination s (setRef d v (specialOperand cost a s).st) d (spAfter .a a s.sp) := by
  have hframe := setRef_onlyDestination (specialOperand_inv h cost a).memWf d v
  simpa [Claims.onlyDestination] using hframe

/-- Settles O51: the write leaves all but its destination as the operand has left it, which is as it was but for SP. -/
theorem frameOfIagAndHwn : Obligations.FrameOfIagAndHwn := by
  intro a s t h i hi ht d
  obtain ⟨v, hv⟩ := exec_iag_or_hwn hi s
  cases ht.symm.trans hv
  have hex (hd : d ≠ .reg .ex) : (setRef d v (specialOperand (baseCost s.params i) a s).st).ex = s.ex :=
    (setRef_getReg_other hd v _).trans (specialOperand_ex _ a s)
  exact ⟨specialOperand_setRef_onlyDestination h _ a d v, hex, by simp [Claims.sameControl], by simp⟩

end Sys2Proof.Machine

/-! PROOFS. The statements about the device bus: how many devices there are, what a query reports of one, and what
invoking one does (spec/47_hardware_instructions.md). -/

namespace Sys2Proof.Machine

/-! ### HWN (R290) -/

/-- Settles O43: resolving the operand leaves the registry that HWN counts. -/
theorem hwnCounts : Obligations.HwnCounts := by
  intro a s
  refine ⟨row_of_defaultCost rfl rfl, ?_⟩
  rw [exec_hwn, specialOperand_devices]

/-! ### HWQ (R291) -/

theorem exec_hwq (a : Operand) (s : State) :
    let e := specialOperand (baseCost s.params (.hwq a)) a s
    exec (.hwq a) s = .next { e.st with regs := queryRegs s.devices[e.aval.toNat]? s.regs } := by
  intro e
  have hdevices : e.st.devices = s.devices := specialOperand_devices _ a s
  have hregs : e.st.regs = s.regs := specialOperand_regs _ a s
  rw [← hdevices, ← hregs]
  rfl

/-- The two words in which a register pair holds a 32-bit id give it back. -/
theorem ident_halves_append (n : Ident) : n.extractLsb' 16 16 ++ n.extractLsb' 0 16 = n :=
  (BitVec.extractLsb'_append_extractLsb'_eq_extractLsb' (start₁ := 0) (len₁ := 16) rfl).trans
    BitVec.extractLsb'_eq_self

/-- B and A hold the id, C the version, Y and X the manufacturer. -/
theorem queryRegs_some (d : Device) (g : Regs) :
    let q := queryRegs (some d) g
    q.b ++ q.a = d.ident ∧ q.c = d.version ∧ q.y ++ q.x = d.manufacturer :=
  ⟨ident_halves_append d.ident, rfl, ident_halves_append d.manufacturer⟩

theorem queryRegs_none (g : Regs) :
    let q := queryRegs none g
    q.a = 0 ∧ q.b = 0 ∧ q.c = 0 ∧ q.x = 0 ∧ q.y = 0 :=
  ⟨rfl, rfl, rfl, rfl, rfl⟩

/-- Settles O44: HWQ writes what the registry holds at the index, which past its end is no device. -/
theorem hwqReports : Obligations.HwqReports := by
  intro a s
  refine ⟨row_of_defaultCost rfl rfl, ?_⟩
  intro e
  have hother : ∀ r ∈ [GReg.z, .i, .j], (queryRegs s.devices[e.aval.toNat]? s.regs).get r = s.regs.get r :=
    fun _ => queryRegs_get_other _ _
  refine ⟨_, exec_hwq a s, rfl, hother .z (by simp), hother .i (by simp), hother .j (by simp), fun d hd => ?_,
    fun hpast => ?_⟩
  · rw [hd]
    exact queryRegs_some d s.regs
  · rw [List.getElem?_eq_none hpast]
    exact queryRegs_none s.regs

/-! ### HWI (R292) -/

/-- A device that does not exist or has no handler does nothing (spec/60_exceptions.md R327). -/
theorem exec_hwi_of_noHandler {a : Operand} {s : State} :
    let e := specialOperand (baseCost s.params (.hwi a)) a s
    (∀ d, s.devices[e.aval.toNat]? = some d → d.hasHandler = false) → exec (.hwi a) s = .next e.st := by
  intro e hno
  rw [← specialOperand_devices (baseCost s.params (.hwi a)) a s] at hno
  simp only [exec, execHwi]
  split
  · next d hd => exact if_neg (by simp [hno d hd])
  · rfl

theorem exec_hwi_of_handler {a : Operand} {s : State} {d : Device} :
    let e := specialOperand (baseCost s.params (.hwi a)) a s
    s.devices[e.aval.toNat]? = some d → d.hasHandler = true → exec (.hwi a) s = runHandler e.aval.toNat e.st := by
  intro e hd hh
  rw [← specialOperand_devices (baseCost s.params (.hwi a)) a s] at hd
  simp only [exec, execHwi, e, hd, hh, if_true]

/-- Settles O45: the call of a handler ends as its actions do, and only one that completes adds cycles and pauses. -/
theorem hwiInvokes : Obligations.HwiInvokes := by
  intro a s
  refine ⟨row_of_defaultCost rfl rfl, exec_hwi_of_noHandler, fun d hd hh => ?_⟩
  rw [exec_hwi_of_handler hd hh, runHandler]
  cases deviceActs _ _ with
  | next t => rfl
  | fault x => rfl
  | refused x => rfl

end Sys2Proof.Machine

/-! PROOFS. The statements about interrupts as a whole (spec/60_exceptions.md): the return undoes the entry, the message
that no longer fits is fatal, and the start of a step delivers the head of the queue. -/

namespace Sys2Proof.Machine

/-! ### Run states (spec/10_state.md R40) -/

theorem resume_of_ne_paused {s : State} (h : s.run ≠ .paused) : resume s = s := if_neg h

theorem hostStart_of_ne_stopped {s : State} (h : s.run ≠ .stopped) : hostStart s = s := if_neg h

theorem hostStop_of_ne_running {s : State} (h : s.run ≠ .running) : hostStop s = s := if_neg h

/-- No action of a device but the resume callback, and that one of a paused CPU only, changes the run state. -/
theorem deviceAct_run {d : DeviceAction} {s t : State} (hp : s.run ≠ .paused) (ha : deviceAct d s = .next t) :
    t.run = s.run := by
  cases d with
  | setReg r v => cases ha; exact State.setReg_run s r v
  | setMem addr v => cases ha; exact memWrite_run addr v s
  | getMem addr => cases ha; exact memRead_run addr s
  | irq msg =>
    rcases interrupt_eq_next.mp ha with ⟨-, -, rfl⟩ | ⟨-, rfl⟩
    · rfl
    · exact trigger_run msg s
  | onGet k => simp only [deviceAct] at ha; split at ha <;> cases ha; rfl
  | onSet k => simp only [deviceAct] at ha; split at ha <;> cases ha; rfl
  | resume => cases ha; rw [resume_of_ne_paused hp]

/-- Of the host's actions only `clear()` leads out of a fault state (spec/60_exceptions.md R321;
spec/70_reset_and_hazards.md R353). -/
theorem hostAct_run_of_fault {h : HostAction} {s t : State} (hf : s.run = .faultDecode ∨ s.run = .faultFire)
    (ha : hostAct h s = .next t) : h = .clear ∨ t.run = s.run := by
  have hne : s.run ≠ .paused ∧ s.run ≠ .stopped ∧ s.run ≠ .running := by
    rcases hf with e | e <;> simp [e]
  obtain ⟨hpaused, hstopped, hrunning⟩ := hne
  cases h with
  | clear => exact .inl rfl
  | act d => exact .inr (deviceAct_run hpaused ha)
  | addDevice d => cases ha; unfold addDevice; split <;> exact .inr rfl
  | load words origin =>
    simp only [hostAct, hostLoad] at ha
    split at ha <;> cases ha
    exact .inr rfl
  | start => cases ha; exact .inr (by rw [hostStart_of_ne_stopped hstopped])
  | stop => cases ha; exact .inr (by rw [hostStop_of_ne_running hrunning])

/-! ### Entry and return (R314, R318) -/

/-- Everything an entry does when there is a handler, in a machine with no write hooks: PC and then A go to the two
words below SP. -/
theorem trigger_noHooks {s : State} (hw : s.writeHooks = []) (hia : s.ia ≠ 0) (msg : Word) :
    trigger msg s =
      { s with pc := s.ia, sp := s.sp - 1 - 1, regs := s.regs.set .a msg, queueing := true,
               mem := (s.mem.write (s.sp - 1) s.pc).write (s.sp - 1 - 1) s.regs.a } := by
  rw [trigger_handler hia, push_noHooks hw, push_noHooks (by exact hw)]

/-- In a machine without hooks, a return right after an entry takes A and PC off the stack as the entry has pushed them:
it leaves the state before the entry but for raw memory, and delivering. -/
theorem returnFromInterrupt_trigger {s : State} (hm : s.mem.wf = true) (hh : s.noHooks) (hia : s.ia ≠ 0) (msg : Word) :
    returnFromInterrupt (trigger msg s) = { s with mem := (trigger msg s).mem, queueing := false } := by
  obtain ⟨hread, hwrite⟩ := hh
  have hm' : (s.mem.write (s.sp - 1) s.pc).wf = true := Memory.write_wf hm _ _
  have hne : s.sp - 1 - 1 ≠ s.sp - 1 := by bv_omega
  rw [trigger_noHooks hwrite hia, returnFromInterrupt_noHooks (by exact hread)]
  simp only [BitVec.sub_add_cancel, Memory.read_write_same hm', Memory.read_write_other hm' _ hne,
    Memory.read_write_same hm]
  rw [show (s.regs.set .a msg).set .a s.regs.a = s.regs from Regs.set_set_get s.regs .a msg]

/-- RFI with a short literal reads nothing: it is the return, one base cost later. -/
theorem exec_rfi_short (k : BitVec 5) (s : State) :
    exec (.rfi (.short k)) s =
      .next ((returnFromInterrupt s).withCycle (s.cycle + baseCost s.params (.rfi (.short k)))) := rfl

/-- Settles O42: the return undoes the entry in the state that the INT's operand leaves, where SP alone of what is
restored has moved. -/
theorem rfiUndoesInt : Obligations.RfiUndoesInt := by
  intro a k s hinv hh hq hia
  obtain ⟨hread, hwrite⟩ := hh
  let e := specialOperand (baseCost s.params (.int a)) a s
  let t := trigger e.aval e.st
  have hm : e.st.mem.wf = true := (specialOperand_inv hinv _ a).memWf
  have hh' : e.st.noHooks := ⟨(specialOperand_readHooks _ a s).trans hread, (specialOperand_writeHooks _ a s).trans hwrite⟩
  have heia : e.st.ia = s.ia := specialOperand_ia _ a s
  have hia' : e.st.ia ≠ 0 := heia.symm ▸ hia
  have hint : exec (.int a) s = .next t := interrupt_delivering ((specialOperand_queueing _ a s).trans hq) e.aval
  have hentry := trigger_noHooks hh'.2 hia' e.aval
  have hret := returnFromInterrupt_trigger hm hh' hia' e.aval
  refine ⟨t, _, hint, (congrArg (·.pc) hentry).trans heia, congrArg (·.queueing) hentry, exec_rfi_short k t, ?_⟩
  rw [hret]
  refine ⟨specialOperand_pc _ a s, specialOperand_regs _ a s, specialOperand_sp _ a s, specialOperand_ex _ a s, heia,
    rfl, fun addr h1 h2 => ?_⟩
  exact (trigger_read_other e.aval hm h1 h2).trans (congrArg (·.read addr) (specialOperand_mem _ a s))

/-! ### The 257th message (R321) -/

/-- A full queue catches fire. -/
theorem interrupt_full {s : State} (hq : s.queueing = true) (hfull : s.iq.length = 256) (msg : Word) :
    interrupt msg s = .fault .onFire :=
  interrupt_eq_fault.mpr ⟨hq, hfull.ge, rfl⟩

/-- Settles O38: the operand of INT is read in a controller as full as before it. -/
theorem intOverflowCatchesFire : Obligations.IntOverflowCatchesFire := by
  refine ⟨fun a s hq hfull => ⟨?_, interrupt_full hq hfull⟩, rfl, nofun, fun h t u hrun ha => ?_, fun t hrun hagenda => ?_⟩
  · exact interrupt_full ((specialOperand_queueing _ a s).trans hq) ((specialOperand_iq _ a s).symm ▸ hfull) _
  · exact (hostAct_run_of_fault (.inr hrun) ha).imp_right (·.trans hrun)
  · exact stepAtRest t hagenda (by simp [hrun])

/-! ### Delivery at the start of a step (R315) -/

theorem deliverQueued_queueing {s : State} (h : s.queueing = true) : deliverQueued s = s := if_pos h

theorem deliverQueued_empty {s : State} (h : s.iq = []) : deliverQueued s = s := by
  rcases deliverQueued_cases s with ⟨hs, -⟩ | ⟨msg, rest, -, hiq, -⟩
  · exact hs
  · cases h.symm.trans hiq

theorem deliverQueued_head {s : State} {msg : Word} {rest : List Word} (hq : s.queueing = false)
    (hiq : s.iq = msg :: rest) : deliverQueued s = trigger msg { s with iq := rest } := by
  simp only [deliverQueued, hq, hiq, Bool.false_eq_true, if_false]

/-- Settles O54: the head is triggered in the state without it, where an entry is two pushes and a jump. -/
theorem deliveryTakesHead : Obligations.DeliveryTakesHead := by
  intro s msg rest
  refine ⟨deliverQueued_queueing, deliverQueued_empty, fun hq hiq h0 => ?_, fun hq hiq hia => ?_⟩
  · exact (deliverQueued_head hq hiq).trans (trigger_noHandler (s := { s with iq := rest }) h0 msg)
  · rw [deliverQueued_head hq hiq, trigger_handler (by exact hia), push_push]

end Sys2Proof.Machine

/-! PROOFS. The statements about what is done to the machine from outside between its steps
(spec/70_reset_and_hazards.md R350 to R354; spec/60_exceptions.md R316, R325 to R331): the actions of the host, a load,
and an instruction placed as the next one. -/

namespace Sys2Proof.Machine

/-! ### Actions between steps -/

/-- A write of a named register leaves every field but those of the named registers alone. -/
theorem State.setReg_state (s : State) (r : RegName) (v : Word) :
    s.setReg r v =
      { s with regs := (s.setReg r v).regs, pc := (s.setReg r v).pc, sp := (s.setReg r v).sp,
               ex := (s.setReg r v).ex, ia := (s.setReg r v).ia } := by
  cases r <;> rfl

theorem Hook.fits_iff {k : Hook} : k.fits = true ↔ k.base.toNat + k.length ≤ 65536 := decide_eq_true_iff

/-- Settles O59: each action's meaning in each of its cases, the fault states by `hostAct_run_of_fault`. -/
theorem hostControl : Obligations.HostControl := by
  intro s msg addr v r d k
  refine ⟨rfl, fun h => ?start, fun h => ?stop, fun h => ?resume, fun h => ?notStopped, fun h => ?notRunning,
    fun h => ?notPaused, rfl, fun h t hf ha => hostAct_run_of_fault hf ha, ?setReg, rfl, rfl, fun h => ?room,
    fun h => ?noRoom, fun h => ?hookFits, fun h => ?hookWraps⟩
  case start => exact congrArg _ (if_pos h)
  case stop => exact congrArg _ (if_pos h)
  case resume => exact congrArg _ (if_pos h)
  case notStopped => exact congrArg _ (hostStart_of_ne_stopped h)
  case notRunning => exact congrArg _ (hostStop_of_ne_running h)
  case notPaused => exact congrArg _ (resume_of_ne_paused h)
  case setReg =>
    refine ⟨s.setReg r v, rfl, ?_, fun q hq => ?_, State.setReg_state s r v⟩
    · rw [State.getReg_setReg, if_pos rfl]
    · rw [State.getReg_setReg, if_neg (Ne.symm hq)]
  case room => exact congrArg _ (if_pos h)
  case noRoom => exact congrArg _ (if_neg (Nat.not_lt.mpr h))
  case hookFits => exact ⟨if_pos (Hook.fits_iff.mpr h), if_pos (Hook.fits_iff.mpr h)⟩
  case hookWraps =>
    have hw : ¬ k.fits = true := fun hf => Nat.not_le.mpr h (Hook.fits_iff.mp hf)
    exact ⟨if_neg hw, if_neg hw⟩

/-! ### Loading (R352) -/

/-- A run of writes no longer than memory does not meet itself: each word is seen where it was written. -/
theorem Memory.read_writeList {m : Memory} (h : m.wf = true) (addr : Word) {ws : List Word} (hlen : ws.length ≤ 65536)
    {k : Nat} {w : Word} (hk : ws[k]? = some w) : (m.writeList addr ws).read (addr + BitVec.ofNat 16 k) = w := by
  induction ws generalizing m addr k with
  | nil => cases hk
  | cons v vs ih =>
    have hm : (m.write addr v).wf = true := Memory.write_wf h addr v
    rw [List.length_cons] at hlen
    cases k with
    | zero =>
      cases hk
      have hout : ∀ j < vs.length, addr + 1 + BitVec.ofNat 16 j ≠ addr + BitVec.ofNat 16 0 := by
        intro j hj
        bv_omega
      rw [Memory.writeList, Memory.read_writeList_other hm _ vs _ hout, BitVec.add_zero, Memory.read_write_same h]
    | succ k =>
      rw [addr_add_succ]
      exact ih hm (addr + 1) (Nat.le_of_succ_le hlen) hk

/-- Settles O60: a load that fits writes one run of addresses that does not wrap. -/
theorem loadPlacesWords : Obligations.LoadPlacesWords := by
  intro s words origin hinv
  refine ⟨fun hfit => ?_, fun hwide => if_neg (Nat.not_le.mpr hwide)⟩
  refine ⟨{ s with mem := s.mem.writeList origin words }, if_pos hfit, rfl,
    fun k w hk => Memory.read_writeList hinv.memWf origin (Nat.le_of_add_left_le hfit) hk, fun addr hout => ?_⟩
  refine Memory.read_writeList_other hinv.memWf origin words addr fun k hk => ?_
  bv_omega

/-! ### The instruction placed as the next one (log 7) -/

/-- Nothing arrives before the step that runs a placed instruction. -/
theorem arrivals_withFetchWord (s : State) (nbits w : Nat) :
    arrivals (s.withFetchWord nbits w) = .next { s.withFetchWord nbits w with agenda := s.agenda.tail } := by
  unfold arrivals State.withFetchWord
  cases s.agenda <;> rfl

/-- No queued interrupt is delivered before a placed instruction. -/
theorem deliverQueued_withFetchWord (s : State) (nbits w : Nat) (agenda : List (List HostAction)) :
    deliverQueued { s.withFetchWord nbits w with agenda := agenda } =
      { s.withFetchWord nbits w with agenda := agenda } := by
  by_cases hq : s.queueing = true
  · exact deliverQueued_queueing hq
  · exact deliverQueued_empty (if_neg hq)

/-- The fetch of a placed instruction sees no read hooks. -/
theorem withFetchWord_unhooked (s : State) (nbits w : Nat) :
    (s.withFetchWord nbits w).readHooks = [] ∨ (s.withFetchWord nbits w).params.fetchViaHooks = false := by
  show s.readHooks = [] ∨ (s.params.fetchViaHooks && s.readHooks.isEmpty) = false
  cases s.readHooks <;> simp

theorem length_encodeFor (m : Config.OpMap) (i : Instr) : (encodeFor m i).length = (encode i).length := by
  unfold encodeFor
  cases encode i <;> rfl

/-- A well-formed instruction has as many words as its first word says (spec/30_encoding.md R94). -/
theorem encodeFor_eq_cons (m : Config.OpMap) {i : Instr} (h : i.wellFormed = true) :
    ∃ w ws, encodeFor m i = w :: ws ∧ ws.length = extraWords w := by
  cases he : encodeFor m i with
  | nil =>
    have hd := decodeFor_encodeFor_of_wellFormed m h []
    rw [he] at hd
    cases hd
  | cons w ws =>
    have hd := decodeFor_encodeFor_of_wellFormed m h [0, 0]
    rw [he, List.cons_append] at hd
    obtain ⟨hle, hdec⟩ := everyWordDecodes m w (ws ++ [0, 0])
    obtain ⟨j, hj⟩ := hdec (by rw [List.length_append]; exact Nat.le_add_left_of_le hle)
    have hrest : [0, 0] = (ws ++ [0, 0]).drop (extraWords w) := congrArg Prod.snd (Except.ok.inj (hd.symm.trans hj))
    have hlen := congrArg List.length hrest
    simp only [List.length_drop, List.length_append, List.length_cons, List.length_nil] at hlen
    exact ⟨w, ws, rfl, by omega⟩

/-- An instruction whose words stand in raw memory from PC on is the one that the CPU runs, with PC past its words and
one cycle for each next word, where fetches see no read hooks. -/
theorem runInstr_of_words {s : State} (hu : s.readHooks = [] ∨ s.params.fetchViaHooks = false) {i : Instr}
    (hwf : i.wellFormed = true)
    (hwords : ∀ k w, (encodeFor s.params.opMap i)[k]? = some w → s.mem.read (s.pc + BitVec.ofNat 16 k) = w) :
    runInstr s = exec i { s with
      pc := s.pc + BitVec.ofNat 16 (encode i).length, cycle := s.cycle + ((encode i).length - 1) } := by
  obtain ⟨w, ws, hcons, hlen⟩ := encodeFor_eq_cons s.params.opMap hwf
  have hhead : (fetchRead s.pc s).1 = w := by
    rw [fetchRead_of_unhooked hu, ← BitVec.add_zero s.pc]
    exact hwords 0 w (by rw [hcons]; rfl)
  have hcount : (encode i).length = 1 + extraWords w := by
    rw [← length_encodeFor s.params.opMap i, hcons, List.length_cons, hlen, Nat.add_comm]
  have hread : (List.range (1 + extraWords w)).map (fun k => s.mem.read (s.pc + BitVec.ofNat 16 k)) =
      encodeFor s.params.opMap i := by
    rw [← hcount, ← length_encodeFor s.params.opMap i]
    refine List.ext_getElem (by simp) fun k _ hk => ?_
    rw [List.getElem_map, List.getElem_range]
    exact hwords k _ (List.getElem?_eq_getElem hk)
  have hfetch : fetchInstr s = (encodeFor s.params.opMap i,
      s.atFetch (s.pc + BitVec.ofNat 16 (encode i).length) (s.cycle + ((encode i).length - 1))) := by
    rw [fetchInstr_eq_fetched, hhead, fetched_raw hu, hread, hcount, BitVec.ofNat_add, BitVec.add_assoc,
      Nat.add_sub_cancel_left]
    rfl
  have hdec : decodeFor s.params.opMap (encodeFor s.params.opMap i) = .ok (i, []) := by
    simpa using decodeFor_encodeFor_of_wellFormed s.params.opMap hwf []
  simp only [runInstr, hfetch, hdec]
  rfl

theorem decodeTableWord_eq_some {nbits w : Nat} {i : Instr} (h : decodeTableWord nbits w = some i) :
    ∃ rest, decode (tableWords nbits w) = .ok (i, rest) := by
  unfold decodeTableWord at h
  split at h
  · next j rest hd =>
    cases h
    exact ⟨rest, hd⟩
  · cases h

/-- The words that `withFetchWord` places begin with those of the instruction, in the machine's own opcode numbers. -/
theorem read_withFetchWord {s : State} (hinv : s.Inv) {nbits w : Nat} {i : Instr} {rest : List Word}
    (hd : decode (tableWords nbits w) = .ok (i, rest)) {k : Nat} {v : Word}
    (hk : (encodeFor s.params.opMap i)[k]? = some v) :
    (s.withFetchWord nbits w).mem.read (s.pc + BitVec.ofNat 16 k) = v := by
  have hplaced : onHead s.params.opMap.ofTable (tableWords nbits w) = encodeFor s.params.opMap i ++ rest := by
    rw [encodeFor_append, (encode_decode hd).2]
  have hlen : (onHead s.params.opMap.ofTable (tableWords nbits w)).length ≤ 65536 := Nat.le_of_ble_eq_true rfl
  refine Memory.read_writeList hinv.memWf s.pc hlen ?_
  obtain ⟨hlt, -⟩ := List.getElem?_eq_some_iff.mp hk
  rw [hplaced, List.getElem?_append_left hlt, hk]

/-- Settles O56: with nothing arriving and nothing delivered, the step fetches the placed words and runs what they
encode. -/
theorem placedInstructionRuns : Obligations.PlacedInstructionRuns := by
  intro s nbits w i hinv hdec f
  obtain ⟨rest, hd⟩ := decodeTableWord_eq_some hdec
  obtain ⟨hwf, -⟩ := encode_decode hd
  let u : State := { f with agenda := s.agenda.tail }
  have hu : u.readHooks = [] ∨ u.params.fetchViaHooks = false := withFetchWord_unhooked s nbits w
  calc step f
    _ = cpuStep u := step_of_arrivals (.inl rfl) (arrivals_withFetchWord s nbits w)
    _ = runInstr (deliverQueued u) := if_pos rfl
    _ = runInstr u := congrArg runInstr (deliverQueued_withFetchWord s nbits w s.agenda.tail)
    _ = _ := runInstr_of_words hu hwf fun k v hk => read_withFetchWord hinv hd hk

end Sys2Proof.Machine
